-- ==== Sys2Proof/Word.lean ====
section
/-! DEFINITION. The word types of PCK (00_scope.md R6, R7): everything is unsigned, bit 0 is the least significant bit. -/

namespace Sys2Proof

/-- A byte, an integer 0 to 255 (00_scope.md R7). -/
abbrev Byte := BitVec 8

/-- The command word and the response data, `CMD_W` = 64 bits (00_scope.md R6). -/
abbrev Word := BitVec 64

/-- The first operand field of a command, `A = C[47:32]` (30_encoding.md R80). -/
abbrev FieldA := BitVec 16

/-- The second operand field of a command, `B = C[31:0]` (30_encoding.md R80). -/
abbrev FieldB := BitVec 32

end Sys2Proof
end

