-- ==== Sys2Proof/Config.lean ====
section
/-! DEFINITION. The parameters of the hardware at the values PCK has (00_scope.md R6). Nothing of this hardware is left open that a
command could show (93_implementation_defined.md, end of part 1), so there is no free value here. -/

namespace Sys2Proof.Config

/-- `HUF_NSYM`: symbols of the frequency array, 0 to 287. -/
abbrev hufNsym : Nat := 288

/-- `HUF_MAXLEN`: number of levels, the longest code length. -/
abbrev hufMaxLen : Nat := 15

/-- The orders of the symbols inside one level that the parameter `HUF_LEVEL_ORDER` can name (41_huffman.md R130, 90_conflicts.md C1). -/
inductive LevelOrder where
  /-- ascending symbol value: this hardware -/
  | symbol
  /-- the order of `sorted`, descending frequency -/
  | freqDesc
  /-- each level of `sorted` reversed -/
  | freqAsc
deriving DecidableEq, Repr

/-- `HUF_LEVEL_ORDER` of this hardware. -/
abbrev hufLevelOrder : LevelOrder := .symbol

/-- `WIN_EXP_MIN`: the smallest window exponent. -/
abbrev winExpMin : Nat := 8

/-- `WIN_EXP_MAX`: the largest window exponent. -/
abbrev winExpMax : Nat := 15

/-- `WIN_MINMATCH`: the shortest match reported. -/
abbrev winMinMatch : Nat := 3

/-- `WIN_MAXMATCH`: the longest match reported. -/
abbrev winMaxMatch : Nat := 258

/-- `WIN_LA_CAP`: the capacity of the lookahead buffer. -/
abbrev winLaCap : Nat := 258

/-- The largest count of registered bytes, `2^WIN_POS_W - 1` (42_window.md R166). -/
abbrev winPosMax : Nat := 18446744073709551615

/-- `FLT_BPP_MAX`: the largest bits-per-pixel accepted. -/
abbrev fltBppMax : Nat := 64

/-- `FLT_ROW_MAX`: the largest number of data bytes of one scanline. -/
abbrev fltRowMax : Nat := 65536

/-- `A7_PASSES`: number of passes. -/
abbrev a7Passes : Nat := 7

end Sys2Proof.Config
end

