-- ==== Sys2Proof/Syntax.lean ====
section
/-! DEFINITION. The 33 commands of PCK command set version 1, one constructor per row of the opcode map (30_encoding.md R84), each with
the operand fields its row uses at their full width (R81); and the six pseudo-instructions (R90). -/

namespace Sys2Proof

/-- One command. A row that uses `A` carries 16 bits, a row that uses `B` carries 32 bits, `A` first. -/
inductive Instr where
  | nop
  | reset
  | rdstat
  | hufClr
  | hufWrf (sym : FieldA) (freq : FieldB)
  | hufRdf (sym : FieldA)
  | hufBuild
  | hufRdc (sym : FieldA)
  | hufRds (idx : FieldA)
  | hufRdl (level : FieldA)
  | winInit (exp : FieldA)
  | winReg (byte : FieldA)
  | winLaclr
  | winLaput (byte : FieldA)
  | winMatch
  | winRdb (dist : FieldB)
  | winRdn
  | fltCfg (bpp : FieldA) (width : FieldB)
  | fltWrl (byte : FieldA) (idx : FieldB)
  | fltRdl (idx : FieldB)
  | fltWrp (byte : FieldA) (idx : FieldB)
  | fltRdp (idx : FieldB)
  | fltRdo (idx : FieldB)
  | fltDefilt
  | fltFilt (type : FieldA)
  | fltAuto
  | fltNext
  | fltZprev
  | fltPaeth (packed : FieldB)
  | a7Setw (width : FieldB)
  | a7Seth (height : FieldB)
  | a7Desc (pass : FieldA)
  | a7Size (pass : FieldA)
deriving DecidableEq, Repr

/-- The pseudo-instructions (30_encoding.md R90); `expand` in Decode.lean gives the commands of each. -/
inductive Pseudo where
  /-- `HUF.TABLE [f0, ..., fk]` -/
  | hufTable (freqs : List FieldB)
  /-- `WIN.FEED [b0, ..., bk]` -/
  | winFeed (bytes : List Byte)
  /-- `WIN.LOOK [b0, ..., bk]` -/
  | winLook (bytes : List Byte)
  /-- `FLT.ROW t, [d1, ..., dk]` -/
  | fltRow (tag : Byte) (data : List Byte)
  /-- `FLT.PREVROW [d1, ..., dk]` -/
  | fltPrevRow (data : List Byte)
  /-- `A7.DIM w, h` -/
  | a7Dim (width height : FieldB)
deriving DecidableEq, Repr

end Sys2Proof
end

