-- ==== Sys2Proof/WellFormed.lean ====
section
/-! DEFINITION. When a command is well formed: every operand lies in the range its rule gives, as far as that range does not depend on
the state (30_encoding.md R83; the ranges are those of the commands' own rules). An ill-formed command still has a word and still
decodes (R86: an operand out of range is no reserved encoding); executing it raises an error (60_exceptions.md R262).
DESIGN CHOICE (Log 13): the spec has no notion of this name. -/

namespace Sys2Proof

/-- A symbol, 0 to 287 (41_huffman.md R122, R134, R135). -/
def FieldA.isSymbol (a : FieldA) : Bool := decide (a.toNat < Config.hufNsym)

/-- A level, 1 to 15 (41_huffman.md R137). -/
def FieldA.isLevel (a : FieldA) : Bool := decide (1 ≤ a.toNat) && decide (a.toNat ≤ Config.hufMaxLen)

/-- A window exponent, 8 to 15 (42_window.md R161). -/
def FieldA.isExponent (a : FieldA) : Bool := decide (Config.winExpMin ≤ a.toNat) && decide (a.toNat ≤ Config.winExpMax)

/-- A byte, 0 to 255 (42_window.md R166, R171; 43_filter.md R207, R209). -/
def FieldA.isByte (a : FieldA) : Bool := decide (a.toNat ≤ 255)

/-- A filter type, 0 to 4 (43_filter.md R216). -/
def FieldA.isFilterType (a : FieldA) : Bool := decide (a.toNat ≤ 4)

/-- A pass, 0 to 6 (44_adam7.md R247, R248). -/
def FieldA.isPass (a : FieldA) : Bool := decide (a.toNat < Config.a7Passes)

/-- A pixel format and width whose row fits (43_filter.md R206). -/
def isRowFormat (bpp : FieldA) (width : FieldB) : Bool :=
  decide (1 ≤ bpp.toNat) && decide (bpp.toNat ≤ Config.fltBppMax) &&
    decide ((width.toNat * bpp.toNat + 7) / 8 ≤ Config.fltRowMax)

/-- The command is well formed: each operand is in the range that holds whatever the state is. -/
def Instr.WellFormed : Instr → Bool
  | .nop => true
  | .reset => true
  | .rdstat => true
  | .hufClr => true
  | .hufWrf sym _ => FieldA.isSymbol sym
  | .hufRdf sym => FieldA.isSymbol sym
  | .hufBuild => true
  | .hufRdc sym => FieldA.isSymbol sym
  | .hufRds idx => FieldA.isSymbol idx
  | .hufRdl level => FieldA.isLevel level
  | .winInit exp => FieldA.isExponent exp
  | .winReg byte => FieldA.isByte byte
  | .winLaclr => true
  | .winLaput byte => FieldA.isByte byte
  | .winMatch => true
  | .winRdb dist => decide (1 ≤ dist.toNat) && decide (dist.toNat ≤ 2 ^ Config.winExpMax)
  | .winRdn => true
  | .fltCfg bpp width => isRowFormat bpp width
  | .fltWrl byte idx => FieldA.isByte byte && decide (idx.toNat ≤ Config.fltRowMax)
  | .fltRdl idx => decide (idx.toNat ≤ Config.fltRowMax)
  | .fltWrp byte idx => FieldA.isByte byte && decide (1 ≤ idx.toNat) && decide (idx.toNat ≤ Config.fltRowMax)
  | .fltRdp idx => decide (1 ≤ idx.toNat) && decide (idx.toNat ≤ Config.fltRowMax)
  | .fltRdo idx => decide (idx.toNat ≤ Config.fltRowMax)
  | .fltDefilt => true
  | .fltFilt type => FieldA.isFilterType type
  | .fltAuto => true
  | .fltNext => true
  | .fltZprev => true
  | .fltPaeth packed => decide (packed.toNat < 2 ^ 24)
  | .a7Setw _ => true
  | .a7Seth _ => true
  | .a7Desc pass => FieldA.isPass pass
  | .a7Size pass => FieldA.isPass pass

end Sys2Proof
end

