-- ==== Sys2Proof/Decode.lean ====
section
/-! DEFINITION. The command word: its fields (30_encoding.md R80), the opcode map (R84), the decoder (R83, R85, R86, in the order of
60_exceptions.md R262 steps 2 and 3) and, after it, the encoder (R81) and the expansion of the pseudo-instructions (R90). -/

namespace Sys2Proof

/-! The opcodes of rule R84. -/

abbrev Opcode.nop : BitVec 8 := 0x00#8
abbrev Opcode.reset : BitVec 8 := 0x01#8
abbrev Opcode.rdstat : BitVec 8 := 0x02#8
abbrev Opcode.hufClr : BitVec 8 := 0x10#8
abbrev Opcode.hufWrf : BitVec 8 := 0x11#8
abbrev Opcode.hufRdf : BitVec 8 := 0x12#8
abbrev Opcode.hufBuild : BitVec 8 := 0x13#8
abbrev Opcode.hufRdc : BitVec 8 := 0x14#8
abbrev Opcode.hufRds : BitVec 8 := 0x15#8
abbrev Opcode.hufRdl : BitVec 8 := 0x16#8
abbrev Opcode.winInit : BitVec 8 := 0x20#8
abbrev Opcode.winReg : BitVec 8 := 0x21#8
abbrev Opcode.winLaclr : BitVec 8 := 0x22#8
abbrev Opcode.winLaput : BitVec 8 := 0x23#8
abbrev Opcode.winMatch : BitVec 8 := 0x24#8
abbrev Opcode.winRdb : BitVec 8 := 0x25#8
abbrev Opcode.winRdn : BitVec 8 := 0x26#8
abbrev Opcode.fltCfg : BitVec 8 := 0x30#8
abbrev Opcode.fltWrl : BitVec 8 := 0x31#8
abbrev Opcode.fltRdl : BitVec 8 := 0x32#8
abbrev Opcode.fltWrp : BitVec 8 := 0x33#8
abbrev Opcode.fltRdp : BitVec 8 := 0x34#8
abbrev Opcode.fltRdo : BitVec 8 := 0x35#8
abbrev Opcode.fltDefilt : BitVec 8 := 0x36#8
abbrev Opcode.fltFilt : BitVec 8 := 0x37#8
abbrev Opcode.fltAuto : BitVec 8 := 0x38#8
abbrev Opcode.fltNext : BitVec 8 := 0x39#8
abbrev Opcode.fltZprev : BitVec 8 := 0x3A#8
abbrev Opcode.fltPaeth : BitVec 8 := 0x3B#8
abbrev Opcode.a7Setw : BitVec 8 := 0x40#8
abbrev Opcode.a7Seth : BitVec 8 := 0x41#8
abbrev Opcode.a7Desc : BitVec 8 := 0x42#8
abbrev Opcode.a7Size : BitVec 8 := 0x43#8

/-! The fields of the command word (R80). -/

/-- `OP`, bits 63:56. -/
def opField (w : Word) : BitVec 8 := w.extractLsb' 56 8

/-- `RSV`, bits 55:48. -/
def rsvField (w : Word) : BitVec 8 := w.extractLsb' 48 8

/-- `A`, bits 47:32. -/
def aField (w : Word) : FieldA := w.extractLsb' 32 16

/-- `B`, bits 31:0. -/
def bField (w : Word) : FieldB := w.extractLsb' 0 32

/-- One row of the opcode map: which operand fields the command uses, and the command they give. -/
structure OpcodeRow where
  op : BitVec 8
  usesA : Bool
  usesB : Bool
  make : FieldA → FieldB → Instr

/-- The system rows of R84. -/
def systemRows : List OpcodeRow :=
  [⟨Opcode.nop, false, false, fun _ _ => .nop⟩,
   ⟨Opcode.reset, false, false, fun _ _ => .reset⟩,
   ⟨Opcode.rdstat, false, false, fun _ _ => .rdstat⟩]

/-- The HUF rows of R84. -/
def hufRows : List OpcodeRow :=
  [⟨Opcode.hufClr, false, false, fun _ _ => .hufClr⟩,
   ⟨Opcode.hufWrf, true, true, fun a b => .hufWrf a b⟩,
   ⟨Opcode.hufRdf, true, false, fun a _ => .hufRdf a⟩,
   ⟨Opcode.hufBuild, false, false, fun _ _ => .hufBuild⟩,
   ⟨Opcode.hufRdc, true, false, fun a _ => .hufRdc a⟩,
   ⟨Opcode.hufRds, true, false, fun a _ => .hufRds a⟩,
   ⟨Opcode.hufRdl, true, false, fun a _ => .hufRdl a⟩]

/-- The WIN rows of R84. -/
def winRows : List OpcodeRow :=
  [⟨Opcode.winInit, true, false, fun a _ => .winInit a⟩,
   ⟨Opcode.winReg, true, false, fun a _ => .winReg a⟩,
   ⟨Opcode.winLaclr, false, false, fun _ _ => .winLaclr⟩,
   ⟨Opcode.winLaput, true, false, fun a _ => .winLaput a⟩,
   ⟨Opcode.winMatch, false, false, fun _ _ => .winMatch⟩,
   ⟨Opcode.winRdb, false, true, fun _ b => .winRdb b⟩,
   ⟨Opcode.winRdn, false, false, fun _ _ => .winRdn⟩]

/-- The FLT rows of R84. -/
def fltRows : List OpcodeRow :=
  [⟨Opcode.fltCfg, true, true, fun a b => .fltCfg a b⟩,
   ⟨Opcode.fltWrl, true, true, fun a b => .fltWrl a b⟩,
   ⟨Opcode.fltRdl, false, true, fun _ b => .fltRdl b⟩,
   ⟨Opcode.fltWrp, true, true, fun a b => .fltWrp a b⟩,
   ⟨Opcode.fltRdp, false, true, fun _ b => .fltRdp b⟩,
   ⟨Opcode.fltRdo, false, true, fun _ b => .fltRdo b⟩,
   ⟨Opcode.fltDefilt, false, false, fun _ _ => .fltDefilt⟩,
   ⟨Opcode.fltFilt, true, false, fun a _ => .fltFilt a⟩,
   ⟨Opcode.fltAuto, false, false, fun _ _ => .fltAuto⟩,
   ⟨Opcode.fltNext, false, false, fun _ _ => .fltNext⟩,
   ⟨Opcode.fltZprev, false, false, fun _ _ => .fltZprev⟩,
   ⟨Opcode.fltPaeth, false, true, fun _ b => .fltPaeth b⟩]

/-- The A7 rows of R84. -/
def a7Rows : List OpcodeRow :=
  [⟨Opcode.a7Setw, false, true, fun _ b => .a7Setw b⟩,
   ⟨Opcode.a7Seth, false, true, fun _ b => .a7Seth b⟩,
   ⟨Opcode.a7Desc, true, false, fun a _ => .a7Desc a⟩,
   ⟨Opcode.a7Size, true, false, fun a _ => .a7Size a⟩]

/-- The complete opcode map (R84), 33 rows. -/
def opcodeMap : List OpcodeRow := systemRows ++ hufRows ++ winRows ++ fltRows ++ a7Rows

/-- The row of an opcode; none for an illegal opcode (R85). -/
def opcodeRow (op : BitVec 8) : Option OpcodeRow := opcodeMap.find? fun r => decide (r.op = op)

/-- Why a word is no command. -/
inductive DecodeError where
  /-- `OP` is in no row of the opcode map (R85): the block raises `E_OPCODE` -/
  | illegalOpcode
  /-- `RSV` or an operand field the command does not use is not 0 (R83, R86): the block raises `E_RESERVED` -/
  | reservedField
deriving DecidableEq, Repr

/-- A reserved field of the word is not 0: `RSV`, or an operand field the row does not use (R83). -/
def OpcodeRow.reservedBad (r : OpcodeRow) (w : Word) : Bool :=
  decide (rsvField w ≠ 0#8) || (!r.usesA && decide (aField w ≠ 0#16)) || (!r.usesB && decide (bField w ≠ 0#32))

/-- The decoder: total on all 2^64 words, by `OP` alone, then the reserved fields (R84, R83, R85, R86). -/
def decode (w : Word) : Except DecodeError Instr :=
  match opcodeRow (opField w) with
  | none => .error .illegalOpcode
  | some r => if r.reservedBad w then .error .reservedField else .ok (r.make (aField w) (bField w))

/-- `decode` for a row of spec/opcode_table.json. A command is one 64-bit number at the port (20_memory.md R62), and the table numbers its
bits as R80 does, so the word is taken as it stands (Log 9); every bit above `nbits` is 0. -/
def decodeTableWord (nbits w : Nat) : Option Instr :=
  match decode (BitVec.ofNat 64 (w % 2 ^ nbits)) with
  | .ok i => some i
  | .error _ => none

/-! The encoder. -/

/-- `enc(M, a, b) = (opcode(M) << 56) | (a << 32) | b` (R81). -/
def enc (op : BitVec 8) (a : FieldA) (b : FieldB) : Word :=
  (op.setWidth 64 <<< 56) ||| (a.setWidth 64 <<< 32) ||| b.setWidth 64

/-- The word of a command; an operand the command does not have is 0 (R81). -/
def encode : Instr → Word
  | .nop => enc Opcode.nop 0 0
  | .reset => enc Opcode.reset 0 0
  | .rdstat => enc Opcode.rdstat 0 0
  | .hufClr => enc Opcode.hufClr 0 0
  | .hufWrf sym freq => enc Opcode.hufWrf sym freq
  | .hufRdf sym => enc Opcode.hufRdf sym 0
  | .hufBuild => enc Opcode.hufBuild 0 0
  | .hufRdc sym => enc Opcode.hufRdc sym 0
  | .hufRds idx => enc Opcode.hufRds idx 0
  | .hufRdl level => enc Opcode.hufRdl level 0
  | .winInit exp => enc Opcode.winInit exp 0
  | .winReg byte => enc Opcode.winReg byte 0
  | .winLaclr => enc Opcode.winLaclr 0 0
  | .winLaput byte => enc Opcode.winLaput byte 0
  | .winMatch => enc Opcode.winMatch 0 0
  | .winRdb dist => enc Opcode.winRdb 0 dist
  | .winRdn => enc Opcode.winRdn 0 0
  | .fltCfg bpp width => enc Opcode.fltCfg bpp width
  | .fltWrl byte idx => enc Opcode.fltWrl byte idx
  | .fltRdl idx => enc Opcode.fltRdl 0 idx
  | .fltWrp byte idx => enc Opcode.fltWrp byte idx
  | .fltRdp idx => enc Opcode.fltRdp 0 idx
  | .fltRdo idx => enc Opcode.fltRdo 0 idx
  | .fltDefilt => enc Opcode.fltDefilt 0 0
  | .fltFilt type => enc Opcode.fltFilt type 0
  | .fltAuto => enc Opcode.fltAuto 0 0
  | .fltNext => enc Opcode.fltNext 0 0
  | .fltZprev => enc Opcode.fltZprev 0 0
  | .fltPaeth packed => enc Opcode.fltPaeth 0 packed
  | .a7Setw width => enc Opcode.a7Setw 0 width
  | .a7Seth height => enc Opcode.a7Seth 0 height
  | .a7Desc pass => enc Opcode.a7Desc pass 0
  | .a7Size pass => enc Opcode.a7Size pass 0

/-! The pseudo-instructions (R90). -/

/-- A byte as the operand `A`. -/
def byteA (b : Byte) : FieldA := b.setWidth 16

/-- The commands a pseudo-instruction expands to, in order (R90). -/
def expand : Pseudo → List Instr
  | .hufTable freqs => .hufClr :: freqs.zipIdx.map fun e => .hufWrf (BitVec.ofNat 16 e.2) e.1
  | .winFeed bytes => bytes.map fun b => .winReg (byteA b)
  | .winLook bytes => .winLaclr :: bytes.map fun b => .winLaput (byteA b)
  | .fltRow tag data => .fltWrl (byteA tag) 0 :: (data.zipIdx 1).map fun e => .fltWrl (byteA e.1) (BitVec.ofNat 32 e.2)
  | .fltPrevRow data => (data.zipIdx 1).map fun e => .fltWrp (byteA e.1) (BitVec.ofNat 32 e.2)
  | .a7Dim width height => [.a7Setw width, .a7Seth height]

end Sys2Proof
end

