-- ==== Sys2Proof/Machine/State.lean ====
section
/-! DEFINITION. The state of the block (10_state.md R23 to R29) and of its ports, as plain data, and the state after reset (R31). -/

namespace Sys2Proof.Machine

/-- An internal memory (20_memory.md R60): a list of (index, element) pairs. Canonical form (`Memory.wf`): indices strictly rising, no
entry equal to what an unlisted index reads as (`Memory.unlisted`). A `Memory Byte` is a `List Host.Cell`. (Log 8) -/
abbrev Memory (α : Type) := List (Nat × α)

/-- The status register `STATUS`, field by field (R27); `Status.word` gives the 64 bits. Its reserved bits read 0 and nothing writes
them, so they have no field (Log 12). -/
structure Status where
  /-- bit 0, the error latch -/
  err : Bool
  /-- bit 1, the HUF outputs match `FREQ` -/
  hufValid : Bool
  /-- bit 2, the last build was height-limited -/
  hufLimited : Bool
  /-- bit 3, the last build had zero or one live symbol -/
  hufDegen : Bool
  /-- bit 4, `WIN.INIT` has been done -/
  winReady : Bool
  /-- bit 5, the last `WIN.MATCH` found a match -/
  winFound : Bool
  /-- bit 6, `FLT.CFG` has been done -/
  fltReady : Bool
  /-- bits 15:8, the code of the latched error -/
  errCode : BitVec 8
  /-- bits 23:16, `OP` of the word that set `ERR` -/
  errOp : BitVec 8
deriving DecidableEq, Repr

/-- An element of `CW` (R24): `len` bits whose numeric value is `code`; `(0, 0)` for a symbol with no code. -/
structure Codeword where
  code : BitVec 15
  len : BitVec 4
deriving DecidableEq, Repr, Inhabited

/-- The HUF state (R24). -/
structure HufState where
  /-- `FREQ[s]`, s = 0 to 287 -/
  freq : Memory (BitVec 32)
  /-- `HUF_TOTAL`, the number of entries of `SYMS` -/
  total : BitVec 9
  /-- `HUF_DEPTH`, the longest code length assigned -/
  depth : BitVec 4
  /-- `LCNT[l]`, l = 1 to 15 -/
  lcnt : Memory (BitVec 9)
  /-- `LBASE[l]`, l = 1 to 15 -/
  lbase : Memory (BitVec 9)
  /-- `SYMS[i]`, i = 0 to `HUF_TOTAL - 1` -/
  syms : Memory (BitVec 9)
  /-- `CW[s]`, s = 0 to 287 -/
  cw : Memory Codeword
deriving DecidableEq, Repr

/-- The WIN state (R25). -/
structure WinState where
  /-- `WIN_EXP` -/
  exp : BitVec 4
  /-- `WIN_N`, the count of registered bytes -/
  n : BitVec 64
  /-- `RING[i]`, i = 0 to W-1 -/
  ring : Memory Byte
  /-- `HEAD`, from the 24-bit key of three bytes to the most recent position; unlisted means none -/
  head : Memory (Option (BitVec 64))
  /-- `NEXT[i]`, i = 0 to W-1; unlisted means none -/
  next : Memory (Option (BitVec 64))
  /-- `LA[i]`, i = 0 to 257 -/
  la : Memory Byte
  /-- `LALEN`, the number of valid bytes of `LA` -/
  lalen : BitVec 9
deriving DecidableEq, Repr

/-- The FLT state (R26). -/
structure FltState where
  /-- `FLT_BPP` -/
  bpp : BitVec 7
  /-- `FLT_WIDTH` -/
  width : BitVec 32
  /-- `FLT_DELAY` -/
  delay : BitVec 4
  /-- `FLT_ROWLEN` -/
  rowlen : BitVec 17
  /-- `LINE[i]`, i = 0 to `FLT_ROWLEN`; `LINE[0]` is the tag -/
  line : Memory Byte
  /-- `PREV[i]`, i = 1 to `FLT_ROWLEN` -/
  prev : Memory Byte
  /-- `OUT[i]`, i = 0 to `FLT_ROWLEN`; `OUT[0]` is the tag -/
  out : Memory Byte
deriving DecidableEq, Repr

/-- The A7 state (R29). -/
structure A7State where
  /-- `A7_W` -/
  w : BitVec 32
  /-- `A7_H` -/
  h : BitVec 32
deriving DecidableEq, Repr

/-- One response (30_encoding.md R82). -/
structure Response where
  ok : Bool
  data : Word
deriving DecidableEq, Repr

/-- What the host does to the block: it sends a command word (R82), or it asserts and releases the hard reset input `rst` between two
commands (70_reset_and_hazards.md R290). -/
inductive HostInput where
  | command (w : Word)
  | hardReset
deriving DecidableEq, Repr

/-- The state: the tuple of R23, and the two ports. `inbox` and `outbox` are the model's own fields (Log 2, Log 3): the inputs the host has
still to give, next first, and the responses given so far, oldest first. -/
structure State where
  status : Status
  huf : HufState
  win : WinState
  flt : FltState
  a7 : A7State
  inbox : List HostInput
  outbox : List Response
deriving DecidableEq, Repr

/-- Why a step stops with a fault: never (Log 17). The spec's `exec` is total and nothing is stuck (70_reset_and_hazards.md R297); every error
of the block is a response and a next state (60_exceptions.md R266). No constructor, so no one raises it: safe. -/
inductive Fault
deriving DecidableEq, Repr

/-- Why a step is refused. -/
inductive Refusal where
  /-- Raised by `exec` for a command that has no meaning yet: safe, the model says nothing of it. No command of this model raises it. -/
  | notModelled (mnemonic : String)
deriving DecidableEq, Repr

/-- `STATUS` after reset: 0 (R31). -/
def Status.reset : Status :=
  { err := false, hufValid := false, hufLimited := false, hufDegen := false, winReady := false, winFound := false,
    fltReady := false, errCode := 0#8, errOp := 0#8 }

/-- HUF after reset: `FREQ` all 0 (R31). The outputs have no value there; 0 is DESIGN CHOICE (Log 5). -/
def HufState.reset : HufState :=
  { freq := [], total := 0#9, depth := 0#4, lcnt := [], lbase := [], syms := [], cw := [] }

/-- WIN after reset: no value (R31); 0, empty and none are DESIGN CHOICE (Log 6). -/
def WinState.reset : WinState :=
  { exp := 0#4, n := 0#64, ring := [], head := [], next := [], la := [], lalen := 0#9 }

/-- FLT after reset: no value (R31); 0 is DESIGN CHOICE (Log 7). -/
def FltState.reset : FltState :=
  { bpp := 0#7, width := 0#32, delay := 0#4, rowlen := 0#17, line := [], prev := [], out := [] }

/-- A7 after reset: an image of 0 by 0 (R31). -/
def A7State.reset : A7State := { w := 0#32, h := 0#32 }

/-- The machine right after reset (R31, 70_reset_and_hazards.md R290, R291), with no input waiting and no response given. -/
def State.reset : State :=
  { status := Status.reset, huf := HufState.reset, win := WinState.reset, flt := FltState.reset, a7 := A7State.reset,
    inbox := [], outbox := [] }

end Sys2Proof.Machine
end

