-- ==== Sys2Proof/Machine/Memory.lean ====
section
/-! DEFINITION. The two access primitives of the internal memories, `NAME[i]` and `NAME[i] <- v` (20_memory.md R61), their canonical form,
and the fill of a memory from a list. One definition serves all twelve memories of R60. -/

namespace Sys2Proof.Machine

/-- What an unlisted index reads as: 0 for numbers, `(0, 0)` for a codeword, `none` for an optional position. These are the values that reset
and the initialising commands write (10_state.md R31; 42_window.md R161; 43_filter.md R206); for items without a reset value it is
DESIGN CHOICE (Log 8). -/
def Memory.unlisted (α : Type) [Inhabited α] : α := default

/-- `NAME[i]`: the element at index `i`. -/
def Memory.read {α : Type} [Inhabited α] (m : Memory α) (i : Nat) : α :=
  match m with
  | [] => Memory.unlisted α
  | e :: m' => if e.1 = i then e.2 else Memory.read m' i

/-- The memory with no entry for index `i`. -/
def Memory.erase {α : Type} (m : Memory α) (i : Nat) : Memory α := m.filter fun e => decide (e.1 ≠ i)

/-- The entry `(i, v)` put before the first entry of a larger index. -/
def Memory.insert {α : Type} (m : Memory α) (i : Nat) (v : α) : Memory α :=
  match m with
  | [] => [(i, v)]
  | e :: m' => if i < e.1 then (i, v) :: e :: m' else e :: Memory.insert m' i v

/-- `NAME[i] <- v`: that one element is replaced and nothing else changes (R61); the canonical form is kept. -/
def Memory.write {α : Type} [Inhabited α] [DecidableEq α] (m : Memory α) (i : Nat) (v : α) : Memory α :=
  if v = Memory.unlisted α then m.erase i else (m.erase i).insert i v

/-- The canonical form: indices strictly rising, no entry equal to what an unlisted index reads as. -/
def Memory.wf {α : Type} [Inhabited α] [DecidableEq α] : Memory α → Bool
  | [] => true
  | e :: m => decide (e.2 ≠ Memory.unlisted α) && m.all (fun x => decide (e.1 < x.1)) && Memory.wf m

/-- Every listed index lies in `lo .. hi` (the index ranges of R60). -/
def Memory.within {α : Type} (lo hi : Nat) (m : Memory α) : Bool := m.all fun e => decide (lo ≤ e.1) && decide (e.1 ≤ hi)

/-- The memory that holds the elements of a list at the indices `i, i+1, ...`. -/
def Memory.ofList {α : Type} [Inhabited α] [DecidableEq α] (i : Nat) : List α → Memory α
  | [] => []
  | v :: vs => if v = Memory.unlisted α then Memory.ofList (i + 1) vs else (i, v) :: Memory.ofList (i + 1) vs

end Sys2Proof.Machine
end

