-- ==== Sys2Proof/Machine/Flags.lean ====
section
/-! DEFINITION. The status register (10_state.md R27, R28): its layout, the error codes (60_exceptions.md R261), and every write of its flags. -/

namespace Sys2Proof.Machine

/-- The five errors (60_exceptions.md R261). -/
inductive ErrorCode where
  | eOpcode
  | eReserved
  | eState
  | eRange
  | eFull
deriving DecidableEq, Repr

/-- The code of an error in `STATUS.ERRCODE` (R261); 0 means no error. -/
def errorNumber : ErrorCode → BitVec 8
  | .eOpcode => 1#8
  | .eReserved => 2#8
  | .eState => 3#8
  | .eRange => 4#8
  | .eFull => 5#8

/-- The error that a word which is no command raises (60_exceptions.md R262, steps 2 and 3). -/
def decodeErrorCode : DecodeError → ErrorCode
  | .illegalOpcode => .eOpcode
  | .reservedField => .eReserved

/-- A one-bit field at bit `pos`. -/
def flagBit (b : Bool) (pos : Nat) : Word := (BitVec.ofBool b).setWidth 64 <<< pos

/-- The 64 bits of `STATUS` (10_state.md R27); bit 7 and bits 63:24 read 0. -/
def Status.word (st : Status) : Word :=
  flagBit st.err 0 ||| flagBit st.hufValid 1 ||| flagBit st.hufLimited 2 ||| flagBit st.hufDegen 3 |||
    flagBit st.winReady 4 ||| flagBit st.winFound 5 ||| flagBit st.fltReady 6 |||
    (st.errCode.setWidth 64 <<< 8) ||| (st.errOp.setWidth 64 <<< 16)

/-- The latch of an error (60_exceptions.md R266): `ERR`, `ERRCODE` and `ERROP` are written and nothing else. -/
def Status.latch (st : Status) (op : BitVec 8) (e : ErrorCode) : Status :=
  { st with err := true, errCode := errorNumber e, errOp := op }

/-- `HUF.CLR` and `HUF.WRF` clear the three HUF flags (41_huffman.md R121, R122). -/
def Status.hufCleared (st : Status) : Status := { st with hufValid := false, hufLimited := false, hufDegen := false }

/-- `HUF.BUILD` sets `HUF_VALID` and writes the other two (41_huffman.md R133). -/
def Status.hufBuilt (st : Status) (limited degen : Bool) : Status :=
  { st with hufValid := true, hufLimited := limited, hufDegen := degen }

/-- `WIN.INIT` sets `WIN_READY` and clears `WIN_FOUND` (42_window.md R161). -/
def Status.winOpened (st : Status) : Status := { st with winReady := true, winFound := false }

/-- `WIN.MATCH` writes `WIN_FOUND` (42_window.md R172). -/
def Status.winMatched (st : Status) (found : Bool) : Status := { st with winFound := found }

/-- `FLT.CFG` sets `FLT_READY` (43_filter.md R206). -/
def Status.fltConfigured (st : Status) : Status := { st with fltReady := true }

end Sys2Proof.Machine
end

