-- ==== Sys2Proof/Machine/Operands.lean ====
section
/-! DEFINITION. The operands of a command: their ranges (30_encoding.md R83 and the commands' own rules), the bytes they carry, the packed
operand of `FLT.PAETH` (43_filter.md R221), and the packing of a response (30_encoding.md R82, 92_eei_decisions.md D38). -/

namespace Sys2Proof.Machine

/-- `A >= 288`: no symbol (41_huffman.md R122, R134, R135). -/
def notSymbol (a : FieldA) : Bool := decide (Config.hufNsym ≤ a.toNat)

/-- `A < 1 or A > 15`: no level (41_huffman.md R137). -/
def notLevel (a : FieldA) : Bool := decide (a.toNat < 1) || decide (Config.hufMaxLen < a.toNat)

/-- `A < 8 or A > 15`: no window exponent (42_window.md R161). -/
def notExponent (a : FieldA) : Bool := decide (a.toNat < Config.winExpMin) || decide (Config.winExpMax < a.toNat)

/-- `A > 255`: no byte (42_window.md R166, R171; 43_filter.md R207, R209). -/
def notByte (a : FieldA) : Bool := decide (255 < a.toNat)

/-- `A > 4`: no filter type (43_filter.md R216). -/
def notFilterType (a : FieldA) : Bool := decide (4 < a.toNat)

/-- `A > 6`: no pass (44_adam7.md R247, R248). -/
def notPass (a : FieldA) : Bool := decide (6 < a.toNat)

/-- `A < 1 or A > 64`: no pixel size (43_filter.md R206). -/
def notPixelSize (a : FieldA) : Bool := decide (a.toNat < 1) || decide (Config.fltBppMax < a.toNat)

/-- `B >= 2^24`: no packed operand of `FLT.PAETH` (43_filter.md R221). -/
def notPacked (b : FieldB) : Bool := decide (2 ^ 24 ≤ b.toNat)

/-- The byte an operand `A` carries. -/
def byteOf (a : FieldA) : Byte := a.setWidth 8

/-- `a = B[7:0]`, the left neighbour (43_filter.md R221). -/
def packedLeft (b : FieldB) : Byte := b.extractLsb' 0 8

/-- `b = B[15:8]`, the byte above (43_filter.md R221). -/
def packedAbove (b : FieldB) : Byte := b.extractLsb' 8 8

/-- `c = B[23:16]`, the byte above-left (43_filter.md R221). -/
def packedAboveLeft (b : FieldB) : Byte := b.extractLsb' 16 8

/-- A field of a response: the number `v` with its bit 0 at bit `lo`. -/
def respField {w : Nat} (v : BitVec w) (lo : Nat) : Word := v.setWidth 64 <<< lo

end Sys2Proof.Machine
end

