-- ==== Sys2Proof/Machine/Ops.lean ====
section
/-! DEFINITION. The operations every command shares: taking the next host input, giving a response (30_encoding.md R82), raising an error
and being locked (60_exceptions.md R262, R263, R266), and returning from an error, which is reset (R267; 70_reset_and_hazards.md R291). -/

namespace Sys2Proof.Machine

/-- The state with other flags. -/
def State.withStatus (s : State) (st : Status) : State := { s with status := st }

/-- The state with other HUF state. -/
def State.withHuf (s : State) (h : HufState) : State := { s with huf := h }

/-- The state with other WIN state. -/
def State.withWin (s : State) (w : WinState) : State := { s with win := w }

/-- The state with other FLT state. -/
def State.withFlt (s : State) (f : FltState) : State := { s with flt := f }

/-- The state with other A7 state. -/
def State.withA7 (s : State) (a : A7State) : State := { s with a7 := a }

/-- One response more: `(ok, data)` (30_encoding.md R82). -/
def State.answer (s : State) (ok : Bool) (data : Word) : State := { s with outbox := s.outbox ++ [⟨ok, data⟩] }

/-- Error entry, `raise E_X` in a command whose opcode byte is `op` (60_exceptions.md R266): the latch is written, the response is `(0, 0)`,
nothing else changes. -/
def State.raise (s : State) (op : BitVec 8) (e : ErrorCode) : State :=
  (s.withStatus (s.status.latch op e)).answer false 0#64

/-- A word refused by the locked block (60_exceptions.md R263): the response is `(0, 0)` and no state changes. -/
def State.lockedOut (s : State) : State := s.answer false 0#64

/-- Reset, hard or soft (70_reset_and_hazards.md R291): every item of state takes its reset value. The ports are the host's side: the inputs still
to come and the responses already given stay (Log 3). -/
def State.toReset (s : State) : State := { State.reset with inbox := s.inbox, outbox := s.outbox }

/-- The level output `err`, equal to `STATUS.ERR` at all times (60_exceptions.md R269). -/
def State.errOutput (s : State) : Bool := s.status.err

/-- The first check of a list that fails, in the order given; a command lists its checks in the order of 60_exceptions.md R262. -/
def firstError : List (Bool × ErrorCode) → Option ErrorCode
  | [] => none
  | c :: cs => if c.1 then some c.2 else firstError cs

/-- A command of the opcode `op` (60_exceptions.md R262): refused while the block is locked (step 1); else the first failing check raises its
error (steps 4 to 6); else the state becomes `t` and the response is `(1, data)` (step 7). -/
def runCommand (op : BitVec 8) (checks : List (Bool × ErrorCode)) (s t : State) (data : Word) :
    Host.Outcome State Fault Refusal :=
  if s.status.err then .next s.lockedOut
  else match firstError checks with
    | some e => .next (s.raise op e)
    | none => .next (t.answer true data)

/-- A command that executes whether or not the block is locked: `NOP`, `RESET`, `RDSTAT` (60_exceptions.md R263). -/
def runAlways (t : State) (data : Word) : Host.Outcome State Fault Refusal := .next (t.answer true data)

/-- A word that is no command (60_exceptions.md R262, steps 1 to 3): refused while the block is locked, else it raises `E_OPCODE` or
`E_RESERVED` with the word's own bits 63:56. -/
def rejectWord (w : Word) (why : DecodeError) (s : State) : Host.Outcome State Fault Refusal :=
  if s.status.err then .next s.lockedOut else .next (s.raise (opField w) (decodeErrorCode why))

/-- The next input of the host and the state with it taken; none when no input is waiting. -/
def fetch (s : State) : Option (HostInput × State) :=
  match s.inbox with
  | [] => none
  | x :: rest => some (x, { s with inbox := rest })

/-- With no input waiting the block is quiescent: its state changes no further (70_reset_and_hazards.md R297). DEDUCED (Log 1). -/
def idle (s : State) : Host.Outcome State Fault Refusal := .next s

/-- The hard reset input, asserted and released between two commands (70_reset_and_hazards.md R290): reset, and no response. (Log 4) -/
def hardReset (s : State) : Host.Outcome State Fault Refusal := .next s.toReset

/-- The state with an input put before all that wait: what `withFetchWord` uses. -/
def State.withInput (s : State) (x : HostInput) : State := { s with inbox := x :: s.inbox }

end Sys2Proof.Machine
end

