-- ==== Sys2Proof/Machine/Adam7.lean ====
section
/-! DEFINITION. A7 (44_adam7.md): the pattern of the seven passes, the sub-image size, and the four commands. -/

namespace Sys2Proof.Machine

/-- The pattern entry of one pass (R241): base offsets and exponents, x the column and y the row. -/
structure A7Pass where
  bx : Nat
  byy : Nat
  ex : Nat
  ey : Nat
deriving DecidableEq, Repr

/-- The pattern table (R241), a constant of the hardware; an entry of zeros for a pass that does not exist (A is checked first, R247). -/
def a7Pattern : Nat → A7Pass
  | 0 => { bx := 0, byy := 0, ex := 3, ey := 3 }
  | 1 => { bx := 4, byy := 0, ex := 3, ey := 3 }
  | 2 => { bx := 0, byy := 4, ex := 2, ey := 3 }
  | 3 => { bx := 2, byy := 0, ex := 2, ey := 2 }
  | 4 => { bx := 0, byy := 2, ex := 1, ey := 2 }
  | 5 => { bx := 1, byy := 0, ex := 1, ey := 1 }
  | 6 => { bx := 0, byy := 1, ex := 0, ey := 1 }
  | _ => { bx := 0, byy := 0, ex := 0, ey := 0 }

/-- `sub(full, base, e)` (R243), computed without wrapping. -/
def a7Sub (full base e : Nat) : Nat := if full ≤ base then 0 else (full - base + 2 ^ e - 1) / 2 ^ e

/-- The width of the sub-image of pass `k` (R243). -/
def a7SubWidth (width k : Nat) : Nat := a7Sub width (a7Pattern k).bx (a7Pattern k).ex

/-- The height of the sub-image of pass `k` (R243). -/
def a7SubHeight (height k : Nat) : Nat := a7Sub height (a7Pattern k).byy (a7Pattern k).ey

/-- The column of pixel `(i, j)` of pass `k` in the full image (R244). -/
def a7Column (k i : Nat) : Nat := (a7Pattern k).bx + i * 2 ^ (a7Pattern k).ex

/-- The row of pixel `(i, j)` of pass `k` in the full image (R244). -/
def a7Row (k j : Nat) : Nat := (a7Pattern k).byy + j * 2 ^ (a7Pattern k).ey

/-- `A7.SETW width` (R245). -/
def execA7Setw (width : FieldB) (s : State) : Host.Outcome State Fault Refusal :=
  runCommand Opcode.a7Setw [] s (s.withA7 { s.a7 with w := width }) 0#64

/-- `A7.SETH height` (R246). -/
def execA7Seth (height : FieldB) (s : State) : Host.Outcome State Fault Refusal :=
  runCommand Opcode.a7Seth [] s (s.withA7 { s.a7 with h := height }) 0#64

/-- `A7.DESC pass` (R247): `data[7:0]` = bx, `data[15:8]` = by, `data[23:16]` = ex, `data[31:24]` = ey. -/
def execA7Desc (pass : FieldA) (s : State) : Host.Outcome State Fault Refusal :=
  let e := a7Pattern pass.toNat
  runCommand Opcode.a7Desc [(notPass pass, .eRange)] s s
    (respField (BitVec.ofNat 8 e.bx) 0 ||| respField (BitVec.ofNat 8 e.byy) 8 |||
      respField (BitVec.ofNat 8 e.ex) 16 ||| respField (BitVec.ofNat 8 e.ey) 24)

/-- `A7.SIZE pass` (R248): `data[31:0]` = the width of the sub-image, `data[63:32]` = its height. -/
def execA7Size (pass : FieldA) (s : State) : Host.Outcome State Fault Refusal :=
  runCommand Opcode.a7Size [(notPass pass, .eRange)] s s
    (respField (BitVec.ofNat 32 (a7SubWidth s.a7.w.toNat pass.toNat)) 0 |||
      respField (BitVec.ofNat 32 (a7SubHeight s.a7.h.toNat pass.toNat)) 32)

end Sys2Proof.Machine
end

