-- ==== Sys2Proof/Machine/Filter.lean ====
section
/-! DEFINITION. FLT (43_filter.md): neighbours and prediction, the row functions, and the twelve commands. -/

namespace Sys2Proof.Machine

/-! Geometry and prediction (R201 to R205). -/

/-- `DELAY = ceil(bpp / 8)` (R201). -/
abbrev fltDelayOf (bpp : Nat) : Nat := (bpp + 7) / 8

/-- `ROWLEN = ceil(width * bpp / 8)` (R201), computed without wrapping. -/
abbrev fltRowlenOf (width bpp : Nat) : Nat := (width * bpp + 7) / 8

/-- The Paeth predictor (R203), over the integers. -/
def paeth (a b c : Byte) : Byte :=
  let p : Int := (a.toNat : Int) + b.toNat - c.toNat
  let pa := (p - a.toNat).natAbs
  let pb := (p - b.toNat).natAbs
  let pc := (p - c.toNat).natAbs
  if pa ≤ pb ∧ pa ≤ pc then a else if pb ≤ pc then b else c

/-- The predictor of filter type `t` (R204); the average takes the sum in 9 bits; a type above 4 predicts 0. -/
def fltPredict (t : Nat) (a b c : Byte) : Byte :=
  match t with
  | 1 => a
  | 2 => b
  | 3 => BitVec.ofNat 8 ((a.toNat + b.toNat) / 2)
  | 4 => paeth a b c
  | _ => 0#8

/-- The data byte `delay` positions before index `i` of a row, 0 left of the first pixel (R202). -/
def fltBack (row : Memory Byte) (delay i : Nat) : Byte := if delay + 1 ≤ i then row.read (i - delay) else 0#8

/-- The prediction of data byte `i` of the row `cur` from its three neighbours (R202, R204). -/
def fltPredictAt (t delay : Nat) (cur prev : Memory Byte) (i : Nat) : Byte :=
  fltPredict t (fltBack cur delay i) (prev.read i) (fltBack prev delay i)

/-! The row functions (R211 to R214). A row has `rl` data bytes. -/

/-- The loop of R211 from index `i` on, `k` bytes: in place and in increasing order. -/
def fltDefilterFrom (t delay : Nat) (prev : Memory Byte) : Nat → Nat → Memory Byte → Memory Byte
  | 0, _, line => line
  | k + 1, i, line =>
    fltDefilterFrom t delay prev k (i + 1) (line.write i (line.read i + fltPredictAt t delay line prev i))

/-- `defilter(LINE, PREV)` (R211): a tag above 4 leaves the row as it is. Addition of bytes is mod 256 (R205). -/
def fltDefilter (delay rl : Nat) (line prev : Memory Byte) : Memory Byte :=
  if 4 < (line.read 0).toNat then line else fltDefilterFrom (line.read 0).toNat delay prev rl 1 line

/-- The loop of R212 from index `i` on, `k` bytes; the left neighbour is taken from the raw row. -/
def fltFiltFrom (t delay : Nat) (line prev : Memory Byte) : Nat → Nat → Memory Byte → Memory Byte
  | 0, _, o => o
  | k + 1, i, o =>
    fltFiltFrom t delay line prev k (i + 1) (o.write i (line.read i - fltPredictAt t delay line prev i))

/-- `filt(t, LINE, PREV)` (R212): a new row with tag `t`. Every index 0 to `rl` is written (Log 15). -/
def fltFilt (t delay rl : Nat) (line prev : Memory Byte) : Memory Byte :=
  fltFiltFrom t delay line prev rl 1 (Memory.write [] 0 (BitVec.ofNat 8 t))

/-- `score(o)` (R213): the number of `i` with `2 <= i <= ROWLEN` and `o[i] != o[i-1]`. -/
def fltScore (rl : Nat) (o : Memory Byte) : Nat :=
  ((List.range (rl - 1)).filter fun j => decide (o.read (j + 2) ≠ o.read (j + 1))).length

/-- A candidate row of R214. -/
structure FltCandidate where
  type : Nat
  score : Nat
  row : Memory Byte
deriving DecidableEq, Repr

/-- The candidate of one filter type (R214). -/
def fltCandidate (t delay rl : Nat) (line prev : Memory Byte) : FltCandidate :=
  let o := fltFilt t delay rl line prev
  { type := t, score := fltScore rl o, row := o }

/-- The better of the best so far and the next candidate: the next only when its score is smaller (R214). -/
def fltBetter (best c : FltCandidate) : FltCandidate := if c.score < best.score then c else best

/-- `auto(LINE, PREV)` (R214): the types 0 to 4 in this order. -/
def fltSelect (delay rl : Nat) (line prev : Memory Byte) : FltCandidate :=
  fltBetter (fltBetter (fltBetter (fltBetter (fltCandidate 0 delay rl line prev) (fltCandidate 1 delay rl line prev))
    (fltCandidate 2 delay rl line prev)) (fltCandidate 3 delay rl line prev)) (fltCandidate 4 delay rl line prev)

/-- `for i = 1 .. rl: PREV[i] <- LINE[i]` (R219), from index `i` on, `k` bytes. -/
def fltCopyFrom (line : Memory Byte) : Nat → Nat → Memory Byte → Memory Byte
  | 0, _, prev => prev
  | k + 1, i, prev => fltCopyFrom line k (i + 1) (prev.write i (line.read i))

/-- `for i = 1 .. rl: PREV[i] <- 0` (R220), from index `i` on, `k` bytes. -/
def fltZeroFrom : Nat → Nat → Memory Byte → Memory Byte
  | 0, _, prev => prev
  | k + 1, i, prev => fltZeroFrom k (i + 1) (prev.write i 0#8)

/-! The commands. -/

/-- `FLT_ROWLEN` as a number. -/
abbrev FltState.rl (f : FltState) : Nat := f.rowlen.toNat

/-- `FLT_DELAY` as a number. -/
abbrev FltState.dl (f : FltState) : Nat := f.delay.toNat

/-- The FLT state `FLT.CFG` leaves (R206): the four registers written, every byte of the three rows 0. -/
def fltConfig (bpp : FieldA) (width : FieldB) : FltState :=
  { bpp := bpp.setWidth 7
    width := width
    delay := BitVec.ofNat 4 (fltDelayOf bpp.toNat)
    rowlen := BitVec.ofNat 17 (fltRowlenOf width.toNat bpp.toNat)
    line := []
    prev := []
    out := [] }

/-- `FLT.CFG bpp, width` (R206): `data[31:0]` = the row length, `data[35:32]` = the delay. -/
def execFltCfg (bpp : FieldA) (width : FieldB) (s : State) : Host.Outcome State Fault Refusal :=
  let f := fltConfig bpp width
  runCommand Opcode.fltCfg
    [(notPixelSize bpp, .eRange), (decide (Config.fltRowMax < fltRowlenOf width.toNat bpp.toNat), .eRange)] s
    ((s.withFlt f).withStatus s.status.fltConfigured) (respField f.rowlen 0 ||| respField f.delay 32)

/-- `FLT.WRL byte, idx` (R207). -/
def execFltWrl (byte : FieldA) (idx : FieldB) (s : State) : Host.Outcome State Fault Refusal :=
  runCommand Opcode.fltWrl
    [(!s.status.fltReady, .eState), (decide (s.flt.rl < idx.toNat) || notByte byte, .eRange)] s
    (s.withFlt { s.flt with line := s.flt.line.write idx.toNat (byteOf byte) }) 0#64

/-- `FLT.RDL idx` (R208). -/
def execFltRdl (idx : FieldB) (s : State) : Host.Outcome State Fault Refusal :=
  runCommand Opcode.fltRdl [(!s.status.fltReady, .eState), (decide (s.flt.rl < idx.toNat), .eRange)] s s
    (respField (s.flt.line.read idx.toNat) 0)

/-- `FLT.WRP byte, idx` (R209). -/
def execFltWrp (byte : FieldA) (idx : FieldB) (s : State) : Host.Outcome State Fault Refusal :=
  runCommand Opcode.fltWrp
    [(!s.status.fltReady, .eState), (decide (idx.toNat < 1) || decide (s.flt.rl < idx.toNat) || notByte byte, .eRange)] s
    (s.withFlt { s.flt with prev := s.flt.prev.write idx.toNat (byteOf byte) }) 0#64

/-- `FLT.RDP idx` (R210). -/
def execFltRdp (idx : FieldB) (s : State) : Host.Outcome State Fault Refusal :=
  runCommand Opcode.fltRdp
    [(!s.status.fltReady, .eState), (decide (idx.toNat < 1) || decide (s.flt.rl < idx.toNat), .eRange)] s s
    (respField (s.flt.prev.read idx.toNat) 0)

/-- `FLT.RDO idx` (R218). -/
def execFltRdo (idx : FieldB) (s : State) : Host.Outcome State Fault Refusal :=
  runCommand Opcode.fltRdo [(!s.status.fltReady, .eState), (decide (s.flt.rl < idx.toNat), .eRange)] s s
    (respField (s.flt.out.read idx.toNat) 0)

/-- `FLT.DEFILT` (R215): the response is the tag. -/
def execFltDefilt (s : State) : Host.Outcome State Fault Refusal :=
  let line := fltDefilter s.flt.dl s.flt.rl s.flt.line s.flt.prev
  runCommand Opcode.fltDefilt [(!s.status.fltReady, .eState)] s
    (s.withFlt { s.flt with line := line }) (respField (line.read 0) 0)

/-- `FLT.FILT type` (R216): the response is the score, `data[15:0]`. -/
def execFltFilt (type : FieldA) (s : State) : Host.Outcome State Fault Refusal :=
  let o := fltFilt type.toNat s.flt.dl s.flt.rl s.flt.line s.flt.prev
  runCommand Opcode.fltFilt [(!s.status.fltReady, .eState), (notFilterType type, .eRange)] s
    (s.withFlt { s.flt with out := o }) (respField (BitVec.ofNat 16 (fltScore s.flt.rl o)) 0)

/-- `FLT.AUTO` (R217): `data[2:0]` = the type, `data[47:32]` = the score. -/
def execFltAuto (s : State) : Host.Outcome State Fault Refusal :=
  let best := fltSelect s.flt.dl s.flt.rl s.flt.line s.flt.prev
  runCommand Opcode.fltAuto [(!s.status.fltReady, .eState)] s
    (s.withFlt { s.flt with out := best.row })
    (respField (BitVec.ofNat 3 best.type) 0 ||| respField (BitVec.ofNat 16 best.score) 32)

/-- `FLT.NEXT` (R219). -/
def execFltNext (s : State) : Host.Outcome State Fault Refusal :=
  runCommand Opcode.fltNext [(!s.status.fltReady, .eState)] s
    (s.withFlt { s.flt with prev := fltCopyFrom s.flt.line s.flt.rl 1 s.flt.prev }) 0#64

/-- `FLT.ZPREV` (R220). -/
def execFltZprev (s : State) : Host.Outcome State Fault Refusal :=
  runCommand Opcode.fltZprev [(!s.status.fltReady, .eState)] s
    (s.withFlt { s.flt with prev := fltZeroFrom s.flt.rl 1 s.flt.prev }) 0#64

/-- `FLT.PAETH packed` (R221): it needs no configuration and touches no FLT state. -/
def execFltPaeth (packed : FieldB) (s : State) : Host.Outcome State Fault Refusal :=
  runCommand Opcode.fltPaeth [(notPacked packed, .eRange)] s s
    (respField (paeth (packedLeft packed) (packedAbove packed) (packedAboveLeft packed)) 0)

end Sys2Proof.Machine
end

