-- ==== Sys2Proof/Machine/Huffman.lean ====
section
/-! DEFINITION. HUF (41_huffman.md): the function `HufBuild` (R123 to R132) and the seven commands. The numbers of symbols and of levels and
the order inside a level are arguments (00_scope.md R6); this hardware's values are those of Config.lean. All arithmetic is over the
natural numbers (R139). The queue and the sorted list live inside the one command (10_state.md R30, Log 20). -/

namespace Sys2Proof.Machine

/-! Live symbols and their order. -/

/-- `live` with the frequencies (R124): the pairs (symbol, frequency) of the symbols of non-zero frequency, in ascending order of the symbol. -/
def hufLive (nsym : Nat) (freq : Memory (BitVec 32)) : List (Nat × Nat) :=
  ((List.range nsym).map fun s => (s, (freq.read s).toNat)).filter fun e => decide (0 < e.2)

/-- `sorted` (R125): descending frequency, stable. -/
def hufSort (live : List (Nat × Nat)) : List (Nat × Nat) := live.insertionSort fun x y => y.2 ≤ x.2

/-! The priority queue and the tree (R126, R127). -/

/-- A node `(weight, serial, vec)` (R126); `vec` counts the leaves at each depth, root first (R127). -/
structure HufNode where
  weight : Nat
  serial : Nat
  vec : List Nat
deriving DecidableEq, Repr

/-- `x` leaves the queue before `y`: smaller weight, or equal weight and smaller serial (R126). -/
def hufBefore (x y : HufNode) : Bool :=
  decide (x.weight < y.weight) || (decide (x.weight = y.weight) && decide (x.serial < y.serial))

/-- `remove-min` on the queue that holds `x` and `q`: the node that leaves, and the nodes that stay (R126). -/
def hufRemoveMin (x : HufNode) : List HufNode → HufNode × List HufNode
  | [] => (x, [])
  | y :: q =>
    if hufBefore y x then
      let r := hufRemoveMin y q
      (r.1, x :: r.2)
    else
      let r := hufRemoveMin x q
      (r.1, y :: r.2)

/-- The position-wise sum of two vectors, the shorter one continued with 0 (R127). -/
def hufAddVec : List Nat → List Nat → List Nat
  | [], v => v
  | u, [] => u
  | a :: u, b :: v => (a + b) :: hufAddVec u v

/-- The node that combines two nodes: its weight is their sum, its vector has a new root level (R127). -/
def hufCombine (x y : HufNode) (serial : Nat) : HufNode :=
  { weight := x.weight + y.weight, serial := serial, vec := 0 :: hufAddVec x.vec y.vec }

/-- One pass of the loop of R127: two `remove-min`, one insert; a queue of fewer than two nodes is left as it is. -/
def hufMergeStep (serial : Nat) : List HufNode → List HufNode
  | [] => []
  | x :: q =>
    let first := hufRemoveMin x q
    match first.2 with
    | [] => x :: q
    | z :: q' =>
      let second := hufRemoveMin z q'
      hufCombine first.1 second.1 serial :: second.2

/-- `k` passes of the loop of R127, the serials counting up. -/
def hufMergeLoop : Nat → Nat → List HufNode → List HufNode
  | 0, _, q => q
  | k + 1, serial, q => hufMergeLoop k (serial + 1) (hufMergeStep serial q)

/-- The leaves of R127: weight, serial in sorted order, and the vector `[1]`. -/
def hufLeaves (sorted : List (Nat × Nat)) : List HufNode :=
  sorted.zipIdx.map fun e => { weight := e.1.2, serial := e.2, vec := [1] }

/-- `T.vec` (R127): the loop runs `m - 1` times, the combined nodes have the serials `m, m+1, ...`. -/
def hufTreeVec (sorted : List (Nat × Nat)) : List Nat :=
  match hufMergeLoop (sorted.length - 1) sorted.length (hufLeaves sorted) with
  | [] => []
  | t :: _ => t.vec

/-! Height limiting (R129). `cnt` is indexed by depth, `cnt[0] = 0`. -/

/-- `cnt[d]`. -/
def hufCount (cnt : List Nat) (d : Nat) : Nat := cnt.getD d 0

/-- The deepest level `1 .. b` that holds a leaf: `while cnt[b] == 0: b <- b - 1` (R129); 0 where there is none, which R129 rules out. -/
def hufDeepest (cnt : List Nat) : Nat → Nat
  | 0 => 0
  | b + 1 => if hufCount cnt (b + 1) = 0 then hufDeepest cnt b else b + 1

/-- `while D > L and cnt[D] == 0: D <- D - 1` (R129). -/
def hufTrim (maxLen : Nat) (cnt : List Nat) : Nat → Nat
  | 0 => 0
  | d + 1 => if maxLen < d + 1 ∧ hufCount cnt (d + 1) = 0 then hufTrim maxLen cnt d else d + 1

/-- `cnt[d] <- cnt[d] + k`. -/
def hufCountAdd (cnt : List Nat) (d k : Nat) : List Nat := cnt.set d (hufCount cnt d + k)

/-- `cnt[d] <- cnt[d] - k`. -/
def hufCountSub (cnt : List Nat) (d k : Nat) : List Nat := cnt.set d (hufCount cnt d - k)

/-- The first half of an iteration of R129: pull a pair from the deepest level `d`, promote one of the pair. -/
def hufPromote (d : Nat) (cnt : List Nat) : List Nat := hufCountAdd (hufCountSub cnt d 2) (d - 1) 1

/-- The second half of an iteration of R129: split a leaf of level `b` to reinsert the other leaf. -/
def hufReinsert (b : Nat) (cnt : List Nat) : List Nat := hufCountAdd (hufCountSub cnt b 1) (b + 1) 2

/-- One iteration of the loop of R129 on the counts. -/
def hufLimitStep (maxLen d : Nat) (cnt : List Nat) : List Nat :=
  let promoted := hufPromote d cnt
  hufReinsert (hufDeepest promoted (maxLen - 1)) promoted

/-- The loop of R129, `while D > L`. An iteration lowers the number of leaves deeper than `L`, so as many iterations as there are leaves
are enough (Log 11). -/
def hufLimitLoop (maxLen : Nat) : Nat → Nat → List Nat → List Nat
  | 0, _, cnt => cnt
  | k + 1, d, cnt =>
    if maxLen < d then
      let cnt' := hufLimitStep maxLen d cnt
      hufLimitLoop maxLen k (hufTrim maxLen cnt' d) cnt'
    else cnt

/-- The counts of the levels `1 .. L` from `T.vec` (R128, R129). A level deeper than the vector holds no leaf. -/
def hufLevelCounts (maxLen : Nat) (vec : List Nat) : List Nat :=
  let cnt := hufLimitLoop maxLen vec.sum (vec.length - 1) vec
  (List.range maxLen).map fun l => hufCount cnt (l + 1)

/-! Levels and codes (R130, R131). -/

/-- The list cut into levels of the given sizes (R130). -/
def hufCut : List Nat → List Nat → List (List Nat)
  | [], _ => []
  | c :: cs, syms => syms.take c :: hufCut cs (syms.drop c)

/-- The order inside one level (R130, parameter `HUF_LEVEL_ORDER`). -/
def hufOrderLevel : Config.LevelOrder → List Nat → List Nat
  | .symbol, level => level.insertionSort fun x y => x ≤ y
  | .freqDesc, level => level
  | .freqAsc, level => level.reverse

/-- The canonical assignment (R131) from level `l` and code `code` on: triples (symbol, code, length). -/
def hufAssign : Nat → Nat → List (List Nat) → List (Nat × Nat × Nat)
  | _, _, [] => []
  | l, code, level :: rest =>
    (level.zipIdx code).map (fun e => (e.1, e.2, l)) ++ hufAssign (l + 1) ((code + level.length) * 2) rest

/-- The bases of the levels: `LBASE[1] = 0`, `LBASE[l+1] = LBASE[l] + LCNT[l]` (R130). -/
def hufBases : Nat → List Nat → List Nat
  | _, [] => []
  | base, c :: cs => base :: hufBases (base + c) cs

/-- The levels `1 .. L` with `limited` and `degen`. -/
structure HufLevels where
  levels : List (List Nat)
  limited : Bool
  degen : Bool
deriving DecidableEq, Repr

/-- The two entries of the degenerate table (R123): symbols 0 and 1 with no live symbol; the live symbol and the filler in ascending order
with one. -/
def hufDegenEntries : List (Nat × Nat) → List Nat
  | [] => [0, 1]
  | e :: _ => if e.1 = 0 then [0, 1] else [0, e.1]

/-- The levels of the table (R123 to R130). -/
def hufLevels (nsym maxLen : Nat) (order : Config.LevelOrder) (freq : Memory (BitVec 32)) : HufLevels :=
  let live := hufLive nsym freq
  if live.length ≤ 1 then
    { levels := hufDegenEntries live :: List.replicate (maxLen - 1) [], limited := false, degen := true }
  else
    let sorted := hufSort live
    let vec := hufTreeVec sorted
    { levels := (hufCut (hufLevelCounts maxLen vec) (sorted.map fun e => e.1)).map (hufOrderLevel order)
      limited := decide (maxLen < vec.length - 1)
      degen := false }

/-- `CW` from the assigned triples (R131): every symbol starts at `(0, 0)`. -/
def hufCodewords (assigned : List (Nat × Nat × Nat)) : Memory Codeword :=
  assigned.foldl (fun cw e => cw.write e.1 { code := BitVec.ofNat 15 e.2.1, len := BitVec.ofNat 4 e.2.2 }) []

/-- The result of `HufBuild`: the outputs of 10_state.md R24 and the two flags. -/
structure HufTable where
  total : BitVec 9
  depth : BitVec 4
  lcnt : Memory (BitVec 9)
  lbase : Memory (BitVec 9)
  syms : Memory (BitVec 9)
  cw : Memory Codeword
  limited : Bool
  degen : Bool
deriving DecidableEq, Repr

/-- The outputs from the levels (R130 to R132). -/
def hufOutputs (t : HufLevels) : HufTable :=
  { total := BitVec.ofNat 9 t.levels.flatten.length
    depth := BitVec.ofNat 4 (hufDeepest (0 :: t.levels.map List.length) t.levels.length)
    lcnt := Memory.ofList 1 (t.levels.map fun level => BitVec.ofNat 9 level.length)
    lbase := Memory.ofList 1 ((hufBases 0 (t.levels.map List.length)).map fun b => BitVec.ofNat 9 b)
    syms := Memory.ofList 0 (t.levels.flatten.map fun s => BitVec.ofNat 9 s)
    cw := hufCodewords (hufAssign 1 0 t.levels)
    limited := t.limited
    degen := t.degen }

/-- `HufBuild` with the parameters of 00_scope.md R6 as arguments. -/
def hufBuildWith (nsym maxLen : Nat) (order : Config.LevelOrder) (freq : Memory (BitVec 32)) : HufTable :=
  hufOutputs (hufLevels nsym maxLen order freq)

/-- `HufBuild(FREQ)` of this hardware (R120). -/
def hufBuild (freq : Memory (BitVec 32)) : HufTable :=
  hufBuildWith Config.hufNsym Config.hufMaxLen Config.hufLevelOrder freq

/-! The commands. -/

/-- The HUF state with a table's outputs; `FREQ` is not changed (R133). -/
def HufState.withTable (h : HufState) (t : HufTable) : HufState :=
  { h with total := t.total, depth := t.depth, lcnt := t.lcnt, lbase := t.lbase, syms := t.syms, cw := t.cw }

/-- `HUF.CLR` (R121). -/
def execHufClr (s : State) : Host.Outcome State Fault Refusal :=
  runCommand Opcode.hufClr [] s ((s.withHuf { s.huf with freq := [] }).withStatus s.status.hufCleared) 0#64

/-- `HUF.WRF sym, freq` (R122). -/
def execHufWrf (sym : FieldA) (freq : FieldB) (s : State) : Host.Outcome State Fault Refusal :=
  runCommand Opcode.hufWrf [(notSymbol sym, .eRange)] s
    ((s.withHuf { s.huf with freq := s.huf.freq.write sym.toNat freq }).withStatus s.status.hufCleared) 0#64

/-- `HUF.RDF sym` (R134): `data[31:0] = FREQ[sym]`. -/
def execHufRdf (sym : FieldA) (s : State) : Host.Outcome State Fault Refusal :=
  runCommand Opcode.hufRdf [(notSymbol sym, .eRange)] s s (respField (s.huf.freq.read sym.toNat) 0)

/-- `HUF.BUILD` (R133): `data[15:0] = HUF_TOTAL`, `data[19:16] = HUF_DEPTH`. -/
def execHufBuild (s : State) : Host.Outcome State Fault Refusal :=
  let t := hufBuild s.huf.freq
  runCommand Opcode.hufBuild [] s
    ((s.withHuf (s.huf.withTable t)).withStatus (s.status.hufBuilt t.limited t.degen))
    (respField t.total 0 ||| respField t.depth 16)

/-- `HUF.RDC sym` (R135): `data[14:0]` = the code, `data[19:16]` = the length. -/
def execHufRdc (sym : FieldA) (s : State) : Host.Outcome State Fault Refusal :=
  runCommand Opcode.hufRdc [(!s.status.hufValid, .eState), (notSymbol sym, .eRange)] s s
    (respField (s.huf.cw.read sym.toNat).code 0 ||| respField (s.huf.cw.read sym.toNat).len 16)

/-- `HUF.RDS idx` (R136): `data[8:0] = SYMS[idx]`. -/
def execHufRds (idx : FieldA) (s : State) : Host.Outcome State Fault Refusal :=
  runCommand Opcode.hufRds [(!s.status.hufValid, .eState), (decide (s.huf.total.toNat ≤ idx.toNat), .eRange)] s s
    (respField (s.huf.syms.read idx.toNat) 0)

/-- `HUF.RDL level` (R137): `data[15:0] = LCNT[level]`, `data[31:16] = LBASE[level]`. -/
def execHufRdl (level : FieldA) (s : State) : Host.Outcome State Fault Refusal :=
  runCommand Opcode.hufRdl [(!s.status.hufValid, .eState), (notLevel level, .eRange)] s s
    (respField (s.huf.lcnt.read level.toNat) 0 ||| respField (s.huf.lbase.read level.toNat) 16)

end Sys2Proof.Machine
end

