-- ==== Sys2Proof/Machine/System.lean ====
section
/-! DEFINITION. The system commands (40_system.md R110 to R112): the three that execute while the block is locked. -/

namespace Sys2Proof.Machine

/-- `NOP` (R110). -/
def execNop (s : State) : Host.Outcome State Fault Refusal := runAlways s 0#64

/-- `RESET` (R111): reset, then the response `(1, 0)`. -/
def execReset (s : State) : Host.Outcome State Fault Refusal := runAlways s.toReset 0#64

/-- `RDSTAT` (R112): the response is `STATUS`. -/
def execRdstat (s : State) : Host.Outcome State Fault Refusal := runAlways s s.status.word

end Sys2Proof.Machine
end

