-- ==== Sys2Proof/Machine/Window.lean ====
section
/-! DEFINITION. WIN (42_window.md): positions and keys, `register`, `match`, and the seven commands. Positions and distances are natural
numbers; `n` is `WIN_N`. -/

namespace Sys2Proof.Machine

/-! Positions, slots and keys (R162, R163; 20_memory.md R71). -/

/-- The capacity `W = 2^e` (R161). -/
def winCap (w : WinState) : Nat := 2 ^ w.exp.toNat

/-- The slot of an absolute position, `p mod W` (20_memory.md R71). -/
def winSlot (w : WinState) (p : Nat) : Nat := p % winCap w

/-- The byte held for position `p`, `RING[p mod W]` (R162). -/
def winByte (w : WinState) (p : Nat) : Byte := w.ring.read (winSlot w p)

/-- The 24-bit key of three bytes in stream order (R163). -/
def winKey (b0 b1 b2 : Byte) : Nat := b0.toNat * 2 ^ 16 + b1.toNat * 2 ^ 8 + b2.toNat

/-- The key of the occurrence that ends at position `q`, `q >= 2` (R163). -/
def winKeyAt (w : WinState) (q : Nat) : Nat := winKey (winByte w (q - 2)) (winByte w (q - 1)) (winByte w q)

/-! `register(byte)` (R165). -/

/-- The first part of R165: when the window is full, the entry of the occurrence that starts at the position about to be overwritten is removed,
if `HEAD` still points at that occurrence. -/
def winEvict (w : WinState) : WinState :=
  let p := w.n.toNat
  if winCap w ≤ p then
    let kOld := winKey (winByte w p) (winByte w (p - winCap w + 1)) (winByte w (p - winCap w + 2))
    if w.head.read kOld = some (BitVec.ofNat 64 (p - winCap w + 2)) then { w with head := w.head.write kOld none }
    else w
  else w

/-- The middle of R165: the byte enters the ring and the count goes up. -/
def winAppend (w : WinState) (byte : Byte) : WinState :=
  { w with ring := w.ring.write (winSlot w w.n.toNat) byte, n := BitVec.ofNat 64 (w.n.toNat + 1) }

/-- The last part of R165, with `p` the position just filled: the new occurrence is linked to the previous holder of its key and becomes the
holder; before position 2 no occurrence ends. -/
def winLink (w : WinState) (p : Nat) : WinState :=
  if 2 ≤ p then
    let k := winKeyAt w p
    { w with next := w.next.write (winSlot w p) (w.head.read k), head := w.head.write k (some (BitVec.ofNat 64 p)) }
  else { w with next := w.next.write (winSlot w p) none }

/-- `register(byte)` (R165). -/
def winRegister (w : WinState) (byte : Byte) : WinState := winLink (winAppend (winEvict w) byte) w.n.toNat

/-! `match` (R168, R169). -/

/-- `src(d, i)`: the byte a back-reference of distance `d` would produce at offset `i` (R168). -/
def winSrc (w : WinState) (d i : Nat) : Byte := if i < d then winByte w (w.n.toNat - d + i) else w.la.read (i - d)

/-- From offset `i` on, at most `k` bytes further: the first offset where the lookahead and the candidate differ. -/
def winExtendFrom (w : WinState) (d : Nat) : Nat → Nat → Nat
  | 0, i => i
  | k + 1, i => if w.la.read i = winSrc w d i then winExtendFrom w d k (i + 1) else i

/-- `ext(d)`: the length of the candidate of distance `d` (R168). -/
def winExtend (w : WinState) (d : Nat) : Nat := winExtendFrom w d (min Config.winMaxMatch w.lalen.toNat) 0

/-- A match or the best so far: length and distance. -/
structure WinMatch where
  len : Nat
  dist : Nat
deriving DecidableEq, Repr

/-- A candidate replaces the best only when strictly longer (R169). -/
def winTry (w : WinState) (d : Nat) (best : WinMatch) : WinMatch :=
  let l := winExtend w d
  if best.len < l then { len := l, dist := d } else best

/-- The walk of the chain (R169), at most `k` steps. R169 bounds the walk by `W - 2` steps, so `W` is enough (Log 10). -/
def winWalk (w : WinState) : Nat → Option (BitVec 64) → WinMatch → WinMatch
  | 0, _, best => best
  | _ + 1, none, best => best
  | k + 1, some q, best =>
    let d := w.n.toNat + 2 - q.toNat
    if winCap w < d then best else winWalk w k (w.next.read (winSlot w q.toNat)) (winTry w d best)

/-- The best candidate of R169: distance 1, distance 2, then the chain of the lookahead's first three bytes. -/
def winBest (w : WinState) : WinMatch :=
  let start : WinMatch := { len := Config.winMinMatch - 1, dist := 0 }
  let best1 := if 1 ≤ w.n.toNat then winTry w 1 start else start
  let best2 := if 2 ≤ w.n.toNat then winTry w 2 best1 else best1
  winWalk w (winCap w) (w.head.read (winKey (w.la.read 0) (w.la.read 1) (w.la.read 2))) best2

/-- `match()` (R169). -/
def winMatch (w : WinState) : Option WinMatch :=
  if w.lalen.toNat < Config.winMinMatch then none
  else
    let best := winBest w
    if Config.winMinMatch ≤ best.len then some best else none

/-! The commands. -/

/-- The window `WIN.INIT` creates (R161); `LA` is not written (10_state.md R25). -/
def winEmpty (w : WinState) (exp : BitVec 4) : WinState :=
  { w with exp := exp, n := 0#64, ring := [], next := [], head := [], lalen := 0#9 }

/-- `WIN.INIT exp` (R161). -/
def execWinInit (exp : FieldA) (s : State) : Host.Outcome State Fault Refusal :=
  runCommand Opcode.winInit [(notExponent exp, .eRange)] s
    ((s.withWin (winEmpty s.win (exp.setWidth 4))).withStatus s.status.winOpened) 0#64

/-- `WIN.REG byte` (R166). -/
def execWinReg (byte : FieldA) (s : State) : Host.Outcome State Fault Refusal :=
  runCommand Opcode.winReg
    [(!s.status.winReady, .eState), (notByte byte, .eRange), (decide (s.win.n.toNat = Config.winPosMax), .eFull)] s
    (s.withWin (winRegister s.win (byteOf byte))) 0#64

/-- `WIN.LACLR` (R167). -/
def execWinLaclr (s : State) : Host.Outcome State Fault Refusal :=
  runCommand Opcode.winLaclr [(!s.status.winReady, .eState)] s (s.withWin { s.win with lalen := 0#9 }) 0#64

/-- The lookahead with one byte more (R171). -/
def winLookPut (w : WinState) (byte : Byte) : WinState :=
  { w with la := w.la.write w.lalen.toNat byte, lalen := BitVec.ofNat 9 (w.lalen.toNat + 1) }

/-- `WIN.LAPUT byte` (R171). -/
def execWinLaput (byte : FieldA) (s : State) : Host.Outcome State Fault Refusal :=
  runCommand Opcode.winLaput
    [(!s.status.winReady, .eState), (notByte byte, .eRange), (decide (s.win.lalen.toNat = Config.winLaCap), .eFull)] s
    (s.withWin (winLookPut s.win (byteOf byte))) 0#64

/-- The response of `WIN.MATCH` (R172): `data[8:0]` = length, `data[31:16]` = distance, `data[32]` = found; 0 for no match. -/
def winMatchData : Option WinMatch → Word
  | none => 0#64
  | some m => respField (BitVec.ofNat 9 m.len) 0 ||| respField (BitVec.ofNat 16 m.dist) 16 ||| respField 1#1 32

/-- `WIN.MATCH` (R172). -/
def execWinMatch (s : State) : Host.Outcome State Fault Refusal :=
  let r := winMatch s.win
  runCommand Opcode.winMatch [(!s.status.winReady, .eState)] s (s.withStatus (s.status.winMatched r.isSome)) (winMatchData r)

/-- `WIN.RDB dist` (R173): `data[7:0]` = the byte `dist` positions back. -/
def execWinRdb (dist : FieldB) (s : State) : Host.Outcome State Fault Refusal :=
  runCommand Opcode.winRdb
    [(!s.status.winReady, .eState),
     (decide (dist.toNat < 1) || decide (min s.win.n.toNat (winCap s.win) < dist.toNat), .eRange)] s s
    (respField (winByte s.win (s.win.n.toNat - dist.toNat)) 0)

/-- `WIN.RDN` (R174): `data = WIN_N`. -/
def execWinRdn (s : State) : Host.Outcome State Fault Refusal :=
  runCommand Opcode.winRdn [(!s.status.winReady, .eState)] s s s.win.n

end Sys2Proof.Machine
end

