-- ==== Sys2Proof/Machine/Dispatch.lean ====
section
/-! DEFINITION. One arm per command: its meaning. -/

namespace Sys2Proof.Machine

/-- The execution of one command (00_scope.md R5): total, and always a next state. -/
def exec (i : Instr) (s : State) : Host.Outcome State Fault Refusal :=
  match i with
  | .nop => Sys2Proof.Machine.execNop s
  | .reset => Sys2Proof.Machine.execReset s
  | .rdstat => Sys2Proof.Machine.execRdstat s
  | .hufClr => Sys2Proof.Machine.execHufClr s
  | .hufWrf sym freq => Sys2Proof.Machine.execHufWrf sym freq s
  | .hufRdf sym => Sys2Proof.Machine.execHufRdf sym s
  | .hufBuild => Sys2Proof.Machine.execHufBuild s
  | .hufRdc sym => Sys2Proof.Machine.execHufRdc sym s
  | .hufRds idx => Sys2Proof.Machine.execHufRds idx s
  | .hufRdl level => Sys2Proof.Machine.execHufRdl level s
  | .winInit exp => Sys2Proof.Machine.execWinInit exp s
  | .winReg byte => Sys2Proof.Machine.execWinReg byte s
  | .winLaclr => Sys2Proof.Machine.execWinLaclr s
  | .winLaput byte => Sys2Proof.Machine.execWinLaput byte s
  | .winMatch => Sys2Proof.Machine.execWinMatch s
  | .winRdb dist => Sys2Proof.Machine.execWinRdb dist s
  | .winRdn => Sys2Proof.Machine.execWinRdn s
  | .fltCfg bpp width => Sys2Proof.Machine.execFltCfg bpp width s
  | .fltWrl byte idx => Sys2Proof.Machine.execFltWrl byte idx s
  | .fltRdl idx => Sys2Proof.Machine.execFltRdl idx s
  | .fltWrp byte idx => Sys2Proof.Machine.execFltWrp byte idx s
  | .fltRdp idx => Sys2Proof.Machine.execFltRdp idx s
  | .fltRdo idx => Sys2Proof.Machine.execFltRdo idx s
  | .fltDefilt => Sys2Proof.Machine.execFltDefilt s
  | .fltFilt type => Sys2Proof.Machine.execFltFilt type s
  | .fltAuto => Sys2Proof.Machine.execFltAuto s
  | .fltNext => Sys2Proof.Machine.execFltNext s
  | .fltZprev => Sys2Proof.Machine.execFltZprev s
  | .fltPaeth packed => Sys2Proof.Machine.execFltPaeth packed s
  | .a7Setw width => Sys2Proof.Machine.execA7Setw width s
  | .a7Seth height => Sys2Proof.Machine.execA7Seth height s
  | .a7Desc pass => Sys2Proof.Machine.execA7Desc pass s
  | .a7Size pass => Sys2Proof.Machine.execA7Size pass s

end Sys2Proof.Machine
end

