-- ==== Sys2Proof/Machine/Step.lean ====
section
/-! DEFINITION. One step: the next input of the host is taken and executed (10_state.md R20; 60_exceptions.md R262). -/

namespace Sys2Proof.Machine

/-- One step. A command word is decoded and executed, a word that is no command is rejected, the hard reset resets; with no input waiting
nothing happens. -/
def step (s : State) : Host.Outcome State Fault Refusal :=
  match fetch s with
  | none => idle s
  | some (.hardReset, s') => hardReset s'
  | some (.command w, s') =>
    match decode w with
    | .ok i => exec i s'
    | .error why => rejectWord w why s'

/-- The state in which the next step takes the word `w` of `nbits` bits as its command: the word stands before all waiting inputs (Log 2). -/
def State.withFetchWord (s : State) (nbits w : Nat) : State := s.withInput (.command (BitVec.ofNat 64 (w % 2 ^ nbits)))

end Sys2Proof.Machine
end

