-- ==== Sys2Proof/Safety.lean ====
section
/-! DEFINITION. What the claims speak of: the locked block (60_exceptions.md R263), a safe run, and the invariants of the state
(10_state.md R32; 42_window.md R164; 20_memory.md R60), and what `HufBuild` and `match` do, stated as relations beside the functions
(41_huffman.md R126, R127, R129; 42_window.md R170). -/

namespace Sys2Proof.Machine

/-! Locked and unlocked, safe runs. -/

/-- The block is locked: `STATUS.ERR = 1` (60_exceptions.md R263). -/
abbrev State.locked (s : State) : Prop := s.status.err = true

/-- The block is not locked: `STATUS.ERR = 0`. -/
abbrev State.unlocked (s : State) : Prop := s.status.err = false

/-- A run is safe as far as it has come: every response given so far has `ok = 1`, so no command raised an error or was refused. -/
abbrev State.safeSoFar (s : State) : Prop := ∀ r ∈ s.outbox, r.ok = true

/-! The error latch, R32 (d). -/

/-- `ERR = 0` exactly when `ERRCODE = 0`, and `ERR = 0` implies `ERROP = 0`. -/
structure LatchOk (st : Status) : Prop where
  code : st.err = false ↔ st.errCode = 0#8
  op : st.err = false → st.errOp = 0#8

/-! The gating flags: a flag that reports on a unit is 1 only while the unit's gating flag is (10_state.md R27). -/

/-- `HUF_LIMITED` and `HUF_DEGEN` are cleared with `HUF_VALID`; `WIN_FOUND` is written only after `WIN.INIT`. -/
structure GatesOk (st : Status) : Prop where
  limited : st.hufLimited = true → st.hufValid = true
  degen : st.hufDegen = true → st.hufValid = true
  found : st.winFound = true → st.winReady = true

/-! HUF, R32 (a). -/

/-- While `HUF_VALID = 1` the six outputs and the two flags are those of `HufBuild(FREQ)` on the present `FREQ`. -/
def HufOk (s : State) : Prop :=
  s.status.hufValid = true →
    s.huf = s.huf.withTable (hufBuild s.huf.freq) ∧
    s.status.hufLimited = (hufBuild s.huf.freq).limited ∧
    s.status.hufDegen = (hufBuild s.huf.freq).degen

/-! FLT, R32 (c). -/

/-- While `FLT_READY = 1` the delay and the row length are those of the pixel format and the width, and the row fits. -/
def FltOk (s : State) : Prop :=
  s.status.fltReady = true →
    1 ≤ s.flt.bpp.toNat ∧ s.flt.bpp.toNat ≤ 64 ∧
    s.flt.delay.toNat = (s.flt.bpp.toNat + 7) / 8 ∧
    s.flt.rowlen.toNat = (s.flt.width.toNat * s.flt.bpp.toNat + 7) / 8 ∧
    s.flt.rowlen.toNat ≤ 65536

/-! The memories (20_memory.md R60, R61). -/

/-- Every HUF memory is canonical and lists only indices that exist. -/
def HufState.memoriesOk (h : HufState) : Bool :=
  h.freq.wf && h.freq.within 0 287 && h.lcnt.wf && h.lcnt.within 1 15 && h.lbase.wf && h.lbase.within 1 15 &&
    h.syms.wf && h.syms.within 0 287 && h.cw.wf && h.cw.within 0 287

/-- Every WIN memory is canonical and lists only indices that exist. -/
def WinState.memoriesOk (w : WinState) : Bool :=
  w.ring.wf && w.ring.within 0 (winCap w - 1) && w.next.wf && w.next.within 0 (winCap w - 1) &&
    w.head.wf && w.head.within 0 (2 ^ 24 - 1) && w.la.wf && w.la.within 0 257 && decide (w.lalen.toNat ≤ 258)

/-- Every FLT memory is canonical and lists only indices that exist. -/
def FltState.memoriesOk (f : FltState) : Bool :=
  f.line.wf && f.line.within 0 f.rl && f.prev.wf && f.prev.within 1 f.rl && f.out.wf && f.out.within 0 f.rl

/-- Every memory of the block is canonical and lists only indices that exist. -/
def State.memoriesOk (s : State) : Bool := s.huf.memoriesOk && s.win.memoriesOk && s.flt.memoriesOk

/-! WIN, R32 (b) and R164, said of the state alone. -/

/-- Position `p` is in the window: `max(0, n - W) <= p < n` (42_window.md R162). -/
def winInside (w : WinState) (p : Nat) : Prop := p < w.n.toNat ∧ w.n.toNat ≤ p + winCap w

/-- An occurrence of the key `k` ends at position `q` and lies in the window whole: `2 <= q < n`, `q - 2 >= n - W` (42_window.md R164). -/
def winOccurs (w : WinState) (k q : Nat) : Prop :=
  2 ≤ q ∧ q < w.n.toNat ∧ w.n.toNat + 2 ≤ q + winCap w ∧ winKeyAt w q = k

/-- The index of the window is right. `HEAD` gives the last occurrence of each key; the link of an occurrence gives the occurrence before it, or,
where there is none in the window, nothing or a position that has left the window; every link points back. -/
structure WinIndexOk (w : WinState) : Prop where
  exponent : 8 ≤ w.exp.toNat
  lookahead : w.lalen.toNat ≤ 258
  headSome : ∀ k q, w.head.read k = some q → winOccurs w k q.toNat ∧ ∀ q', winOccurs w k q' → q' ≤ q.toNat
  headNone : ∀ k, w.head.read k = none → ∀ q, ¬ winOccurs w k q
  nextBack : ∀ p q', winInside w p → w.next.read (winSlot w p) = some q' → q'.toNat < p
  nextSome : ∀ k q q', winOccurs w k q → w.next.read (winSlot w q) = some q' →
    (winOccurs w k q'.toNat ∨ q'.toNat + winCap w < w.n.toNat + 2) ∧ ∀ q₀, winOccurs w k q₀ → q₀ < q → q₀ ≤ q'.toNat
  nextNone : ∀ k q, winOccurs w k q → w.next.read (winSlot w q) = none → ∀ q₀, winOccurs w k q₀ → q ≤ q₀

/-- While `WIN_READY = 1` the index of the window is right. -/
def WinOk (s : State) : Prop := s.status.winReady = true → WinIndexOk s.win

/-! What `match` returns, stated without the index (42_window.md R170). -/

/-- `d` is a distance in the window: `1 <= d <= min(n, W)`. -/
def winReaches (w : WinState) (d : Nat) : Prop := 1 ≤ d ∧ d ≤ w.n.toNat ∧ d ≤ winCap w

/-- `r` is the best match of R170: no match when fewer than 3 bytes look ahead or no candidate has 3 bytes; else a longest candidate, at the
smallest of its distances. -/
def winIsBest (w : WinState) (r : Option WinMatch) : Prop :=
  match r with
  | none => w.lalen.toNat < 3 ∨ ∀ d, winReaches w d → winExtend w d < 3
  | some m =>
    3 ≤ w.lalen.toNat ∧ winReaches w m.dist ∧ m.len = winExtend w m.dist ∧ 3 ≤ m.len ∧
    ∀ d, winReaches w d → winExtend w d ≤ m.len ∧ (winExtend w d = m.len → m.dist ≤ d)

/-! The tree and height limiting as relations (41_huffman.md R126, R127, R129), on queues in any layout and on counts as functions of the
level. -/

/-- `x` may leave a queue whose other nodes are `q`: none of them has a smaller weight, or an equal weight and a smaller serial (R126). -/
def hufLeavesFirst (x : HufNode) (q : List HufNode) : Prop :=
  ∀ y ∈ q, x.weight < y.weight ∨ (x.weight = y.weight ∧ x.serial ≤ y.serial)

/-- `n` is the node inserted for `x` and `y` (R127): the sum of the weights, the serial, a root level without leaves, and below it the sums of
the counts at equal depths. -/
structure HufCombines (x y : HufNode) (serial : Nat) (n : HufNode) : Prop where
  weight : n.weight = x.weight + y.weight
  serial : n.serial = serial
  depth : n.vec.length = max x.vec.length y.vec.length + 1
  root : n.vec.getD 0 0 = 0
  below : ∀ j, n.vec.getD (j + 1) 0 = x.vec.getD j 0 + y.vec.getD j 0

/-- The loop of R127 from a queue and the next serial ends with a node of this vector. -/
inductive HufTreeOf : Nat → List HufNode → List Nat → Prop
  | done (serial : Nat) (t : HufNode) : HufTreeOf serial [t] t.vec
  | pass (serial : Nat) (q rest : List HufNode) (x y n : HufNode) (vec : List Nat) :
      q.Perm (x :: y :: rest) → hufLeavesFirst x (y :: rest) → hufLeavesFirst y rest → HufCombines x y serial n →
      HufTreeOf (serial + 1) (n :: rest) vec → HufTreeOf serial q vec

/-- The loop of R129 with `L = 15`, from the depth `D` and the counts `cnt`, ends with the counts `final`. A pass pulls two leaves of level `D`,
puts one on level `D - 1`, splits a leaf of the deepest level `b` from 14 up that holds one into two of level `b + 1`, and lowers `D` past
the empty levels, not below 15. -/
inductive HufLimitsTo : Nat → (Nat → Nat) → (Nat → Nat) → Prop
  | done (D : Nat) (cnt : Nat → Nat) : D ≤ 15 → HufLimitsTo D cnt cnt
  | pass (D b D' : Nat) (cnt promoted next final : Nat → Nat) :
      15 < D → 2 ≤ cnt D →
      (∀ d, promoted d = if d = D then cnt D - 2 else if d = D - 1 then cnt (D - 1) + 1 else cnt d) →
      1 ≤ b → b ≤ 14 → 1 ≤ promoted b → (∀ c, b < c → c ≤ 14 → promoted c = 0) →
      (∀ d, next d = if d = b then promoted b - 1 else if d = b + 1 then promoted (b + 1) + 2 else promoted d) →
      15 ≤ D' → D' ≤ D → (∀ d, D' < d → d ≤ D → next d = 0) → (D' = 15 ∨ next D' ≠ 0) →
      HufLimitsTo D' next final → HufLimitsTo D cnt final

/-! The invariant. -/

/-- The invariant of the block. -/
structure State.Inv (s : State) : Prop where
  latch : LatchOk s.status
  gates : GatesOk s.status
  huf : HufOk s
  flt : FltOk s
  memories : s.memoriesOk = true
  win : WinOk s

end Sys2Proof.Machine
end

