-- ==== Sys2Proof/Certificates/Slice0/Obligations.lean ====
section
/-! DEFINITION. The statements for the provers, from the numbered rules of the spec. Responses and error entries are written out here, not
taken from the model's own operations. -/

namespace Sys2Proof.Machine

/-! The words the statements are written in. -/

/-- The state in which the host sends the word `w` next; with the word taken it is `s` (10_state.md R20). -/
def sending (s : State) (w : Word) : State := { s with inbox := HostInput.command w :: s.inbox }

/-- The state after the response `(1, data)`, all else as in `s` (30_encoding.md R82). -/
def answered (s : State) (data : Word) : State := { s with outbox := s.outbox ++ [{ ok := true, data := data }] }

/-- The state after the response `(0, 0)`, all else as in `s` (60_exceptions.md R263). -/
def turnedAway (s : State) : State := { s with outbox := s.outbox ++ [{ ok := false, data := 0#64 }] }

/-- The state after error entry (60_exceptions.md R266): `ERR`, `ERRCODE`, `ERROP` written, the response `(0, 0)`, nothing else. -/
def errorEntry (s : State) (op code : BitVec 8) : State :=
  turnedAway { s with status := { s.status with err := true, errCode := code, errOp := op } }

/-- The words of the opcode `op` (30_encoding.md R80 to R86; 60_exceptions.md R262): while the block is not locked, a word whose reserved fields
are 0 runs the command `make A B`, any other raises `E_RESERVED`. -/
def CommandWords (op : BitVec 8) (usesA usesB : Bool) (make : FieldA → FieldB → Instr) : Prop :=
  ∀ (s : State) (w : Word), s.unlocked → opField w = op →
    step (sending s w) =
      if rsvField w = 0#8 ∧ (usesA = true ∨ aField w = 0#16) ∧ (usesB = true ∨ bField w = 0#32)
      then exec (make (aField w) (bField w)) s
      else .next (errorEntry s op 2#8)

/-- The words of a system opcode (40_system.md; 60_exceptions.md R263): the exact word runs the command, locked or not; any other word of the
opcode is refused while locked and raises `E_RESERVED` otherwise. -/
def SystemWords (op : BitVec 8) (i : Instr) : Prop :=
  ∀ (s : State) (w : Word), opField w = op →
    step (sending s w) =
      if rsvField w = 0#8 ∧ aField w = 0#16 ∧ bField w = 0#32 then exec i s
      else if s.status.err = true then .next (turnedAway s)
      else .next (errorEntry s op 2#8)

/-- The opcodes that are in no row of the map (30_encoding.md R85). -/
def illegalOpcode (v : Nat) : Bool :=
  (decide (0x03 ≤ v) && decide (v ≤ 0x0F)) || (decide (0x17 ≤ v) && decide (v ≤ 0x1F)) ||
    (decide (0x27 ≤ v) && decide (v ≤ 0x2F)) || (decide (0x3C ≤ v) && decide (v ≤ 0x3F)) ||
    (decide (0x44 ≤ v) && decide (v ≤ 0xFF))

/-- The state precondition of a command holds (60_exceptions.md R261, code 3). -/
def gateOpen (st : Status) : Instr → Bool
  | .nop => true
  | .reset => true
  | .rdstat => true
  | .hufClr => true
  | .hufWrf _ _ => true
  | .hufRdf _ => true
  | .hufBuild => true
  | .hufRdc _ => st.hufValid
  | .hufRds _ => st.hufValid
  | .hufRdl _ => st.hufValid
  | .winInit _ => true
  | .winReg _ => st.winReady
  | .winLaclr => st.winReady
  | .winLaput _ => st.winReady
  | .winMatch => st.winReady
  | .winRdb _ => st.winReady
  | .winRdn => st.winReady
  | .fltCfg _ _ => true
  | .fltWrl _ _ => st.fltReady
  | .fltRdl _ => st.fltReady
  | .fltWrp _ _ => st.fltReady
  | .fltRdp _ => st.fltReady
  | .fltRdo _ => st.fltReady
  | .fltDefilt => st.fltReady
  | .fltFilt _ => st.fltReady
  | .fltAuto => st.fltReady
  | .fltNext => st.fltReady
  | .fltZprev => st.fltReady
  | .fltPaeth _ => true
  | .a7Setw _ => true
  | .a7Seth _ => true
  | .a7Desc _ => true
  | .a7Size _ => true

/-- The rows of spec/opcode_table.json: `match` and `mask`. -/
def tableRows : List (Word × Word) :=
  [(0x0000000000000000#64, 0xFFFFFFFFFFFFFFFF#64), (0x0100000000000000#64, 0xFFFFFFFFFFFFFFFF#64),
   (0x0200000000000000#64, 0xFFFFFFFFFFFFFFFF#64)] ++
  [(0x1000000000000000#64, 0xFFFFFFFFFFFFFFFF#64), (0x1100000000000000#64, 0xFFFF000000000000#64),
   (0x1200000000000000#64, 0xFFFF0000FFFFFFFF#64), (0x1300000000000000#64, 0xFFFFFFFFFFFFFFFF#64),
   (0x1400000000000000#64, 0xFFFF0000FFFFFFFF#64), (0x1500000000000000#64, 0xFFFF0000FFFFFFFF#64),
   (0x1600000000000000#64, 0xFFFF0000FFFFFFFF#64)] ++
  [(0x2000000000000000#64, 0xFFFF0000FFFFFFFF#64), (0x2100000000000000#64, 0xFFFF0000FFFFFFFF#64),
   (0x2200000000000000#64, 0xFFFFFFFFFFFFFFFF#64), (0x2300000000000000#64, 0xFFFF0000FFFFFFFF#64),
   (0x2400000000000000#64, 0xFFFFFFFFFFFFFFFF#64), (0x2500000000000000#64, 0xFFFFFFFF00000000#64),
   (0x2600000000000000#64, 0xFFFFFFFFFFFFFFFF#64)] ++
  [(0x3000000000000000#64, 0xFFFF000000000000#64), (0x3100000000000000#64, 0xFFFF000000000000#64),
   (0x3200000000000000#64, 0xFFFFFFFF00000000#64), (0x3300000000000000#64, 0xFFFF000000000000#64),
   (0x3400000000000000#64, 0xFFFFFFFF00000000#64), (0x3500000000000000#64, 0xFFFFFFFF00000000#64),
   (0x3600000000000000#64, 0xFFFFFFFFFFFFFFFF#64), (0x3700000000000000#64, 0xFFFF0000FFFFFFFF#64),
   (0x3800000000000000#64, 0xFFFFFFFFFFFFFFFF#64), (0x3900000000000000#64, 0xFFFFFFFFFFFFFFFF#64),
   (0x3A00000000000000#64, 0xFFFFFFFFFFFFFFFF#64), (0x3B00000000000000#64, 0xFFFFFFFF00000000#64)] ++
  [(0x4000000000000000#64, 0xFFFFFFFF00000000#64), (0x4100000000000000#64, 0xFFFFFFFF00000000#64),
   (0x4200000000000000#64, 0xFFFF0000FFFFFFFF#64), (0x4300000000000000#64, 0xFFFF0000FFFFFFFF#64)]

end Sys2Proof.Machine

open Sys2Proof Sys2Proof.Machine

/-! Words, the step and the encoding. -/

/-- When a word decodes to a command, the step that takes it is `exec` of that command (R262); with no input the step leaves the state
(R297, Log 1). -/
def Obligations.StepRunsDecodedCommand : Prop :=
  (∀ (s : State) (w : Word) (i : Instr), decode w = .ok i → step (sending s w) = exec i s) ∧
  (∀ s : State, s.inbox = [] → step s = .next s)

/-- `exec` is total (00_scope.md R5), and every command word gets exactly one response and is taken from the inputs (10_state.md R20). -/
def Obligations.EveryWordGetsOneResponse : Prop :=
  (∀ (s : State) (w : Word), ∃ (t : State) (r : Response), step (sending s w) = .next t ∧
    t.outbox = s.outbox ++ [r] ∧ t.inbox = s.inbox) ∧
  (∀ (i : Instr) (s : State), ∃ (t : State) (r : Response), exec i s = .next t ∧ t.outbox = s.outbox ++ [r] ∧ t.inbox = s.inbox) ∧
  (∀ s : State, ∃ t : State, step s = .next t)

/-- Every command decodes from its own word, whatever its operands. -/
def Obligations.DecodeOfEncode : Prop :=
  ∀ i : Instr, decode (encode i) = .ok i

/-- A word that decodes is the word of its command: no two words stand for one command, and no bit of a word is dropped. -/
def Obligations.EncodeOfDecode : Prop :=
  ∀ (w : Word) (i : Instr), decode w = .ok i → encode i = w

/-- A word is an instance of a row of the opcode table exactly when `C & mask = match`; the words that decode are the instances of the 33
rows, and no word is an instance of two. -/
def Obligations.DecodedWordsAreTableRows : Prop :=
  (∀ w : Word, (∃ i, decode w = .ok i) ↔ ∃ r ∈ tableRows, w &&& r.2 = r.1) ∧
  (∀ (w : Word) (r r' : Word × Word), r ∈ tableRows → r' ∈ tableRows → w &&& r.2 = r.1 → w &&& r'.2 = r'.1 → r = r')

/-- The operands are taken from the word as they stand and put into it as they stand (R81), and the words of some commands, written out from R80,
decode to them. -/
def Obligations.OperandFieldsAndSampleWords : Prop :=
  (∀ w : Word, (opField w).toNat = w.toNat / 2 ^ 56 ∧ (rsvField w).toNat = w.toNat / 2 ^ 48 % 2 ^ 8 ∧
    (aField w).toNat = w.toNat / 2 ^ 32 % 2 ^ 16 ∧ (bField w).toNat = w.toNat % 2 ^ 32) ∧
  (∀ (op : BitVec 8) (a : FieldA) (b : FieldB),
    (enc op a b).toNat = op.toNat * 2 ^ 56 + a.toNat * 2 ^ 32 + b.toNat ∧
    opField (enc op a b) = op ∧ rsvField (enc op a b) = 0#8 ∧ aField (enc op a b) = a ∧ bField (enc op a b) = b) ∧
  decode 0x0200000000000000#64 = .ok .rdstat ∧
  decode 0x110000050000002D#64 = .ok (.hufWrf 5#16 45#32) ∧
  decode 0x2500000000000004#64 = .ok (.winRdb 4#32) ∧
  decode 0x3100000A00000001#64 = .ok (.fltWrl 10#16 1#32) ∧
  decode 0x4300000600000000#64 = .ok (.a7Size 6#16)

/-- Illegal opcodes (R85), 223 of the 256 values, raise `E_OPCODE` whatever the other bits; a legal opcode with a non-zero reserved field (R86)
raises `E_RESERVED` and is not executed. -/
def Obligations.IllegalAndReservedWordsRaise : Prop :=
  (∀ (s : State) (w : Word), s.unlocked → illegalOpcode (opField w).toNat = true →
    step (sending s w) = .next (errorEntry s (opField w) 1#8)) ∧
  ((List.range 256).filter illegalOpcode).length = 223 ∧
  (∀ op : BitVec 8, illegalOpcode op.toNat = false → ∃ (w : Word) (i : Instr), opField w = op ∧ decode w = .ok i) ∧
  (∀ (s : State) (w : Word) (r : OpcodeRow), s.unlocked → opcodeRow (opField w) = some r →
    (rsvField w ≠ 0#8 ∨ (r.usesA = false ∧ aField w ≠ 0#16) ∨ (r.usesB = false ∧ bField w ≠ 0#32)) →
    step (sending s w) = .next (errorEntry s (opField w) 2#8))

/-! The error latch and the lock. -/

/-- The locked block executes only the three exact words; every other word gets `(0, 0)` and changes nothing, the latch included (R263). -/
def Obligations.LockedBlockExecutesOnlyThreeWords : Prop :=
  ∀ (s : State) (w : Word), s.locked →
    (w = 0x0000000000000000#64 → step (sending s w) = exec .nop s) ∧
    (w = 0x0100000000000000#64 → step (sending s w) = exec .reset s) ∧
    (w = 0x0200000000000000#64 → step (sending s w) = exec .rdstat s) ∧
    (w ≠ 0x0000000000000000#64 → w ≠ 0x0100000000000000#64 → w ≠ 0x0200000000000000#64 →
      step (sending s w) = .next (turnedAway s))

/-- A command sent before its unit is ready raises `E_STATE`, whatever its operands: the state check comes before the range check (R261 code 3,
R264). -/
def Obligations.ClosedGateRaisesStateError : Prop :=
  ∀ (s : State) (i : Instr), s.unlocked → gateOpen s.status i = false →
    exec i s = .next (errorEntry s (opField (encode i)) 3#8)

/-- An operand out of the range its rule gives never takes effect: in every state the invariant allows, an ill-formed command (Log 13) with its
gate open raises `E_RANGE`. -/
def Obligations.IllFormedCommandRaisesRangeError : Prop :=
  ∀ (s : State) (i : Instr), s.Inv → s.unlocked → gateOpen s.status i = true → i.WellFormed = false →
    exec i s = .next (errorEntry s (opField (encode i)) 4#8)

/-- Errors are precise: a command of an unlocked block either raises one error, `E_STATE`, `E_RANGE` or `E_FULL`, and changes nothing but the
latch, or completes with `ok = 1` and leaves the block unlocked (R265). -/
def Obligations.CommandCompletesOrChangesOnlyLatch : Prop :=
  ∀ (s t : State) (i : Instr), s.unlocked → exec i s = .next t →
    (∃ code : BitVec 8, (code = 3#8 ∨ code = 4#8 ∨ code = 5#8) ∧ t = errorEntry s (opField (encode i)) code) ∨
    (t.unlocked ∧ ∃ data : Word, t.outbox = s.outbox ++ [{ ok := true, data := data }])

/-- Only reset clears the latch (R267): the step that unlocks a locked block takes the word `RESET` or the hard reset input, and every item of
state with a reset value has it then; every other step keeps all of `STATUS` as it is. -/
def Obligations.OnlyResetUnlocks : Prop :=
  ∀ (s t : State), s.locked → step s = .next t →
    (t.status = s.status) ∨
    ((∃ rest, s.inbox = HostInput.hardReset :: rest ∨ s.inbox = HostInput.command 0x0100000000000000#64 :: rest) ∧
      t.status.word = 0#64 ∧ (∀ i, t.huf.freq.read i = 0#32) ∧ t.a7.w = 0#32 ∧ t.a7.h = 0#32)

/-- The four units share nothing (R23): a command other than `RESET` changes the state and the flags of its own unit only, apart from the error
latch; and no command writes a flag other than those the table of R27 gives it (R28), so the commands that read write none. -/
def Obligations.UnitsShareOnlyTheLatch : Prop :=
  ∀ (s t : State) (i : Instr), i ≠ .reset → exec i s = .next t →
    ((opField (encode i)).toNat / 16 ≠ 1 →
      t.huf = s.huf ∧ t.status.hufValid = s.status.hufValid ∧ t.status.hufLimited = s.status.hufLimited ∧
      t.status.hufDegen = s.status.hufDegen) ∧
    ((opField (encode i)).toNat / 16 ≠ 2 →
      t.win = s.win ∧ t.status.winReady = s.status.winReady ∧ t.status.winFound = s.status.winFound) ∧
    ((opField (encode i)).toNat / 16 ≠ 3 → t.flt = s.flt ∧ t.status.fltReady = s.status.fltReady) ∧
    ((opField (encode i)).toNat / 16 ≠ 4 → t.a7 = s.a7) ∧
    (i ≠ .hufClr → (∀ sym freq, i ≠ .hufWrf sym freq) → i ≠ .hufBuild →
      t.status.hufValid = s.status.hufValid ∧ t.status.hufLimited = s.status.hufLimited ∧ t.status.hufDegen = s.status.hufDegen) ∧
    ((∀ exp, i ≠ .winInit exp) →
      t.status.winReady = s.status.winReady ∧ (i ≠ .winMatch → t.status.winFound = s.status.winFound)) ∧
    ((∀ bpp width, i ≠ .fltCfg bpp width) → t.status.fltReady = s.status.fltReady)

/-- A run whose every response has `ok = 1` never locked the block. -/
def Obligations.SafeRunLeavesBlockUnlocked : Prop :=
  ∀ (k : Nat) (s t : State), s.unlocked → Host.Core.run core k s = .next t → t.safeSoFar → t.unlocked

/-- No response after reset depends on anything before it (R291): two blocks that are given `RESET` and then the same inputs give the same
responses from then on and end with the same state (the items without a reset value are the model's choice, Log 5 to Log 7). -/
def Obligations.NothingBeforeResetIsSeenAfter : Prop :=
  ∀ (k : Nat) (s s' t t' : State) (rest : List HostInput) (first : HostInput),
    (first = .hardReset ∨ first = .command 0x0100000000000000#64) →
    s.inbox = first :: rest → s'.inbox = first :: rest →
    Host.Core.run core (k + 1) s = .next t → Host.Core.run core (k + 1) s' = .next t' →
    t.outbox.drop s.outbox.length = t'.outbox.drop s'.outbox.length ∧
    t.status = t'.status ∧ t.huf = t'.huf ∧ t.win = t'.win ∧ t.flt = t'.flt ∧ t.a7 = t'.a7 ∧ t.inbox = t'.inbox

/-! System commands. -/

/-- `NOP` gives the state it was given and the response `(1, 0)`, locked or not (R110). -/
def Obligations.NopAnswersZeroAndChangesNothing : Prop :=
  SystemWords 0x00#8 .nop ∧ encode .nop = 0x0000000000000000#64 ∧ ∀ s : State, exec .nop s = .next (answered s 0#64)

/-- `RDSTAT` answers the 64 bits of `STATUS` and changes nothing, locked or not (R112, with the layout of R27). -/
def Obligations.RdstatAnswersStatus : Prop :=
  SystemWords 0x02#8 .rdstat ∧ encode .rdstat = 0x0200000000000000#64 ∧
  ∀ s : State, ∃ d : Word, exec .rdstat s = .next (answered s d) ∧
    d.getLsbD 0 = s.status.err ∧ d.getLsbD 1 = s.status.hufValid ∧ d.getLsbD 2 = s.status.hufLimited ∧
    d.getLsbD 3 = s.status.hufDegen ∧ d.getLsbD 4 = s.status.winReady ∧ d.getLsbD 5 = s.status.winFound ∧
    d.getLsbD 6 = s.status.fltReady ∧ d.getLsbD 7 = false ∧ d.extractLsb' 8 8 = s.status.errCode ∧
    d.extractLsb' 16 8 = s.status.errOp ∧ d.extractLsb' 24 40 = 0#40

/-- `RESET` puts every item that has a reset value (R31) to it, locked or not, and answers `(1, 0)`; the hard reset input leaves the same state and
gives no response (R111, R292). The ports stay (Log 3, the model's choice). -/
def Obligations.ResetCommandEqualsHardReset : Prop :=
  SystemWords 0x01#8 .reset ∧ encode .reset = 0x0100000000000000#64 ∧
  ∀ s : State, ∃ t : State, exec .reset s = .next (answered t 0#64) ∧
    step { s with inbox := HostInput.hardReset :: s.inbox } = .next t ∧
    t.status.word = 0#64 ∧ (∀ i, t.huf.freq.read i = 0#32) ∧ t.a7.w = 0#32 ∧ t.a7.h = 0#32 ∧
    t.inbox = s.inbox ∧ t.outbox = s.outbox

/-- The reset state has the values the spec gives (R31): `STATUS`, `FREQ`, `A7_W`, `A7_H`; and every command that would read an item without a
value raises `E_STATE` there. -/
def Obligations.ResetStateIsAsSpecified : Prop :=
  State.reset.status.word = 0#64 ∧ (∀ i, State.reset.huf.freq.read i = 0#32) ∧
  State.reset.a7.w = 0#32 ∧ State.reset.a7.h = 0#32 ∧ State.reset.errOutput = false ∧
  ∀ (a : FieldA) (b : FieldB),
    exec (.hufRdc a) State.reset = .next (errorEntry State.reset 0x14#8 3#8) ∧
    exec (.hufRds a) State.reset = .next (errorEntry State.reset 0x15#8 3#8) ∧
    exec (.hufRdl a) State.reset = .next (errorEntry State.reset 0x16#8 3#8) ∧
    exec (.winReg a) State.reset = .next (errorEntry State.reset 0x21#8 3#8) ∧
    exec .winLaclr State.reset = .next (errorEntry State.reset 0x22#8 3#8) ∧
    exec (.winLaput a) State.reset = .next (errorEntry State.reset 0x23#8 3#8) ∧
    exec .winMatch State.reset = .next (errorEntry State.reset 0x24#8 3#8) ∧
    exec (.winRdb b) State.reset = .next (errorEntry State.reset 0x25#8 3#8) ∧
    exec .winRdn State.reset = .next (errorEntry State.reset 0x26#8 3#8) ∧
    exec (.fltWrl a b) State.reset = .next (errorEntry State.reset 0x31#8 3#8) ∧
    exec (.fltRdl b) State.reset = .next (errorEntry State.reset 0x32#8 3#8) ∧
    exec (.fltWrp a b) State.reset = .next (errorEntry State.reset 0x33#8 3#8) ∧
    exec (.fltRdp b) State.reset = .next (errorEntry State.reset 0x34#8 3#8) ∧
    exec (.fltRdo b) State.reset = .next (errorEntry State.reset 0x35#8 3#8) ∧
    exec .fltDefilt State.reset = .next (errorEntry State.reset 0x36#8 3#8) ∧
    exec (.fltFilt a) State.reset = .next (errorEntry State.reset 0x37#8 3#8) ∧
    exec .fltAuto State.reset = .next (errorEntry State.reset 0x38#8 3#8) ∧
    exec .fltNext State.reset = .next (errorEntry State.reset 0x39#8 3#8) ∧
    exec .fltZprev State.reset = .next (errorEntry State.reset 0x3A#8 3#8)

/-! HUF. -/

/-- `HUF.CLR` (R121): every frequency 0, the three HUF flags cleared, the response `(1, 0)`, nothing else. -/
def Obligations.HufClrClearsFrequencies : Prop :=
  CommandWords 0x10#8 false false (fun _ _ => .hufClr) ∧
  ∀ s : State, s.unlocked →
    ∃ m : Memory (BitVec 32), (∀ i, m.read i = 0#32) ∧
      exec .hufClr s = .next (answered
        { s with
          huf := { s.huf with freq := m }
          status := { s.status with hufValid := false, hufLimited := false, hufDegen := false } } 0#64)

/-- `HUF.WRF` (R122): that one frequency is replaced, the three HUF flags cleared, the response `(1, 0)`, nothing else; a symbol above 287
raises `E_RANGE`. -/
def Obligations.HufWrfWritesOneFrequency : Prop :=
  CommandWords 0x11#8 true true (fun a b => .hufWrf a b) ∧
  ∀ (s : State) (sym : FieldA) (freq : FieldB), s.unlocked →
    (288 ≤ sym.toNat → exec (.hufWrf sym freq) s = .next (errorEntry s 0x11#8 4#8)) ∧
    (sym.toNat < 288 →
      ∃ m : Memory (BitVec 32), (∀ i, m.read i = if i = sym.toNat then freq else s.huf.freq.read i) ∧
        exec (.hufWrf sym freq) s = .next (answered
          { s with
            huf := { s.huf with freq := m }
            status := { s.status with hufValid := false, hufLimited := false, hufDegen := false } } 0#64))

/-- `HUF.RDF` (R134): the response is the frequency, nothing changes; a symbol above 287 raises `E_RANGE`. -/
def Obligations.HufRdfAnswersFrequency : Prop :=
  CommandWords 0x12#8 true false (fun a _ => .hufRdf a) ∧
  ∀ (s : State) (sym : FieldA), s.unlocked →
    (288 ≤ sym.toNat → exec (.hufRdf sym) s = .next (errorEntry s 0x12#8 4#8)) ∧
    (sym.toNat < 288 → exec (.hufRdf sym) s = .next (answered s (BitVec.ofNat 64 (s.huf.freq.read sym.toNat).toNat)))

/-- `HUF.BUILD` (R133): the six outputs and the two flags are those of `HufBuild(FREQ)`, `HUF_VALID` is set, `FREQ` and all else stay, the
response holds the total and the depth. -/
def Obligations.HufBuildStoresTable : Prop :=
  CommandWords 0x13#8 false false (fun _ _ => .hufBuild) ∧
  ∀ (s : State) (t : HufTable), s.unlocked → t = hufBuild s.huf.freq →
    exec .hufBuild s = .next (answered
      { s with
        huf :=
          { freq := s.huf.freq, total := t.total, depth := t.depth, lcnt := t.lcnt, lbase := t.lbase, syms := t.syms, cw := t.cw }
        status := { s.status with hufValid := true, hufLimited := t.limited, hufDegen := t.degen } }
      (BitVec.ofNat 64 (t.total.toNat + t.depth.toNat * 2 ^ 16)))

/-- `HUF.RDC`, `HUF.RDS`, `HUF.RDL` (R135 to R137): `E_STATE` without a valid table, then `E_RANGE`, else the element asked for; nothing changes. -/
def Obligations.HufTableReadsAnswerElements : Prop :=
  CommandWords 0x14#8 true false (fun a _ => .hufRdc a) ∧
  CommandWords 0x15#8 true false (fun a _ => .hufRds a) ∧
  CommandWords 0x16#8 true false (fun a _ => .hufRdl a) ∧
  ∀ (s : State) (a : FieldA), s.unlocked →
    (s.status.hufValid = false →
      exec (.hufRdc a) s = .next (errorEntry s 0x14#8 3#8) ∧ exec (.hufRds a) s = .next (errorEntry s 0x15#8 3#8) ∧
      exec (.hufRdl a) s = .next (errorEntry s 0x16#8 3#8)) ∧
    (s.status.hufValid = true →
      (288 ≤ a.toNat → exec (.hufRdc a) s = .next (errorEntry s 0x14#8 4#8)) ∧
      (a.toNat < 288 → exec (.hufRdc a) s = .next (answered s
        (BitVec.ofNat 64 ((s.huf.cw.read a.toNat).code.toNat + (s.huf.cw.read a.toNat).len.toNat * 2 ^ 16)))) ∧
      (s.huf.total.toNat ≤ a.toNat → exec (.hufRds a) s = .next (errorEntry s 0x15#8 4#8)) ∧
      (a.toNat < s.huf.total.toNat →
        exec (.hufRds a) s = .next (answered s (BitVec.ofNat 64 (s.huf.syms.read a.toNat).toNat))) ∧
      ((a.toNat < 1 ∨ 15 < a.toNat) → exec (.hufRdl a) s = .next (errorEntry s 0x16#8 4#8)) ∧
      (1 ≤ a.toNat → a.toNat ≤ 15 → exec (.hufRdl a) s = .next (answered s
        (BitVec.ofNat 64 ((s.huf.lcnt.read a.toNat).toNat + (s.huf.lbase.read a.toNat).toNat * 2 ^ 16)))))

/-- The degenerate table of the entries `x < y` (R123, R130 to R132): both in level 1, `x` with code 0 and `y` with code 1. -/
def Sys2Proof.Machine.isDegenerateTable (t : HufTable) (x y : Nat) : Prop :=
  t.total = 2#9 ∧ t.depth = 1#4 ∧ t.limited = false ∧ t.degen = true ∧
  (∀ l, t.lcnt.read l = if l = 1 then 2#9 else 0#9) ∧
  (∀ l, t.lbase.read l = if 2 ≤ l ∧ l ≤ 15 then 2#9 else 0#9) ∧
  t.syms.read 0 = BitVec.ofNat 9 x ∧ t.syms.read 1 = BitVec.ofNat 9 y ∧
  (∀ s, t.cw.read s = if s = x then { code := 0#15, len := 1#4 } else if s = y then { code := 1#15, len := 1#4 }
    else { code := 0#15, len := 0#4 })

/-- The degenerate cases (R123): no live symbol, one live symbol, and no other. -/
def Obligations.HufDegenerateCases : Prop :=
  (∀ freq : Memory (BitVec 32), (∀ s, s < 288 → freq.read s = 0#32) → isDegenerateTable (hufBuild freq) 0 1) ∧
  (∀ (freq : Memory (BitVec 32)) (s : Nat), s < 288 → freq.read s ≠ 0#32 → (∀ u, u < 288 → u ≠ s → freq.read u = 0#32) →
    isDegenerateTable (hufBuild freq) (min s (if s = 0 then 1 else 0)) (max s (if s = 0 then 1 else 0))) ∧
  (∀ (freq : Memory (BitVec 32)) (s u : Nat), s < 288 → u < 288 → s ≠ u → freq.read s ≠ 0#32 → freq.read u ≠ 0#32 →
    (hufBuild freq).degen = false)

/-- `live` and `sorted` (R124, R125): the live symbols in ascending order, and the same symbols by descending frequency, equal frequencies in
ascending order of the symbol. -/
def Obligations.HufSortIsStableDescending : Prop :=
  ∀ freq : Memory (BitVec 32),
    ((hufLive 288 freq).map fun e => e.1) = (List.range 288).filter (fun s => decide (freq.read s ≠ 0#32)) ∧
    (∀ e ∈ hufLive 288 freq, e.2 = (freq.read e.1).toNat) ∧
    (hufSort (hufLive 288 freq)).Perm (hufLive 288 freq) ∧
    (hufSort (hufLive 288 freq)).Pairwise (fun x y => y.2 < x.2 ∨ (x.2 = y.2 ∧ x.1 < y.1))

/-- `remove-min` (R126) takes out a node of smallest weight, the one of smallest serial among those, keeps the others, and does not depend on
how the queue is laid out. -/
def Obligations.HufRemoveMinTakesSmallest : Prop :=
  (∀ (x : HufNode) (q : List HufNode),
    ((hufRemoveMin x q).1 :: (hufRemoveMin x q).2).Perm (x :: q) ∧
    ∀ y ∈ (hufRemoveMin x q).2, (hufRemoveMin x q).1.weight < y.weight ∨
      ((hufRemoveMin x q).1.weight = y.weight ∧ (hufRemoveMin x q).1.serial ≤ y.serial)) ∧
  (∀ (x x' : HufNode) (q q' : List HufNode), (x :: q).Perm (x' :: q') → ((x :: q).map fun y => y.serial).Nodup →
    (hufRemoveMin x q).1 = (hufRemoveMin x' q').1)

/-- The tree (R127, R128): with `m >= 2` leaves the final vector is that of the loop of R127, each pass of which takes out two nodes by
`remove-min` and inserts their sum under the next serial; it has no leaf at the root, `m` leaves in all, a depth of at most `m - 1`, and
Kraft sum 1, so it is the leaf count of a full binary tree. -/
def Obligations.HufTreeVectorIsFull : Prop :=
  ∀ sorted : List (Nat × Nat), 2 ≤ sorted.length →
    HufTreeOf sorted.length
      ((List.range sorted.length).map fun i => { weight := (sorted.getD i (0, 0)).2, serial := i, vec := [1] })
      (hufTreeVec sorted) ∧
    (hufTreeVec sorted).getD 0 0 = 0 ∧ (hufTreeVec sorted).sum = sorted.length ∧
    2 ≤ (hufTreeVec sorted).length ∧ (hufTreeVec sorted).length ≤ sorted.length ∧
    ((List.range (hufTreeVec sorted).length).map
      (fun d => (hufTreeVec sorted).getD d 0 * 2 ^ ((hufTreeVec sorted).length - 1 - d))).sum =
      2 ^ ((hufTreeVec sorted).length - 1)

/-- Height limiting (R129): from any vector of at most 288 leaves with Kraft sum 1 and no leaf at the root, the counts of the levels 1 to 15 are
those the loop of R129 ends with (of a vector no deeper than 15, the vector's own), and have as many leaves and Kraft sum 1. -/
def Obligations.HufLimitingKeepsLeavesAndKraft : Prop :=
  ∀ vec : List Nat, 2 ≤ vec.length → vec.getD 0 0 = 0 → vec.sum ≤ 288 → 1 ≤ vec.getD (vec.length - 1) 0 →
    ((List.range vec.length).map (fun d => vec.getD d 0 * 2 ^ (vec.length - 1 - d))).sum = 2 ^ (vec.length - 1) →
    (∃ final : Nat → Nat, HufLimitsTo (vec.length - 1) (fun d => vec.getD d 0) final ∧
      ∀ l, 1 ≤ l → l ≤ 15 → (hufLevelCounts 15 vec).getD (l - 1) 0 = final l) ∧
    (hufLevelCounts 15 vec).length = 15 ∧ (hufLevelCounts 15 vec).sum = vec.sum ∧
    ((List.range 15).map (fun i => (hufLevelCounts 15 vec).getD i 0 * 2 ^ (14 - i))).sum = 2 ^ 15

/-- The code is complete for every frequency array (R138 (a)): the sum over the levels of `LCNT[l] * 2^(15 - l)` is `2^15`. With two or more live
symbols and no limiting it is a Huffman code (R138 (g)): no assignment of words to the live symbols, none of them the beginning of another,
has a smaller weighted length. -/
def Obligations.HufCodeIsCompleteAndMinimal : Prop :=
  (∀ freq : Memory (BitVec 32),
    ((List.range 15).map (fun i => ((hufBuild freq).lcnt.read (i + 1)).toNat * 2 ^ (14 - i))).sum = 2 ^ 15) ∧
  (∀ (freq : Memory (BitVec 32)) (word : Nat → List Bool), 2 ≤ (hufLive 288 freq).length → (hufBuild freq).limited = false →
    (∀ s u, s < 288 → u < 288 → s ≠ u → freq.read s ≠ 0#32 → freq.read u ≠ 0#32 → ¬ word s <+: word u) →
    ((List.range 288).map fun s => (freq.read s).toNat * ((hufBuild freq).cw.read s).len.toNat).sum ≤
      ((List.range 288).map fun s => (freq.read s).toNat * (word s).length).sum)

/-- Levels and canonical codes (R128, R130, R131, R132): with two or more live symbols the counts are those of the limited tree vector, `limited`
is 1 exactly when the tree is deeper than 15, and a level holds its share of the sorted symbols; the bases add up, the codes of a level are
consecutive in ascending symbol order from the level's first code, which is twice the code after the level before, and a symbol in no level
has the codeword `(0, 0)`. -/
def Obligations.HufCodesAreCanonical : Prop :=
  ∀ (freq : Memory (BitVec 32)) (t : HufTable), t = hufBuild freq →
    (∀ sorted vec, sorted = hufSort (hufLive 288 freq) → vec = hufTreeVec sorted → 2 ≤ sorted.length →
      (t.limited = true ↔ 15 < vec.length - 1) ∧
      (∀ l, 1 ≤ l → l ≤ 15 → (t.lcnt.read l).toNat = (hufLevelCounts 15 vec).getD (l - 1) 0) ∧
      (∀ l j, 1 ≤ l → l ≤ 15 → (t.lbase.read l).toNat ≤ j → j < (t.lbase.read l).toNat + (t.lcnt.read l).toNat →
        (t.cw.read (sorted.getD j (0, 0)).1).len.toNat = l)) ∧
    (t.lbase.read 1 = 0#9) ∧
    (∀ l, 1 ≤ l → l < 15 → (t.lbase.read (l + 1)).toNat = (t.lbase.read l).toNat + (t.lcnt.read l).toNat) ∧
    (t.total.toNat = (t.lbase.read 15).toNat + (t.lcnt.read 15).toNat) ∧
    (1 ≤ t.depth.toNat ∧ t.lcnt.read t.depth.toNat ≠ 0#9 ∧ ∀ l, t.depth.toNat < l → t.lcnt.read l = 0#9) ∧
    (∃ first : Nat → Nat, first 1 = 0 ∧ (∀ l, 1 ≤ l → first (l + 1) = (first l + (t.lcnt.read l).toNat) * 2) ∧
      ∀ l i, 1 ≤ l → l ≤ 15 → i < (t.lcnt.read l).toNat →
        first l + i < 2 ^ l ∧
        t.cw.read (t.syms.read ((t.lbase.read l).toNat + i)).toNat =
          { code := BitVec.ofNat 15 (first l + i), len := BitVec.ofNat 4 l }) ∧
    (∀ l i j, 1 ≤ l → l ≤ 15 → i < j → j < (t.lcnt.read l).toNat →
      (t.syms.read ((t.lbase.read l).toNat + i)).toNat < (t.syms.read ((t.lbase.read l).toNat + j)).toNat) ∧
    (∀ s, (∀ i, i < t.total.toNat → (t.syms.read i).toNat ≠ s) → t.cw.read s = { code := 0#15, len := 0#4 })

/-- No codeword is the beginning of another (R138 (c)). -/
def Obligations.HufCodeIsPrefixFree : Prop :=
  ∀ (freq : Memory (BitVec 32)) (s u : Nat), s ≠ u →
    ((hufBuild freq).cw.read s).len ≠ 0#4 → ((hufBuild freq).cw.read u).len ≠ 0#4 →
    ((hufBuild freq).cw.read s).len.toNat ≤ ((hufBuild freq).cw.read u).len.toNat →
    ((hufBuild freq).cw.read u).code.toNat /
      2 ^ (((hufBuild freq).cw.read u).len.toNat - ((hufBuild freq).cw.read s).len.toNat) ≠
      ((hufBuild freq).cw.read s).code.toNat

/-- Every live symbol has a codeword, with two live symbols no other symbol has one, a more frequent symbol has no longer codeword
(R138 (e), (f)), and of two symbols of equal frequency the smaller has no longer codeword (R125, R130). -/
def Obligations.HufLengthsFollowFrequency : Prop :=
  ∀ freq : Memory (BitVec 32),
    (∀ s, s < 288 → freq.read s ≠ 0#32 → ((hufBuild freq).cw.read s).len ≠ 0#4) ∧
    (∀ s u v, s < 288 → u < 288 → s ≠ u → freq.read s ≠ 0#32 → freq.read u ≠ 0#32 →
      (288 ≤ v ∨ freq.read v = 0#32) → (hufBuild freq).cw.read v = { code := 0#15, len := 0#4 }) ∧
    (∀ s u, s < 288 → u < 288 → freq.read u ≠ 0#32 →
      ((freq.read u).toNat < (freq.read s).toNat ∨ (freq.read s = freq.read u ∧ s < u)) →
      ((hufBuild freq).cw.read s).len.toNat ≤ ((hufBuild freq).cw.read u).len.toNat)

/-- The code is a function of the lengths alone (R138 (h)): two frequency arrays that give every symbol the same length give the same `CW`. -/
def Obligations.HufCodesFollowFromLengths : Prop :=
  ∀ freq freq' : Memory (BitVec 32),
    (∀ s, s < 288 → ((hufBuild freq).cw.read s).len = ((hufBuild freq').cw.read s).len) → (hufBuild freq).cw = (hufBuild freq').cw

/-! WIN. -/

/-- `WIN.INIT` (R161): an empty window of `2^exp` bytes, `WIN_READY` set, `WIN_FOUND` cleared, `LALEN` 0, all else as before; an exponent outside
8 to 15 raises `E_RANGE`. -/
def Obligations.WinInitEmptiesWindow : Prop :=
  CommandWords 0x20#8 true false (fun a _ => .winInit a) ∧
  ∀ (s : State) (e : FieldA), s.unlocked →
    ((e.toNat < 8 ∨ 15 < e.toNat) → exec (.winInit e) s = .next (errorEntry s 0x20#8 4#8)) ∧
    (8 ≤ e.toNat → e.toNat ≤ 15 →
      ∃ w : WinState, w.exp.toNat = e.toNat ∧ w.n = 0#64 ∧ w.lalen = 0#9 ∧ w.la = s.win.la ∧
        (∀ i, w.ring.read i = 0#8 ∧ w.head.read i = none ∧ w.next.read i = none) ∧
        exec (.winInit e) s = .next (answered
          { s with win := w, status := { s.status with winReady := true, winFound := false } } 0#64))

/-- `WIN.REG` (R166) with `register` (R165): the byte enters the ring, the entry of the occurrence that leaves the window is removed if `HEAD`
still points at it, the new occurrence is linked to the previous holder of its key and becomes the holder. -/
def Obligations.WinRegRegistersByte : Prop :=
  CommandWords 0x21#8 true false (fun a _ => .winReg a) ∧
  ∀ (s : State) (byte : FieldA), s.unlocked →
    (s.status.winReady = false → exec (.winReg byte) s = .next (errorEntry s 0x21#8 3#8)) ∧
    (s.status.winReady = true → 255 < byte.toNat → exec (.winReg byte) s = .next (errorEntry s 0x21#8 4#8)) ∧
    (s.status.winReady = true → byte.toNat ≤ 255 → s.win.n.toNat = 2 ^ 64 - 1 →
      exec (.winReg byte) s = .next (errorEntry s 0x21#8 5#8)) ∧
    (s.status.winReady = true → byte.toNat ≤ 255 → s.win.n.toNat ≠ 2 ^ 64 - 1 →
      ∃ w : WinState,
        exec (.winReg byte) s = .next (answered { s with win := w } 0#64) ∧
        w.exp = s.win.exp ∧ w.la = s.win.la ∧ w.lalen = s.win.lalen ∧ w.n.toNat = s.win.n.toNat + 1 ∧
        ∀ p W kOld kNew, p = s.win.n.toNat → W = 2 ^ s.win.exp.toNat →
          kOld = (s.win.ring.read (p % W)).toNat * 65536 + (s.win.ring.read ((p - W + 1) % W)).toNat * 256 +
            (s.win.ring.read ((p - W + 2) % W)).toNat →
          kNew = (w.ring.read ((p - 2) % W)).toNat * 65536 + (w.ring.read ((p - 1) % W)).toNat * 256 + byte.toNat →
          (∀ i, w.ring.read i = if i = p % W then BitVec.ofNat 8 byte.toNat else s.win.ring.read i) ∧
          (∀ k, w.head.read k =
            if 2 ≤ p ∧ k = kNew then some (BitVec.ofNat 64 p)
            else if W ≤ p ∧ k = kOld ∧ s.win.head.read k = some (BitVec.ofNat 64 (p - W + 2)) then none
            else s.win.head.read k) ∧
          (∀ i, w.next.read i =
            if i = p % W then
              (if p < 2 then none
               else if W ≤ p ∧ kNew = kOld ∧ s.win.head.read kNew = some (BitVec.ofNat 64 (p - W + 2)) then none
               else s.win.head.read kNew)
            else s.win.next.read i))

/-- `WIN.LACLR` and `WIN.LAPUT` (R167, R171): the lookahead is emptied, or takes one byte more at its end; `E_RANGE` before `E_FULL`. -/
def Obligations.WinLookaheadClearsAndAppends : Prop :=
  CommandWords 0x22#8 false false (fun _ _ => .winLaclr) ∧
  CommandWords 0x23#8 true false (fun a _ => .winLaput a) ∧
  ∀ (s : State) (byte : FieldA), s.unlocked →
    (s.status.winReady = false →
      exec .winLaclr s = .next (errorEntry s 0x22#8 3#8) ∧ exec (.winLaput byte) s = .next (errorEntry s 0x23#8 3#8)) ∧
    (s.status.winReady = true →
      exec .winLaclr s = .next (answered { s with win := { s.win with lalen := 0#9 } } 0#64) ∧
      (255 < byte.toNat → exec (.winLaput byte) s = .next (errorEntry s 0x23#8 4#8)) ∧
      (byte.toNat ≤ 255 → s.win.lalen.toNat = 258 → exec (.winLaput byte) s = .next (errorEntry s 0x23#8 5#8)) ∧
      (byte.toNat ≤ 255 → s.win.lalen.toNat < 258 →
        ∃ (m : Memory Byte) (len : BitVec 9), len.toNat = s.win.lalen.toNat + 1 ∧
          (∀ i, m.read i = if i = s.win.lalen.toNat then BitVec.ofNat 8 byte.toNat else s.win.la.read i) ∧
          exec (.winLaput byte) s = .next (answered { s with win := { s.win with la := m, lalen := len } } 0#64)))

/-- `WIN.MATCH` (R172): the response holds the length, the distance and the bit `found` of `match()`, or 0; `WIN_FOUND` is written, nothing else;
so the command repeated gives the same response. An empty window whose index is right gives no match. -/
def Obligations.WinMatchAnswersMatchResult : Prop :=
  CommandWords 0x24#8 false false (fun _ _ => .winMatch) ∧
  ∀ s : State, s.unlocked →
    (s.status.winReady = false → exec .winMatch s = .next (errorEntry s 0x24#8 3#8)) ∧
    (s.status.winReady = true → winMatch s.win = none →
      exec .winMatch s = .next (answered { s with status := { s.status with winFound := false } } 0#64)) ∧
    (∀ m : WinMatch, s.status.winReady = true → winMatch s.win = some m →
      exec .winMatch s = .next (answered { s with status := { s.status with winFound := true } }
        (BitVec.ofNat 64 (m.len + m.dist * 2 ^ 16 + 2 ^ 32)))) ∧
    (s.status.winReady = true → ∃ (found : Bool) (data : Word) (t : State),
      t = { s with status := { s.status with winFound := found } } ∧
      exec .winMatch s = .next (answered t data) ∧ exec .winMatch t = .next (answered t data)) ∧
    (s.status.winReady = true → WinIndexOk s.win → s.win.n = 0#64 →
      exec .winMatch s = .next (answered { s with status := { s.status with winFound := false } } 0#64))

/-- `WIN.RDB` and `WIN.RDN` (R173, R174): the byte at a distance inside the window, the count of registered bytes; nothing changes. -/
def Obligations.WinReadsAnswerByteAndCount : Prop :=
  CommandWords 0x25#8 false true (fun _ b => .winRdb b) ∧
  CommandWords 0x26#8 false false (fun _ _ => .winRdn) ∧
  ∀ (s : State) (dist : FieldB), s.unlocked →
    (s.status.winReady = false →
      exec (.winRdb dist) s = .next (errorEntry s 0x25#8 3#8) ∧ exec .winRdn s = .next (errorEntry s 0x26#8 3#8)) ∧
    (s.status.winReady = true →
      exec .winRdn s = .next (answered s s.win.n) ∧
      ((dist.toNat < 1 ∨ min s.win.n.toNat (2 ^ s.win.exp.toNat) < dist.toNat) →
        exec (.winRdb dist) s = .next (errorEntry s 0x25#8 4#8)) ∧
      (1 ≤ dist.toNat → dist.toNat ≤ s.win.n.toNat → dist.toNat ≤ 2 ^ s.win.exp.toNat →
        exec (.winRdb dist) s = .next (answered s
          (BitVec.ofNat 64 (s.win.ring.read ((s.win.n.toNat - dist.toNat) % 2 ^ s.win.exp.toNat)).toNat))))

/-- The byte that a back-reference of distance `d` would produce at offset `i` (R168), written out. -/
def Sys2Proof.Machine.sourceByte (w : WinState) (d i : Nat) : Byte :=
  if i < d then w.ring.read ((w.n.toNat - d + i) % 2 ^ w.exp.toNat) else w.la.read (i - d)

/-- Candidate extension (R168): `ext(d)` is the largest `l <= min(258, LALEN)` such that the lookahead agrees with the candidate below `l`. -/
def Obligations.CandidateExtensionIsLargest : Prop :=
  ∀ (w : WinState) (d : Nat), 1 ≤ d → d ≤ w.n.toNat → d ≤ 2 ^ w.exp.toNat →
    winExtend w d ≤ 258 ∧ winExtend w d ≤ w.lalen.toNat ∧
    (∀ i, i < winExtend w d → w.la.read i = sourceByte w d i) ∧
    (∀ l, l ≤ 258 → l ≤ w.lalen.toNat → (∀ i, i < l → w.la.read i = sourceByte w d i) → l ≤ winExtend w d)

/-- The procedure `match` of R169, which walks the index, returns the best match stated without the index (R170), in every state whose index is
right. -/
def Obligations.MatchWalkFindsBestMatch : Prop :=
  ∀ w : WinState, WinIndexOk w → winIsBest w (winMatch w)

/-- Every match returned (R175): its bounds, that it copies what the registered bytes followed by the lookahead hold, that no distance in the
window gives a longer candidate and no smaller one an equal candidate, and that the byte after it differs. -/
def Obligations.MatchesAreValid : Prop :=
  ∀ (w : WinState) (m : WinMatch), WinIndexOk w → winMatch w = some m →
    3 ≤ m.len ∧ m.len ≤ 258 ∧ m.len ≤ w.lalen.toNat ∧ 1 ≤ m.dist ∧ m.dist ≤ w.n.toNat ∧ m.dist ≤ 2 ^ w.exp.toNat ∧
    (∀ i, i < m.len → w.la.read i = sourceByte w m.dist i) ∧
    (∀ d l, 1 ≤ d → d ≤ w.n.toNat → d ≤ 2 ^ w.exp.toNat → l ≤ 258 → l ≤ w.lalen.toNat →
      (∀ i, i < l → w.la.read i = sourceByte w d i) → l ≤ m.len ∧ (l = m.len → m.dist ≤ d)) ∧
    (m.len < 258 → m.len < w.lalen.toNat → w.la.read m.len ≠ sourceByte w m.dist m.len)

/-! FLT. -/

/-- `FLT.CFG` (R206): the four registers, every byte of the three rows 0, `FLT_READY` set, the response; `E_RANGE` for a pixel size outside 1 to 64
or a row above 65536 bytes, the old configuration untouched. -/
def Obligations.FltCfgConfiguresRows : Prop :=
  CommandWords 0x30#8 true true (fun a b => .fltCfg a b) ∧
  ∀ (s : State) (bpp : FieldA) (width : FieldB), s.unlocked →
    ((bpp.toNat < 1 ∨ 64 < bpp.toNat ∨ 65536 < (width.toNat * bpp.toNat + 7) / 8) →
      exec (.fltCfg bpp width) s = .next (errorEntry s 0x30#8 4#8)) ∧
    (1 ≤ bpp.toNat → bpp.toNat ≤ 64 → (width.toNat * bpp.toNat + 7) / 8 ≤ 65536 →
      ∃ f : FltState, f.bpp.toNat = bpp.toNat ∧ f.width = width ∧ f.delay.toNat = (bpp.toNat + 7) / 8 ∧
        f.rowlen.toNat = (width.toNat * bpp.toNat + 7) / 8 ∧
        (∀ i, f.line.read i = 0#8 ∧ f.prev.read i = 0#8 ∧ f.out.read i = 0#8) ∧
        exec (.fltCfg bpp width) s = .next (answered { s with flt := f, status := { s.status with fltReady := true } }
          (BitVec.ofNat 64 ((width.toNat * bpp.toNat + 7) / 8 + (bpp.toNat + 7) / 8 * 2 ^ 32))))

/-- `FLT.WRL` and `FLT.WRP` (R207, R209): that one byte of the row is replaced, nothing else; the previous row has no index 0. -/
def Obligations.FltWritesReplaceOneByte : Prop :=
  CommandWords 0x31#8 true true (fun a b => .fltWrl a b) ∧
  CommandWords 0x33#8 true true (fun a b => .fltWrp a b) ∧
  ∀ (s : State) (byte : FieldA) (idx : FieldB), s.unlocked →
    (s.status.fltReady = false →
      exec (.fltWrl byte idx) s = .next (errorEntry s 0x31#8 3#8) ∧
      exec (.fltWrp byte idx) s = .next (errorEntry s 0x33#8 3#8)) ∧
    (s.status.fltReady = true →
      ((s.flt.rowlen.toNat < idx.toNat ∨ 255 < byte.toNat) →
        exec (.fltWrl byte idx) s = .next (errorEntry s 0x31#8 4#8)) ∧
      (idx.toNat ≤ s.flt.rowlen.toNat → byte.toNat ≤ 255 →
        ∃ m : Memory Byte, (∀ i, m.read i = if i = idx.toNat then BitVec.ofNat 8 byte.toNat else s.flt.line.read i) ∧
          exec (.fltWrl byte idx) s = .next (answered { s with flt := { s.flt with line := m } } 0#64)) ∧
      ((idx.toNat < 1 ∨ s.flt.rowlen.toNat < idx.toNat ∨ 255 < byte.toNat) →
        exec (.fltWrp byte idx) s = .next (errorEntry s 0x33#8 4#8)) ∧
      (1 ≤ idx.toNat → idx.toNat ≤ s.flt.rowlen.toNat → byte.toNat ≤ 255 →
        ∃ m : Memory Byte, (∀ i, m.read i = if i = idx.toNat then BitVec.ofNat 8 byte.toNat else s.flt.prev.read i) ∧
          exec (.fltWrp byte idx) s = .next (answered { s with flt := { s.flt with prev := m } } 0#64)))

/-- `FLT.RDL`, `FLT.RDP`, `FLT.RDO` (R208, R210, R218): the byte asked for; nothing changes. -/
def Obligations.FltReadsAnswerOneByte : Prop :=
  CommandWords 0x32#8 false true (fun _ b => .fltRdl b) ∧
  CommandWords 0x34#8 false true (fun _ b => .fltRdp b) ∧
  CommandWords 0x35#8 false true (fun _ b => .fltRdo b) ∧
  ∀ (s : State) (idx : FieldB), s.unlocked →
    (s.status.fltReady = false →
      exec (.fltRdl idx) s = .next (errorEntry s 0x32#8 3#8) ∧ exec (.fltRdp idx) s = .next (errorEntry s 0x34#8 3#8) ∧
      exec (.fltRdo idx) s = .next (errorEntry s 0x35#8 3#8)) ∧
    (s.status.fltReady = true →
      (s.flt.rowlen.toNat < idx.toNat →
        exec (.fltRdl idx) s = .next (errorEntry s 0x32#8 4#8) ∧ exec (.fltRdo idx) s = .next (errorEntry s 0x35#8 4#8)) ∧
      ((idx.toNat < 1 ∨ s.flt.rowlen.toNat < idx.toNat) → exec (.fltRdp idx) s = .next (errorEntry s 0x34#8 4#8)) ∧
      (idx.toNat ≤ s.flt.rowlen.toNat →
        exec (.fltRdl idx) s = .next (answered s (BitVec.ofNat 64 (s.flt.line.read idx.toNat).toNat)) ∧
        exec (.fltRdo idx) s = .next (answered s (BitVec.ofNat 64 (s.flt.out.read idx.toNat).toNat))) ∧
      (1 ≤ idx.toNat → idx.toNat ≤ s.flt.rowlen.toNat →
        exec (.fltRdp idx) s = .next (answered s (BitVec.ofNat 64 (s.flt.prev.read idx.toNat).toNat))))

/-- The byte `d` places before index `i` of a row, 0 left of the first pixel (R202), written out. -/
def Sys2Proof.Machine.leftOf (row : Memory Byte) (d i : Nat) : Byte := if d < i then row.read (i - d) else 0#8

/-- `FLT.DEFILT` (R215, R211): each data byte becomes itself plus the prediction from the reconstructed byte to its left and the previous row,
modulo 256; a tag above 4 changes nothing; the tag, `PREV`, `OUT` and all else stay; the response is the tag. -/
def Obligations.FltDefiltReconstructsRow : Prop :=
  CommandWords 0x36#8 false false (fun _ _ => .fltDefilt) ∧
  ∀ s : State, s.unlocked →
    (s.status.fltReady = false → exec .fltDefilt s = .next (errorEntry s 0x36#8 3#8)) ∧
    (s.status.fltReady = true → 1 ≤ s.flt.delay.toNat →
      ∃ m : Memory Byte,
        exec .fltDefilt s = .next (answered { s with flt := { s.flt with line := m } }
          (BitVec.ofNat 64 (s.flt.line.read 0).toNat)) ∧
        (4 < (s.flt.line.read 0).toNat → m = s.flt.line) ∧
        ((s.flt.line.read 0).toNat ≤ 4 → ∀ i,
          m.read i = if 1 ≤ i ∧ i ≤ s.flt.rowlen.toNat then
            s.flt.line.read i + fltPredict (s.flt.line.read 0).toNat (leftOf m s.flt.delay.toNat i) (s.flt.prev.read i)
              (leftOf s.flt.prev s.flt.delay.toNat i)
            else s.flt.line.read i))

/-- The number of adjacent pairs of data bytes that differ (R213), written out. -/
def Sys2Proof.Machine.pairsThatDiffer (rl : Nat) (o : Memory Byte) : Nat :=
  ((Finset.Icc 2 rl).filter fun i => o.read i ≠ o.read (i - 1)).card

/-- A row is the filtered row of type `t` (R212): the tag, and each data byte minus the prediction from the raw row, modulo 256. -/
def Sys2Proof.Machine.isFilteredRow (o : Memory Byte) (t d rl : Nat) (line prev : Memory Byte) : Prop :=
  o.read 0 = BitVec.ofNat 8 t ∧
  ∀ i, 1 ≤ i → i ≤ rl → o.read i = line.read i - fltPredict t (leftOf line d i) (prev.read i) (leftOf prev d i)

/-- `FLT.FILT` (R216, R212, R213): `OUT` becomes the filtered row of the type, `LINE`, `PREV` and all else stay, the response is the score; a type
above 4 raises `E_RANGE`. -/
def Obligations.FltFiltFiltersRow : Prop :=
  CommandWords 0x37#8 true false (fun a _ => .fltFilt a) ∧
  ∀ (s : State) (type : FieldA), s.unlocked →
    (s.status.fltReady = false → exec (.fltFilt type) s = .next (errorEntry s 0x37#8 3#8)) ∧
    (s.status.fltReady = true → 4 < type.toNat → exec (.fltFilt type) s = .next (errorEntry s 0x37#8 4#8)) ∧
    (s.status.fltReady = true → type.toNat ≤ 4 → s.flt.rowlen.toNat ≤ 65536 →
      ∃ o : Memory Byte, isFilteredRow o type.toNat s.flt.delay.toNat s.flt.rowlen.toNat s.flt.line s.flt.prev ∧
        exec (.fltFilt type) s = .next (answered { s with flt := { s.flt with out := o } }
          (BitVec.ofNat 64 (pairsThatDiffer s.flt.rowlen.toNat o))))

/-- `FLT.AUTO` (R217, R214): `OUT` becomes the filtered row of smallest score, the smallest type among equal scores; `LINE`, `PREV` and all else
stay; the response holds the type and the score. -/
def Obligations.FltAutoPicksSmallestScore : Prop :=
  CommandWords 0x38#8 false false (fun _ _ => .fltAuto) ∧
  ∀ s : State, s.unlocked →
    (s.status.fltReady = false → exec .fltAuto s = .next (errorEntry s 0x38#8 3#8)) ∧
    (s.status.fltReady = true → s.flt.rowlen.toNat ≤ 65536 →
      ∃ (t : Nat) (o : Memory Byte), t ≤ 4 ∧
        isFilteredRow o t s.flt.delay.toNat s.flt.rowlen.toNat s.flt.line s.flt.prev ∧
        (∀ (t' : Nat) (o' : Memory Byte), t' ≤ 4 →
          isFilteredRow o' t' s.flt.delay.toNat s.flt.rowlen.toNat s.flt.line s.flt.prev →
          pairsThatDiffer s.flt.rowlen.toNat o ≤ pairsThatDiffer s.flt.rowlen.toNat o' ∧
          (pairsThatDiffer s.flt.rowlen.toNat o' = pairsThatDiffer s.flt.rowlen.toNat o → t ≤ t')) ∧
        exec .fltAuto s = .next (answered { s with flt := { s.flt with out := o } }
          (BitVec.ofNat 64 (t + pairsThatDiffer s.flt.rowlen.toNat o * 2 ^ 32))))

/-- `FLT.NEXT` and `FLT.ZPREV` (R219, R220): the data bytes of the previous row become those of the current row, or 0; nothing else changes. -/
def Obligations.FltNextAndZprevSetPreviousRow : Prop :=
  CommandWords 0x39#8 false false (fun _ _ => .fltNext) ∧
  CommandWords 0x3A#8 false false (fun _ _ => .fltZprev) ∧
  ∀ s : State, s.unlocked →
    (s.status.fltReady = false →
      exec .fltNext s = .next (errorEntry s 0x39#8 3#8) ∧ exec .fltZprev s = .next (errorEntry s 0x3A#8 3#8)) ∧
    (s.status.fltReady = true →
      (∃ m : Memory Byte,
        (∀ i, m.read i = if 1 ≤ i ∧ i ≤ s.flt.rowlen.toNat then s.flt.line.read i else s.flt.prev.read i) ∧
        exec .fltNext s = .next (answered { s with flt := { s.flt with prev := m } } 0#64)) ∧
      (∃ m : Memory Byte,
        (∀ i, m.read i = if 1 ≤ i ∧ i ≤ s.flt.rowlen.toNat then 0#8 else s.flt.prev.read i) ∧
        exec .fltZprev s = .next (answered { s with flt := { s.flt with prev := m } } 0#64)))

/-- `r` is the prediction of Paeth (R203): the one of `a`, `b`, `c` nearest to `a + b - c`, `a` before `b` before `c` among equally near ones. -/
def Sys2Proof.Machine.isPaeth (a b c r : Byte) : Prop :=
  ∃ p pa pb pc : Int, p = (a.toNat : Int) + b.toNat - c.toNat ∧
    pa = |p - a.toNat| ∧ pb = |p - b.toNat| ∧ pc = |p - c.toNat| ∧
    (pa ≤ pb → pa ≤ pc → r = a) ∧ (¬ (pa ≤ pb ∧ pa ≤ pc) → pb ≤ pc → r = b) ∧
    (¬ (pa ≤ pb ∧ pa ≤ pc) → ¬ pb ≤ pc → r = c)

/-- `FLT.PAETH` (R221, R203): the predicted byte of the packed operands, without configuration, nothing changes; `B[31:24]` not 0 raises
`E_RANGE`. -/
def Obligations.FltPaethAnswersPrediction : Prop :=
  CommandWords 0x3B#8 false true (fun _ b => .fltPaeth b) ∧
  ∀ (s : State) (packed : FieldB), s.unlocked →
    (2 ^ 24 ≤ packed.toNat → exec (.fltPaeth packed) s = .next (errorEntry s 0x3B#8 4#8)) ∧
    (packed.toNat < 2 ^ 24 →
      ∃ r : Byte, isPaeth (packed.extractLsb' 0 8) (packed.extractLsb' 8 8) (packed.extractLsb' 16 8) r ∧
        exec (.fltPaeth packed) s = .next (answered s (BitVec.ofNat 64 r.toNat)))

/-- The predictor of each filter type (R204). -/
def Obligations.FltPredictorPerType : Prop :=
  ∀ a b c : Byte,
    fltPredict 0 a b c = 0#8 ∧ fltPredict 1 a b c = a ∧ fltPredict 2 a b c = b ∧
    (fltPredict 3 a b c).toNat = (a.toNat + b.toNat) / 2 ∧ isPaeth a b c (fltPredict 4 a b c) ∧
    ∀ t, 5 ≤ t → fltPredict t a b c = 0#8

/-- Reversing a filtered row gives the raw row back, for every type, every previous row and every delay (R222). -/
def Obligations.DefilterUndoesFilter : Prop :=
  ∀ (t d rl : Nat) (line prev : Memory Byte), t ≤ 4 → 1 ≤ d →
    (fltDefilter d rl (fltFilt t d rl line prev) prev).read 0 = BitVec.ofNat 8 t ∧
    ∀ i, 1 ≤ i → i ≤ rl → (fltDefilter d rl (fltFilt t d rl line prev) prev).read i = line.read i

/-! A7. -/

/-- `A7.SETW` and `A7.SETH` (R245, R246): that one register is written, the response is `(1, 0)`, nothing else changes. -/
def Obligations.A7SetsWriteOneDimension : Prop :=
  CommandWords 0x40#8 false true (fun _ b => .a7Setw b) ∧
  CommandWords 0x41#8 false true (fun _ b => .a7Seth b) ∧
  ∀ (s : State) (v : FieldB), s.unlocked →
    exec (.a7Setw v) s = .next (answered { s with a7 := { w := v, h := s.a7.h } } 0#64) ∧
    exec (.a7Seth v) s = .next (answered { s with a7 := { w := s.a7.w, h := v } } 0#64)

/-- `A7.DESC` (R247, with the table of R241): the seven responses; a pass above 6 raises `E_RANGE`; nothing changes. -/
def Obligations.A7DescAnswersPattern : Prop :=
  CommandWords 0x42#8 true false (fun a _ => .a7Desc a) ∧
  ∀ (s : State) (k : FieldA), s.unlocked →
    (6 < k.toNat → exec (.a7Desc k) s = .next (errorEntry s 0x42#8 4#8)) ∧
    (k = 0#16 → exec (.a7Desc k) s = .next (answered s 0x03030000#64)) ∧
    (k = 1#16 → exec (.a7Desc k) s = .next (answered s 0x03030004#64)) ∧
    (k = 2#16 → exec (.a7Desc k) s = .next (answered s 0x03020400#64)) ∧
    (k = 3#16 → exec (.a7Desc k) s = .next (answered s 0x02020002#64)) ∧
    (k = 4#16 → exec (.a7Desc k) s = .next (answered s 0x02010200#64)) ∧
    (k = 5#16 → exec (.a7Desc k) s = .next (answered s 0x01010001#64)) ∧
    (k = 6#16 → exec (.a7Desc k) s = .next (answered s 0x01000100#64))

/-- `A7.SIZE` (R248, R243): the response holds the two sizes of the sub-image, each the number of `i` with `base + i * 2^e < full`; a pass
above 6 raises `E_RANGE`; nothing changes. -/
def Obligations.A7SizeAnswersSubImage : Prop :=
  CommandWords 0x43#8 true false (fun a _ => .a7Size a) ∧
  (∀ full base e i : Nat, i < a7Sub full base e ↔ base + i * 2 ^ e < full) ∧
  ∀ (s : State) (k : FieldA), s.unlocked →
    (6 < k.toNat → exec (.a7Size k) s = .next (errorEntry s 0x43#8 4#8)) ∧
    (k.toNat ≤ 6 → exec (.a7Size k) s = .next (answered s (BitVec.ofNat 64
      (a7Sub s.a7.w.toNat (a7Pattern k.toNat).bx (a7Pattern k.toNat).ex +
        a7Sub s.a7.h.toNat (a7Pattern k.toNat).byy (a7Pattern k.toNat).ey * 2 ^ 32))))

/-- Pixel `(i, j)` of the sub-image of pass `k` is the pixel `(x, y)` of a `W` by `H` image (R243, R244). -/
def Sys2Proof.Machine.isPassPixel (W H k i j x y : Nat) : Prop :=
  k < 7 ∧ i < a7SubWidth W k ∧ j < a7SubHeight H k ∧ x = a7Column k i ∧ y = a7Row k j

/-- Partition (R249): every pixel of the full image is the pixel of exactly one pass at exactly one place, every pixel of a pass lies in the
image, and the pixel counts add up. -/
def Obligations.A7PassesPartitionImage : Prop :=
  ∀ W H : Nat,
    (∀ x y, x < W → y < H → ∃ k i j, isPassPixel W H k i j x y) ∧
    (∀ k i j k' i' j' x y, isPassPixel W H k i j x y → isPassPixel W H k' i' j' x y → k = k' ∧ i = i' ∧ j = j') ∧
    (∀ k i j x y, isPassPixel W H k i j x y → x < W ∧ y < H) ∧
    ((List.range 7).map fun k => a7SubWidth W k * a7SubHeight H k).sum = W * H

/-! Invariants. -/

/-- The invariant of the block holds at reset. The values that reset leaves the HUF outputs, WIN and FLT at, and what an unlisted element reads
as, are the model's choice (Log 5 to Log 8). -/
def Obligations.InvariantHoldsAtReset : Prop := State.reset.Inv

/-- Every step keeps every memory in its canonical form and within its index range (R60, R61). What an unlisted element reads as, and what a
reset leaves the items without a reset value at, are the model's choice (Log 5 to Log 8). -/
def Obligations.StepKeepsMemoriesCanonical : Prop :=
  ∀ s t : State, s.memoriesOk = true → step s = .next t → t.memoriesOk = true

/-- Every step keeps the index of the window right (R32 (b), R164). -/
def Obligations.StepKeepsWindowIndex : Prop :=
  ∀ s t : State, WinOk s → step s = .next t → WinOk t

/-- Every step keeps the latch consistent (R32 (d)), a valid table equal to `HufBuild(FREQ)` (R32 (a)), the row geometry (R32 (c)) and the flags of
a unit behind its gate. -/
def Obligations.StepKeepsLatchTableAndGeometry : Prop :=
  ∀ s t : State, LatchOk s.status → GatesOk s.status → HufOk s → FltOk s → step s = .next t →
    LatchOk t.status ∧ GatesOk t.status ∧ HufOk t ∧ FltOk t
end

