-- ==== Sys2Proof/Laws/State.lean ====
section
/-! SUPPORT. One lemma per field for each named update of State and of Status. -/

namespace Sys2Proof.Machine

@[simp] theorem withStatus_status (s : State) (st : Status) : (s.withStatus st).status = st := rfl
@[simp] theorem withStatus_huf (s : State) (st : Status) : (s.withStatus st).huf = s.huf := rfl
@[simp] theorem withStatus_win (s : State) (st : Status) : (s.withStatus st).win = s.win := rfl
@[simp] theorem withStatus_flt (s : State) (st : Status) : (s.withStatus st).flt = s.flt := rfl
@[simp] theorem withStatus_a7 (s : State) (st : Status) : (s.withStatus st).a7 = s.a7 := rfl
@[simp] theorem withStatus_inbox (s : State) (st : Status) : (s.withStatus st).inbox = s.inbox := rfl
@[simp] theorem withStatus_outbox (s : State) (st : Status) : (s.withStatus st).outbox = s.outbox := rfl

@[simp] theorem withHuf_status (s : State) (h : HufState) : (s.withHuf h).status = s.status := rfl
@[simp] theorem withHuf_huf (s : State) (h : HufState) : (s.withHuf h).huf = h := rfl
@[simp] theorem withHuf_win (s : State) (h : HufState) : (s.withHuf h).win = s.win := rfl
@[simp] theorem withHuf_flt (s : State) (h : HufState) : (s.withHuf h).flt = s.flt := rfl
@[simp] theorem withHuf_a7 (s : State) (h : HufState) : (s.withHuf h).a7 = s.a7 := rfl
@[simp] theorem withHuf_inbox (s : State) (h : HufState) : (s.withHuf h).inbox = s.inbox := rfl
@[simp] theorem withHuf_outbox (s : State) (h : HufState) : (s.withHuf h).outbox = s.outbox := rfl

@[simp] theorem withWin_status (s : State) (w : WinState) : (s.withWin w).status = s.status := rfl
@[simp] theorem withWin_huf (s : State) (w : WinState) : (s.withWin w).huf = s.huf := rfl
@[simp] theorem withWin_win (s : State) (w : WinState) : (s.withWin w).win = w := rfl
@[simp] theorem withWin_flt (s : State) (w : WinState) : (s.withWin w).flt = s.flt := rfl
@[simp] theorem withWin_a7 (s : State) (w : WinState) : (s.withWin w).a7 = s.a7 := rfl
@[simp] theorem withWin_inbox (s : State) (w : WinState) : (s.withWin w).inbox = s.inbox := rfl
@[simp] theorem withWin_outbox (s : State) (w : WinState) : (s.withWin w).outbox = s.outbox := rfl

@[simp] theorem withFlt_status (s : State) (f : FltState) : (s.withFlt f).status = s.status := rfl
@[simp] theorem withFlt_huf (s : State) (f : FltState) : (s.withFlt f).huf = s.huf := rfl
@[simp] theorem withFlt_win (s : State) (f : FltState) : (s.withFlt f).win = s.win := rfl
@[simp] theorem withFlt_flt (s : State) (f : FltState) : (s.withFlt f).flt = f := rfl
@[simp] theorem withFlt_a7 (s : State) (f : FltState) : (s.withFlt f).a7 = s.a7 := rfl
@[simp] theorem withFlt_inbox (s : State) (f : FltState) : (s.withFlt f).inbox = s.inbox := rfl
@[simp] theorem withFlt_outbox (s : State) (f : FltState) : (s.withFlt f).outbox = s.outbox := rfl

@[simp] theorem withA7_status (s : State) (a : A7State) : (s.withA7 a).status = s.status := rfl
@[simp] theorem withA7_huf (s : State) (a : A7State) : (s.withA7 a).huf = s.huf := rfl
@[simp] theorem withA7_win (s : State) (a : A7State) : (s.withA7 a).win = s.win := rfl
@[simp] theorem withA7_flt (s : State) (a : A7State) : (s.withA7 a).flt = s.flt := rfl
@[simp] theorem withA7_a7 (s : State) (a : A7State) : (s.withA7 a).a7 = a := rfl
@[simp] theorem withA7_inbox (s : State) (a : A7State) : (s.withA7 a).inbox = s.inbox := rfl
@[simp] theorem withA7_outbox (s : State) (a : A7State) : (s.withA7 a).outbox = s.outbox := rfl

@[simp] theorem answer_status (s : State) (ok : Bool) (data : Word) : (s.answer ok data).status = s.status := rfl
@[simp] theorem answer_huf (s : State) (ok : Bool) (data : Word) : (s.answer ok data).huf = s.huf := rfl
@[simp] theorem answer_win (s : State) (ok : Bool) (data : Word) : (s.answer ok data).win = s.win := rfl
@[simp] theorem answer_flt (s : State) (ok : Bool) (data : Word) : (s.answer ok data).flt = s.flt := rfl
@[simp] theorem answer_a7 (s : State) (ok : Bool) (data : Word) : (s.answer ok data).a7 = s.a7 := rfl
@[simp] theorem answer_inbox (s : State) (ok : Bool) (data : Word) : (s.answer ok data).inbox = s.inbox := rfl
@[simp] theorem answer_outbox (s : State) (ok : Bool) (data : Word) : (s.answer ok data).outbox = s.outbox ++ [⟨ok, data⟩] := rfl

@[simp] theorem raise_status (s : State) (op : BitVec 8) (e : ErrorCode) : (s.raise op e).status = s.status.latch op e := rfl
@[simp] theorem raise_huf (s : State) (op : BitVec 8) (e : ErrorCode) : (s.raise op e).huf = s.huf := rfl
@[simp] theorem raise_win (s : State) (op : BitVec 8) (e : ErrorCode) : (s.raise op e).win = s.win := rfl
@[simp] theorem raise_flt (s : State) (op : BitVec 8) (e : ErrorCode) : (s.raise op e).flt = s.flt := rfl
@[simp] theorem raise_a7 (s : State) (op : BitVec 8) (e : ErrorCode) : (s.raise op e).a7 = s.a7 := rfl
@[simp] theorem raise_inbox (s : State) (op : BitVec 8) (e : ErrorCode) : (s.raise op e).inbox = s.inbox := rfl
@[simp] theorem raise_outbox (s : State) (op : BitVec 8) (e : ErrorCode) : (s.raise op e).outbox = s.outbox ++ [⟨false, 0#64⟩] := rfl

@[simp] theorem lockedOut_status (s : State) : s.lockedOut.status = s.status := rfl
@[simp] theorem lockedOut_huf (s : State) : s.lockedOut.huf = s.huf := rfl
@[simp] theorem lockedOut_win (s : State) : s.lockedOut.win = s.win := rfl
@[simp] theorem lockedOut_flt (s : State) : s.lockedOut.flt = s.flt := rfl
@[simp] theorem lockedOut_a7 (s : State) : s.lockedOut.a7 = s.a7 := rfl
@[simp] theorem lockedOut_inbox (s : State) : s.lockedOut.inbox = s.inbox := rfl
@[simp] theorem lockedOut_outbox (s : State) : s.lockedOut.outbox = s.outbox ++ [⟨false, 0#64⟩] := rfl

@[simp] theorem toReset_status (s : State) : s.toReset.status = Status.reset := rfl
@[simp] theorem toReset_huf (s : State) : s.toReset.huf = HufState.reset := rfl
@[simp] theorem toReset_win (s : State) : s.toReset.win = WinState.reset := rfl
@[simp] theorem toReset_flt (s : State) : s.toReset.flt = FltState.reset := rfl
@[simp] theorem toReset_a7 (s : State) : s.toReset.a7 = A7State.reset := rfl
@[simp] theorem toReset_inbox (s : State) : s.toReset.inbox = s.inbox := rfl
@[simp] theorem toReset_outbox (s : State) : s.toReset.outbox = s.outbox := rfl

@[simp] theorem withInput_status (s : State) (x : HostInput) : (s.withInput x).status = s.status := rfl
@[simp] theorem withInput_huf (s : State) (x : HostInput) : (s.withInput x).huf = s.huf := rfl
@[simp] theorem withInput_win (s : State) (x : HostInput) : (s.withInput x).win = s.win := rfl
@[simp] theorem withInput_flt (s : State) (x : HostInput) : (s.withInput x).flt = s.flt := rfl
@[simp] theorem withInput_a7 (s : State) (x : HostInput) : (s.withInput x).a7 = s.a7 := rfl
@[simp] theorem withInput_inbox (s : State) (x : HostInput) : (s.withInput x).inbox = x :: s.inbox := rfl
@[simp] theorem withInput_outbox (s : State) (x : HostInput) : (s.withInput x).outbox = s.outbox := rfl

@[simp] theorem latch_err (st : Status) (op : BitVec 8) (e : ErrorCode) : (st.latch op e).err = true := rfl
@[simp] theorem latch_hufValid (st : Status) (op : BitVec 8) (e : ErrorCode) : (st.latch op e).hufValid = st.hufValid := rfl
@[simp] theorem latch_hufLimited (st : Status) (op : BitVec 8) (e : ErrorCode) : (st.latch op e).hufLimited = st.hufLimited := rfl
@[simp] theorem latch_hufDegen (st : Status) (op : BitVec 8) (e : ErrorCode) : (st.latch op e).hufDegen = st.hufDegen := rfl
@[simp] theorem latch_winReady (st : Status) (op : BitVec 8) (e : ErrorCode) : (st.latch op e).winReady = st.winReady := rfl
@[simp] theorem latch_winFound (st : Status) (op : BitVec 8) (e : ErrorCode) : (st.latch op e).winFound = st.winFound := rfl
@[simp] theorem latch_fltReady (st : Status) (op : BitVec 8) (e : ErrorCode) : (st.latch op e).fltReady = st.fltReady := rfl
@[simp] theorem latch_errCode (st : Status) (op : BitVec 8) (e : ErrorCode) : (st.latch op e).errCode = errorNumber e := rfl
@[simp] theorem latch_errOp (st : Status) (op : BitVec 8) (e : ErrorCode) : (st.latch op e).errOp = op := rfl

@[simp] theorem hufCleared_err (st : Status) : st.hufCleared.err = st.err := rfl
@[simp] theorem hufCleared_hufValid (st : Status) : st.hufCleared.hufValid = false := rfl
@[simp] theorem hufCleared_hufLimited (st : Status) : st.hufCleared.hufLimited = false := rfl
@[simp] theorem hufCleared_hufDegen (st : Status) : st.hufCleared.hufDegen = false := rfl
@[simp] theorem hufCleared_winReady (st : Status) : st.hufCleared.winReady = st.winReady := rfl
@[simp] theorem hufCleared_winFound (st : Status) : st.hufCleared.winFound = st.winFound := rfl
@[simp] theorem hufCleared_fltReady (st : Status) : st.hufCleared.fltReady = st.fltReady := rfl
@[simp] theorem hufCleared_errCode (st : Status) : st.hufCleared.errCode = st.errCode := rfl
@[simp] theorem hufCleared_errOp (st : Status) : st.hufCleared.errOp = st.errOp := rfl

@[simp] theorem hufBuilt_err (st : Status) (limited degen : Bool) : (st.hufBuilt limited degen).err = st.err := rfl
@[simp] theorem hufBuilt_hufValid (st : Status) (limited degen : Bool) : (st.hufBuilt limited degen).hufValid = true := rfl
@[simp] theorem hufBuilt_hufLimited (st : Status) (limited degen : Bool) : (st.hufBuilt limited degen).hufLimited = limited := rfl
@[simp] theorem hufBuilt_hufDegen (st : Status) (limited degen : Bool) : (st.hufBuilt limited degen).hufDegen = degen := rfl
@[simp] theorem hufBuilt_winReady (st : Status) (limited degen : Bool) : (st.hufBuilt limited degen).winReady = st.winReady := rfl
@[simp] theorem hufBuilt_winFound (st : Status) (limited degen : Bool) : (st.hufBuilt limited degen).winFound = st.winFound := rfl
@[simp] theorem hufBuilt_fltReady (st : Status) (limited degen : Bool) : (st.hufBuilt limited degen).fltReady = st.fltReady := rfl
@[simp] theorem hufBuilt_errCode (st : Status) (limited degen : Bool) : (st.hufBuilt limited degen).errCode = st.errCode := rfl
@[simp] theorem hufBuilt_errOp (st : Status) (limited degen : Bool) : (st.hufBuilt limited degen).errOp = st.errOp := rfl

@[simp] theorem winOpened_err (st : Status) : st.winOpened.err = st.err := rfl
@[simp] theorem winOpened_hufValid (st : Status) : st.winOpened.hufValid = st.hufValid := rfl
@[simp] theorem winOpened_hufLimited (st : Status) : st.winOpened.hufLimited = st.hufLimited := rfl
@[simp] theorem winOpened_hufDegen (st : Status) : st.winOpened.hufDegen = st.hufDegen := rfl
@[simp] theorem winOpened_winReady (st : Status) : st.winOpened.winReady = true := rfl
@[simp] theorem winOpened_winFound (st : Status) : st.winOpened.winFound = false := rfl
@[simp] theorem winOpened_fltReady (st : Status) : st.winOpened.fltReady = st.fltReady := rfl
@[simp] theorem winOpened_errCode (st : Status) : st.winOpened.errCode = st.errCode := rfl
@[simp] theorem winOpened_errOp (st : Status) : st.winOpened.errOp = st.errOp := rfl

@[simp] theorem winMatched_err (st : Status) (found : Bool) : (st.winMatched found).err = st.err := rfl
@[simp] theorem winMatched_hufValid (st : Status) (found : Bool) : (st.winMatched found).hufValid = st.hufValid := rfl
@[simp] theorem winMatched_hufLimited (st : Status) (found : Bool) : (st.winMatched found).hufLimited = st.hufLimited := rfl
@[simp] theorem winMatched_hufDegen (st : Status) (found : Bool) : (st.winMatched found).hufDegen = st.hufDegen := rfl
@[simp] theorem winMatched_winReady (st : Status) (found : Bool) : (st.winMatched found).winReady = st.winReady := rfl
@[simp] theorem winMatched_winFound (st : Status) (found : Bool) : (st.winMatched found).winFound = found := rfl
@[simp] theorem winMatched_fltReady (st : Status) (found : Bool) : (st.winMatched found).fltReady = st.fltReady := rfl
@[simp] theorem winMatched_errCode (st : Status) (found : Bool) : (st.winMatched found).errCode = st.errCode := rfl
@[simp] theorem winMatched_errOp (st : Status) (found : Bool) : (st.winMatched found).errOp = st.errOp := rfl

@[simp] theorem fltConfigured_err (st : Status) : st.fltConfigured.err = st.err := rfl
@[simp] theorem fltConfigured_hufValid (st : Status) : st.fltConfigured.hufValid = st.hufValid := rfl
@[simp] theorem fltConfigured_hufLimited (st : Status) : st.fltConfigured.hufLimited = st.hufLimited := rfl
@[simp] theorem fltConfigured_hufDegen (st : Status) : st.fltConfigured.hufDegen = st.hufDegen := rfl
@[simp] theorem fltConfigured_winReady (st : Status) : st.fltConfigured.winReady = st.winReady := rfl
@[simp] theorem fltConfigured_winFound (st : Status) : st.fltConfigured.winFound = st.winFound := rfl
@[simp] theorem fltConfigured_fltReady (st : Status) : st.fltConfigured.fltReady = true := rfl
@[simp] theorem fltConfigured_errCode (st : Status) : st.fltConfigured.errCode = st.errCode := rfl
@[simp] theorem fltConfigured_errOp (st : Status) : st.fltConfigured.errOp = st.errOp := rfl

@[simp] theorem withTable_freq (h : HufState) (t : HufTable) : (h.withTable t).freq = h.freq := rfl
@[simp] theorem withTable_total (h : HufState) (t : HufTable) : (h.withTable t).total = t.total := rfl
@[simp] theorem withTable_depth (h : HufState) (t : HufTable) : (h.withTable t).depth = t.depth := rfl
@[simp] theorem withTable_lcnt (h : HufState) (t : HufTable) : (h.withTable t).lcnt = t.lcnt := rfl
@[simp] theorem withTable_lbase (h : HufState) (t : HufTable) : (h.withTable t).lbase = t.lbase := rfl
@[simp] theorem withTable_syms (h : HufState) (t : HufTable) : (h.withTable t).syms = t.syms := rfl
@[simp] theorem withTable_cw (h : HufState) (t : HufTable) : (h.withTable t).cw = t.cw := rfl

end Sys2Proof.Machine
end

