-- ==== Sys2Proof/Laws/Memory.lean ====
section
/-! SUPPORT. The laws of the memory primitives (20_memory.md R61): a read after a write, the canonical form, the index range, and that a
canonical memory is determined by what it reads as. -/

namespace Sys2Proof.Machine

section
variable {α : Type} [Inhabited α]

@[simp] theorem read_nil (i : Nat) : Memory.read ([] : Memory α) i = Memory.unlisted α := rfl

theorem read_cons (e : Nat × α) (m : Memory α) (i : Nat) :
    Memory.read (e :: m) i = if e.1 = i then e.2 else Memory.read m i := rfl

theorem read_erase_same (m : Memory α) (i : Nat) : (Memory.erase m i).read i = Memory.unlisted α := by
  induction m with
  | nil => rfl
  | cons e m ih =>
    simp only [Memory.erase, List.filter_cons, decide_eq_true_eq] at ih ⊢
    split
    · rw [read_cons, if_neg ‹_›]; exact ih
    · exact ih

theorem read_erase_ne (m : Memory α) {i j : Nat} (h : j ≠ i) : (Memory.erase m i).read j = m.read j := by
  induction m with
  | nil => rfl
  | cons e m ih =>
    simp only [Memory.erase, List.filter_cons, decide_eq_true_eq] at ih ⊢
    split
    · rw [read_cons, read_cons, ih]
    · rw [ih, read_cons, if_neg (by omega)]

theorem read_insert_ne (m : Memory α) {i j : Nat} (v : α) (h : j ≠ i) : (Memory.insert m i v).read j = m.read j := by
  induction m with
  | nil => simp [Memory.insert, read_cons, Ne.symm h]
  | cons e m ih =>
    simp only [Memory.insert]
    split
    · rw [read_cons, if_neg (Ne.symm h)]
    · rw [read_cons, read_cons, ih]

theorem read_insert_erase_same (m : Memory α) (i : Nat) (v : α) : ((Memory.erase m i).insert i v).read i = v := by
  induction m with
  | nil => simp [Memory.erase, Memory.insert, read_cons]
  | cons e m ih =>
    simp only [Memory.erase, List.filter_cons, decide_eq_true_eq] at ih ⊢
    split
    · rename_i he
      simp only [Memory.insert]
      split
      · simp [read_cons]
      · rw [read_cons, if_neg he]; exact ih
    · exact ih

variable [DecidableEq α]

@[simp] theorem read_write_same (m : Memory α) (i : Nat) (v : α) : (m.write i v).read i = v := by
  unfold Memory.write
  split
  · rename_i h; rw [read_erase_same, h]
  · exact read_insert_erase_same m i v

theorem read_write_ne (m : Memory α) {i j : Nat} (v : α) (h : j ≠ i) : (m.write i v).read j = m.read j := by
  unfold Memory.write
  split
  · exact read_erase_ne m h
  · rw [read_insert_ne _ _ h, read_erase_ne m h]

/-- The one law of a write (R61): that element is replaced and nothing else changes. -/
theorem read_write (m : Memory α) (i j : Nat) (v : α) : (m.write i v).read j = if j = i then v else m.read j := by
  split
  · rename_i h; rw [h, read_write_same]
  · exact read_write_ne m v ‹_›

/-! The canonical form. -/

theorem wf_cons {e : Nat × α} {m : Memory α} :
    Memory.wf (e :: m) = true ↔ e.2 ≠ Memory.unlisted α ∧ (∀ x ∈ m, e.1 < x.1) ∧ Memory.wf m = true := by
  simp [Memory.wf, Bool.and_eq_true, and_assoc]

omit [Inhabited α] [DecidableEq α] in
theorem mem_erase {m : Memory α} {i : Nat} {x : Nat × α} : x ∈ Memory.erase m i ↔ x ∈ m ∧ x.1 ≠ i := by
  simp [Memory.erase]

theorem wf_erase {m : Memory α} (h : m.wf = true) (i : Nat) : (Memory.erase m i).wf = true := by
  induction m with
  | nil => rfl
  | cons e m ih =>
    obtain ⟨h1, h2, h3⟩ := wf_cons.1 h
    have ih := ih h3
    simp only [Memory.erase, List.filter_cons, decide_eq_true_eq] at ih ⊢
    split
    · exact wf_cons.2 ⟨h1, fun x hx => h2 x (mem_erase.1 hx).1, ih⟩
    · exact ih

omit [Inhabited α] [DecidableEq α] in
theorem mem_insert {m : Memory α} {i : Nat} {v : α} {x : Nat × α} (h : x ∈ Memory.insert m i v) : x = (i, v) ∨ x ∈ m := by
  induction m with
  | nil => simpa [Memory.insert] using h
  | cons e m ih =>
    simp only [Memory.insert] at h
    split at h
    · simpa using h
    · rcases List.mem_cons.1 h with rfl | h
      · simp
      · rcases ih h with h | h <;> simp [h]

theorem wf_insert {m : Memory α} {i : Nat} {v : α} (h : m.wf = true) (hi : ∀ x ∈ m, x.1 ≠ i) (hv : v ≠ Memory.unlisted α) :
    (Memory.insert m i v).wf = true := by
  induction m with
  | nil => simp [Memory.insert, Memory.wf, hv]
  | cons e m ih =>
    obtain ⟨h1, h2, h3⟩ := wf_cons.1 h
    simp only [Memory.insert]
    split
    · rename_i hlt
      refine wf_cons.2 ⟨hv, fun x hx => ?_, h⟩
      rcases List.mem_cons.1 hx with rfl | hx
      · exact hlt
      · exact Nat.lt_trans hlt (h2 x hx)
    · rename_i hlt
      have hne := hi e (by simp)
      refine wf_cons.2 ⟨h1, fun x hx => ?_, ih h3 fun x hx => hi x (by simp [hx])⟩
      rcases mem_insert hx with rfl | hx
      · show e.1 < i
        omega
      · exact h2 x hx

/-- A write keeps the canonical form. -/
theorem wf_write {m : Memory α} (h : m.wf = true) (i : Nat) (v : α) : (m.write i v).wf = true := by
  unfold Memory.write
  split
  · exact wf_erase h i
  · exact wf_insert (wf_erase h i) (fun x hx => (mem_erase.1 hx).2) ‹_›

/-! The index range. -/

omit [Inhabited α] [DecidableEq α] in
theorem within_iff {m : Memory α} {lo hi : Nat} : m.within lo hi = true ↔ ∀ x ∈ m, lo ≤ x.1 ∧ x.1 ≤ hi := by
  simp [Memory.within]

/-- A write to an index in the range keeps every listed index in the range. -/
theorem within_write {m : Memory α} {lo hi i : Nat} (h : m.within lo hi = true) (h1 : lo ≤ i) (h2 : i ≤ hi) (v : α) :
    (m.write i v).within lo hi = true := by
  rw [within_iff] at h ⊢
  intro x hx
  unfold Memory.write at hx
  split at hx
  · exact h x (mem_erase.1 hx).1
  · rcases mem_insert hx with rfl | hx
    · exact ⟨h1, h2⟩
    · exact h x (mem_erase.1 hx).1

omit [DecidableEq α] in
/-- An index outside the range reads as unlisted. -/
theorem read_outside {m : Memory α} {lo hi i : Nat} (h : m.within lo hi = true) (hi : i < lo ∨ hi < i) :
    m.read i = Memory.unlisted α := by
  induction m with
  | nil => rfl
  | cons e m ih =>
    rw [within_iff] at h
    have he := h e (by simp)
    rw [read_cons, if_neg (by omega)]
    exact ih (within_iff.2 fun x hx => h x (by simp [hx]))

/-! A canonical memory is determined by what it reads as. -/

omit [DecidableEq α] in
theorem read_below {m : Memory α} {i : Nat} (h : ∀ x ∈ m, i < x.1) : m.read i = Memory.unlisted α := by
  induction m with
  | nil => rfl
  | cons e m ih =>
    have he := h e (by simp)
    rw [read_cons, if_neg (by omega)]
    exact ih fun x hx => h x (by simp [hx])

theorem wf_ext {m m' : Memory α} (h : m.wf = true) (h' : m'.wf = true) (hr : ∀ i, m.read i = m'.read i) : m = m' := by
  induction m generalizing m' with
  | nil =>
    cases m' with
    | nil => rfl
    | cons e' m' =>
      have h2 := (wf_cons.1 h').1
      have := hr e'.1
      rw [read_nil, read_cons, if_pos rfl] at this
      exact absurd this.symm h2
  | cons e m ih =>
    obtain ⟨h1, h2, h3⟩ := wf_cons.1 h
    cases m' with
    | nil =>
      have := hr e.1
      rw [read_nil, read_cons, if_pos rfl] at this
      exact absurd this h1
    | cons e' m' =>
      obtain ⟨h1', h2', h3'⟩ := wf_cons.1 h'
      have key : e.1 = e'.1 := by
        rcases Nat.lt_trichotomy e.1 e'.1 with hlt | heq | hgt
        · have := hr e.1
          rw [read_cons, if_pos rfl, read_cons, if_neg (by omega), read_below fun x hx => Nat.lt_trans hlt (h2' x hx)] at this
          exact absurd this h1
        · exact heq
        · have := hr e'.1
          rw [read_cons, if_neg (by omega), read_below fun x hx => Nat.lt_trans hgt (h2 x hx), read_cons, if_pos rfl] at this
          exact absurd this.symm h1'
      have val : e.2 = e'.2 := by
        have := hr e.1
        rwa [read_cons, if_pos rfl, read_cons, if_pos key.symm] at this
      have tail : m = m' := by
        refine ih h3 h3' fun i => ?_
        have := hr i
        rw [read_cons, read_cons] at this
        by_cases hi : e.1 = i
        · rw [read_below fun x hx => hi ▸ h2 x hx, read_below fun x hx => hi ▸ key ▸ h2' x hx]
        · rwa [if_neg hi, if_neg (key ▸ hi)] at this
      rw [tail, Prod.ext key val]

/-! A memory filled from a list. -/

theorem mem_ofList_le {l : List α} {i : Nat} {x : Nat × α} (h : x ∈ Memory.ofList i l) : i ≤ x.1 ∧ x.1 < i + l.length := by
  induction l generalizing i with
  | nil => simp [Memory.ofList] at h
  | cons v vs ih =>
    simp only [Memory.ofList] at h
    simp only [List.length_cons]
    split at h
    · have := ih h; omega
    · rcases List.mem_cons.1 h with rfl | h
      · exact ⟨Nat.le_refl _, by show i < i + (vs.length + 1); omega⟩
      · have := ih h; omega

theorem wf_ofList (l : List α) (i : Nat) : (Memory.ofList i l).wf = true := by
  induction l generalizing i with
  | nil => rfl
  | cons v vs ih =>
    simp only [Memory.ofList]
    split
    · exact ih (i + 1)
    · exact wf_cons.2 ⟨‹_›, fun x hx => (mem_ofList_le hx).1, ih (i + 1)⟩

theorem read_ofList (l : List α) (i j : Nat) :
    (Memory.ofList i l).read j = if i ≤ j then l.getD (j - i) (Memory.unlisted α) else Memory.unlisted α := by
  induction l generalizing i with
  | nil => simp [Memory.ofList]
  | cons v vs ih =>
    simp only [Memory.ofList]
    split
    · rename_i hv
      rw [ih]
      rcases Nat.lt_trichotomy i j with hlt | rfl | hgt
      · rw [if_pos (by omega), if_pos (by omega), show j - i = (j - (i + 1)) + 1 by omega, List.getD_cons_succ]
      · simp [hv]
      · rw [if_neg (by omega), if_neg (by omega)]
    · rw [read_cons, ih]
      rcases Nat.lt_trichotomy i j with hlt | rfl | hgt
      · rw [if_neg (by show ¬ i = j; omega), if_pos (by omega), if_pos (by omega), show j - i = (j - (i + 1)) + 1 by omega,
          List.getD_cons_succ]
      · simp
      · rw [if_neg (by show ¬ i = j; omega), if_neg (by omega), if_neg (by omega)]

theorem within_ofList (l : List α) {i lo hi : Nat} (h1 : lo ≤ i) (h2 : i + l.length ≤ hi + 1) :
    (Memory.ofList i l).within lo hi = true :=
  within_iff.2 fun x hx => by have := mem_ofList_le hx; omega

end

/-! What an unlisted index of each memory reads as. -/

@[simp] theorem unlisted_bitVec (w : Nat) : Memory.unlisted (BitVec w) = 0#w := rfl

@[simp] theorem unlisted_option (α : Type) : Memory.unlisted (Option α) = none := rfl

@[simp] theorem unlisted_codeword : Memory.unlisted Codeword = { code := 0#15, len := 0#4 } := rfl

end Sys2Proof.Machine
end

