-- ==== Sys2Proof/Laws/Ops.lean ====
section
/-! SUPPORT. What the shared operations can do, said once: the checks of a command, `runCommand`, `rejectWord`, and one step. -/

namespace Sys2Proof.Machine

@[simp] theorem firstError_nil : firstError [] = none := rfl

@[simp] theorem firstError_cons (c : Bool) (e : ErrorCode) (cs : List (Bool × ErrorCode)) :
    firstError ((c, e) :: cs) = if c = true then some e else firstError cs := rfl

/-- Every check of the list passes exactly when there is no first error. -/
theorem firstError_eq_none {cs : List (Bool × ErrorCode)} : firstError cs = none ↔ ∀ c ∈ cs, c.1 = false := by
  induction cs with
  | nil => simp
  | cons c cs ih => cases c with
    | mk b e => cases b <;> simp [ih]

/-- The error that is raised belongs to a failing check. -/
theorem firstError_mem {cs : List (Bool × ErrorCode)} {e : ErrorCode} (h : firstError cs = some e) : (true, e) ∈ cs := by
  induction cs with
  | nil => simp at h
  | cons c cs ih => cases c with
    | mk b e' => cases b <;> simp_all

section
variable (op : BitVec 8) (cs : List (Bool × ErrorCode)) (s t : State) (d : Word)

theorem runCommand_locked (h : s.status.err = true) : runCommand op cs s t d = .next s.lockedOut := by
  simp [runCommand, h]

theorem runCommand_error {e : ErrorCode} (h : s.status.err = false) (hc : firstError cs = some e) :
    runCommand op cs s t d = .next (s.raise op e) := by
  simp [runCommand, h, hc]

theorem runCommand_ok (h : s.status.err = false) (hc : firstError cs = none) :
    runCommand op cs s t d = .next (t.answer true d) := by
  simp [runCommand, h, hc]

end

/-- Everything a command can do (60_exceptions.md R262): it is refused, it raises its first error, or it completes. -/
theorem runCommand_cases {op : BitVec 8} {cs : List (Bool × ErrorCode)} {s t u : State} {d : Word}
    (h : runCommand op cs s t d = .next u) :
    (s.status.err = true ∧ u = s.lockedOut) ∨
    (s.status.err = false ∧ ∃ e, firstError cs = some e ∧ u = s.raise op e) ∨
    (s.status.err = false ∧ firstError cs = none ∧ u = t.answer true d) := by
  cases hs : s.status.err
  · cases hc : firstError cs with
    | none => rw [runCommand_ok _ _ _ _ _ hs hc] at h; simp_all
    | some e => rw [runCommand_error _ _ _ _ _ hs hc] at h; simp_all
  · rw [runCommand_locked _ _ _ _ _ hs] at h; simp_all

/-- A command always answers a next state. -/
theorem runCommand_next (op : BitVec 8) (cs : List (Bool × ErrorCode)) (s t : State) (d : Word) :
    ∃ u, runCommand op cs s t d = .next u := by
  unfold runCommand
  split
  · exact ⟨_, rfl⟩
  · split <;> exact ⟨_, rfl⟩

/-- Everything a word that is no command can do. -/
theorem rejectWord_eq (w : Word) (why : DecodeError) (s : State) :
    rejectWord w why s = .next (if s.status.err = true then s.lockedOut else s.raise (opField w) (decodeErrorCode why)) := by
  unfold rejectWord
  split <;> rfl

/-- The step on a state by its inputs. -/
theorem step_cases (s : State) :
    (s.inbox = [] ∧ step s = .next s) ∨
    (∃ rest, s.inbox = .hardReset :: rest ∧ step s = .next (State.toReset { s with inbox := rest })) ∨
    (∃ w rest i, s.inbox = .command w :: rest ∧ decode w = .ok i ∧ step s = exec i { s with inbox := rest }) ∨
    (∃ w rest why, s.inbox = .command w :: rest ∧ decode w = .error why ∧
      step s = rejectWord w why { s with inbox := rest }) := by
  unfold step fetch
  rcases hi : s.inbox with _ | ⟨x, rest⟩
  · exact .inl ⟨rfl, rfl⟩
  · cases x with
    | hardReset => exact .inr (.inl ⟨rest, rfl, rfl⟩)
    | command w =>
      cases hd : decode w with
      | ok i => exact .inr (.inr (.inl ⟨w, rest, i, rfl, hd, by simp [hd]⟩))
      | error why => exact .inr (.inr (.inr ⟨w, rest, why, rfl, hd, by simp [hd]⟩))

end Sys2Proof.Machine
end

