-- ==== Sys2Proof/Laws/Adam7.lean ====
section
/-! SUPPORT. The size of a sub-image (44_adam7.md R243). -/

namespace Sys2Proof.Machine

/-- A sub-image is no larger than the image (R243). -/
theorem a7Sub_le (full base e : Nat) : a7Sub full base e ≤ full := by
  unfold a7Sub; split
  · omega
  · have : 0 < 2 ^ e := by positivity
    apply Nat.div_le_of_le_mul
    generalize 2 ^ e = c at *
    obtain ⟨m, rfl⟩ : ∃ m, full = base + m := ⟨full - base, by omega⟩
    have : base + m - base + c - 1 ≤ c * m := by
      have : m ≥ 1 := by omega
      obtain ⟨m, rfl⟩ : ∃ m', m = m' + 1 := ⟨m - 1, by omega⟩
      obtain ⟨c, rfl⟩ : ∃ c', c = c' + 1 := ⟨c - 1, by omega⟩
      ring_nf; omega
    calc _ ≤ _ := this
      _ ≤ _ := Nat.mul_le_mul_left _ (by omega)

/-- The meaning of the size of a sub-image (R243). -/
theorem lt_a7Sub_iff (full base e i : Nat) : i < a7Sub full base e ↔ base + i * 2 ^ e < full := by
  unfold a7Sub
  have : 0 < 2 ^ e := by positivity
  generalize 2 ^ e = c at *
  split
  · have : 0 ≤ i * c := by omega
    constructor <;> intro <;> omega
  · rw [Nat.lt_div_iff_mul_lt (by omega)]
    rw [Nat.mul_comm]
    constructor <;> intro h <;> omega

end Sys2Proof.Machine
end

