-- ==== Sys2Proof/Laws/Encoding.lean ====
section
/-! SUPPORT. The fields of the word `enc op a b` (30_encoding.md R80, R81), and a word put together again from its fields. -/

namespace Sys2Proof

theorem enc_getLsbD (op : BitVec 8) (a : FieldA) (b : FieldB) (i : Nat) :
    (enc op a b).getLsbD i =
      ((decide (56 ≤ i) && decide (i < 64) && op.getLsbD (i - 56)) ||
        (decide (32 ≤ i) && decide (i < 64) && a.getLsbD (i - 32)) || b.getLsbD i) := by
  simp only [enc, BitVec.getLsbD_or, BitVec.getLsbD_shiftLeft, BitVec.getLsbD_setWidth]
  by_cases h : i < 64
  · have h1 : i - 56 < 64 := by omega
    have h2 : i - 32 < 64 := by omega
    by_cases h3 : i < 56 <;> by_cases h4 : i < 32 <;> simp [h, h1, h2, h3, h4, Nat.not_le.2, Nat.not_lt.1]
  · have : b.getLsbD i = false := BitVec.getLsbD_of_ge _ _ (by omega)
    simp [h, this]

theorem opField_enc (op : BitVec 8) (a : FieldA) (b : FieldB) : opField (enc op a b) = op := by
  apply BitVec.eq_of_getLsbD_eq
  intro i hi
  have h1 : a.getLsbD (56 + i - 32) = false := BitVec.getLsbD_of_ge _ _ (by omega)
  have h2 : b.getLsbD (56 + i) = false := BitVec.getLsbD_of_ge _ _ (by omega)
  simp [opField, enc_getLsbD, hi, h1, h2]
  omega

theorem rsvField_enc (op : BitVec 8) (a : FieldA) (b : FieldB) : rsvField (enc op a b) = 0#8 := by
  apply BitVec.eq_of_getLsbD_eq
  intro i hi
  have h1 : a.getLsbD (48 + i - 32) = false := BitVec.getLsbD_of_ge _ _ (by omega)
  have h2 : b.getLsbD (48 + i) = false := BitVec.getLsbD_of_ge _ _ (by omega)
  simp [rsvField, enc_getLsbD, hi, h1, h2]
  omega

theorem aField_enc (op : BitVec 8) (a : FieldA) (b : FieldB) : aField (enc op a b) = a := by
  apply BitVec.eq_of_getLsbD_eq
  intro i hi
  have h2 : b.getLsbD (32 + i) = false := BitVec.getLsbD_of_ge _ _ (by omega)
  have h3 : ¬ 56 ≤ 32 + i := by omega
  simp [aField, enc_getLsbD, hi, h3]
  omega

theorem bField_enc (op : BitVec 8) (a : FieldA) (b : FieldB) : bField (enc op a b) = b := by
  apply BitVec.eq_of_getLsbD_eq
  intro i hi
  have h3 : ¬ 56 ≤ i := by omega
  have h4 : ¬ 32 ≤ i := by omega
  simp [bField, enc_getLsbD, hi, h3, h4]

/-- A word whose `RSV` is 0 is put together from its fields. -/
theorem enc_fields (w : Word) (h : rsvField w = 0#8) : enc (opField w) (aField w) (bField w) = w := by
  apply BitVec.eq_of_getLsbD_eq
  intro i hi
  have hr : ∀ j, j < 8 → w.getLsbD (48 + j) = false := fun j hj => by
    have := congrArg (fun v => BitVec.getLsbD v j) h
    simpa [rsvField, BitVec.getLsbD_extractLsb', hj] using this
  rw [enc_getLsbD]
  simp only [opField, aField, bField, BitVec.getLsbD_extractLsb']
  by_cases h1 : 56 ≤ i
  · have e1 : i - 56 < 8 := by omega
    have e2 : ¬ i - 32 < 16 := by omega
    have e3 : ¬ i < 32 := by omega
    have e4 : 56 + (i - 56) = i := by omega
    simp [h1, hi, e1, e2, e3, e4]
  · by_cases h2 : 48 ≤ i
    · have e2 : ¬ i - 32 < 16 := by omega
      have e3 : ¬ i < 32 := by omega
      have := hr (i - 48) (by omega)
      rw [show 48 + (i - 48) = i by omega] at this
      simp [h1, e2, e3, this]
    · by_cases h3 : 32 ≤ i
      · have e2 : i - 32 < 16 := by omega
        have e3 : ¬ i < 32 := by omega
        have e4 : 32 + (i - 32) = i := by omega
        simp [h1, h3, hi, e2, e3, e4]
      · have e3 : i < 32 := by omega
        simp [h1, h3, e3]

/-- The value of a word (R81). -/
theorem enc_toNat (op : BitVec 8) (a : FieldA) (b : FieldB) :
    (enc op a b).toNat = op.toNat * 2 ^ 56 + a.toNat * 2 ^ 32 + b.toNat := by
  have ho := op.isLt
  have ha := a.isLt
  have hb := b.isLt
  simp only [enc, BitVec.toNat_or, BitVec.toNat_shiftLeft, BitVec.toNat_setWidth]
  rw [Nat.mod_eq_of_lt (a := op.toNat) (by omega), Nat.mod_eq_of_lt (a := a.toNat) (by omega), Nat.mod_eq_of_lt (a := b.toNat) (by omega)]
  rw [Nat.mod_eq_of_lt (by rw [Nat.shiftLeft_eq]; omega), Nat.mod_eq_of_lt (by rw [Nat.shiftLeft_eq]; omega)]
  have e1 : a.toNat <<< 32 < 2 ^ 56 := by rw [Nat.shiftLeft_eq]; omega
  rw [← Nat.shiftLeft_add_eq_or_of_lt e1]
  have e2 : op.toNat <<< 56 + a.toNat <<< 32 = (op.toNat * 2 ^ 24 + a.toNat) <<< 32 := by simp only [Nat.shiftLeft_eq]; ring
  rw [e2, ← Nat.shiftLeft_add_eq_or_of_lt (by omega), Nat.shiftLeft_eq]
  ring

end Sys2Proof
end

