-- ==== Sys2Proof/Laws/Exec.lean ====
section
/-! SUPPORT. What `exec` can do, said once for the 30 commands that are no system command (60_exceptions.md R262), and for the three that are. -/

namespace Sys2Proof.Machine

/-- The system commands, which execute while the block is locked. -/
def isSystem : Instr → Bool
  | .nop => true
  | .reset => true
  | .rdstat => true
  | _ => false

/-- The shape of every command that is no system command: its own opcode, checks of the three errors a command can raise, and a completed
state that keeps the latch and the two ports. -/
structure CommandForm (i : Instr) (s : State) (cs : List (Bool × ErrorCode)) (t : State) (d : Word) : Prop where
  form : exec i s = runCommand (opField (encode i)) cs s t d
  errors : ∀ c ∈ cs, c.2 = .eState ∨ c.2 = .eRange ∨ c.2 = .eFull
  err : t.status.err = s.status.err
  errCode : t.status.errCode = s.status.errCode
  errOp : t.status.errOp = s.status.errOp
  inbox : t.inbox = s.inbox
  outbox : t.outbox = s.outbox

theorem exec_form (i : Instr) (s : State) (h : isSystem i = false) : ∃ cs t d, CommandForm i s cs t d := by
  cases i <;> first
    | (simp only [isSystem, Bool.true_eq_false] at h; done)
    | (apply Exists.intro; apply Exists.intro; apply Exists.intro; apply CommandForm.mk
       case form =>
         rw [encode, opField_enc]
         simp only [exec, execHufClr, execHufWrf, execHufRdf, execHufBuild, execHufRdc, execHufRds, execHufRdl, execWinInit,
           execWinReg, execWinLaclr, execWinLaput, execWinMatch, execWinRdb, execWinRdn, execFltCfg, execFltWrl, execFltRdl,
           execFltWrp, execFltRdp, execFltRdo, execFltDefilt, execFltFilt, execFltAuto, execFltNext, execFltZprev,
           execFltPaeth, execA7Setw, execA7Seth, execA7Desc, execA7Size]
         rfl
       all_goals first | rfl | simp)

end Sys2Proof.Machine
end

