-- ==== Sys2Proof/Laws/Filter.lean ====
section
/-! SUPPORT. What the row functions of the filters do, said once (43_filter.md R211 to R220). -/

namespace Sys2Proof.Machine

/-- The bytes after the loop of R211: each from the reconstructed byte to its left. -/
theorem fltDefilterFrom_read (t d : Nat) (prev : Memory Byte) (hd : 1 ≤ d) : ∀ k i (l : Memory Byte), 1 ≤ i → ∀ j,
    (fltDefilterFrom t d prev k i l).read j =
      if i ≤ j ∧ j < i + k then
        l.read j + fltPredict t (fltBack (fltDefilterFrom t d prev k i l) d j) (prev.read j) (fltBack prev d j)
      else l.read j := by
  intro k
  induction k with
  | zero => intro i l hi j; simp only [fltDefilterFrom]; rw [if_neg (by omega)]
  | succ k ih =>
    intro i l hi j
    simp only [fltDefilterFrom]
    set l' := l.write i (l.read i + fltPredictAt t d l prev i) with hl'
    have lo : ∀ j, j < i + 1 → (fltDefilterFrom t d prev k (i+1) l').read j = l'.read j := by
      intro j hj; rw [ih (i+1) l' (by omega) j, if_neg (by omega)]
    have lo2 : ∀ j, j < i → (fltDefilterFrom t d prev k (i+1) l').read j = l.read j := by
      intro j hj; rw [lo j (by omega), hl', read_write_ne _ _ (by omega)]
    by_cases h : j = i
    · subst h
      rw [if_pos (by omega), lo j (by omega), hl', read_write_same, ← hl']
      unfold fltPredictAt
      congr 2
      unfold fltBack
      by_cases hdj : d + 1 ≤ j
      · rw [if_pos hdj, if_pos hdj, lo2 _ (by omega)]
      · rw [if_neg hdj, if_neg hdj]
    · rw [ih (i+1) l' (by omega) j, hl', read_write_ne _ _ h, ← hl']
      by_cases h2 : i ≤ j ∧ j < i + (k+1)
      · rw [if_pos h2, if_pos (by omega)]
      · rw [if_neg h2, if_neg (by omega)]

/-- The bytes after the loop of R212. -/
theorem fltFiltFrom_read (t d : Nat) (line prev : Memory Byte) : ∀ k i (o : Memory Byte) j,
    (fltFiltFrom t d line prev k i o).read j =
      if i ≤ j ∧ j < i + k then line.read j - fltPredict t (fltBack line d j) (prev.read j) (fltBack prev d j)
      else o.read j := by
  intro k
  induction k with
  | zero => intro i l j; simp only [fltFiltFrom]; rw [if_neg (by omega)]
  | succ k ih =>
    intro i l j
    simp only [fltFiltFrom]
    rw [ih, read_write]
    by_cases h : j = i
    · subst h; rw [if_neg (by omega), if_pos rfl, if_pos (by omega)]; rfl
    · by_cases h2 : i ≤ j ∧ j < i + (k+1)
      · rw [if_pos (by omega), if_pos h2]
      · rw [if_neg (by omega), if_neg h, if_neg h2]

/-- The bytes after the loop of R219. -/
theorem fltCopyFrom_read (line : Memory Byte) : ∀ k i (o : Memory Byte) j,
    (fltCopyFrom line k i o).read j = if i ≤ j ∧ j < i + k then line.read j else o.read j := by
  intro k
  induction k with
  | zero => intro i l j; simp only [fltCopyFrom]; rw [if_neg (by omega)]
  | succ k ih =>
    intro i l j
    simp only [fltCopyFrom]
    rw [ih, read_write]
    by_cases h : j = i
    · subst h; rw [if_neg (by omega), if_pos rfl, if_pos (by omega)]
    · by_cases h2 : i ≤ j ∧ j < i + (k+1)
      · rw [if_pos (by omega), if_pos h2]
      · rw [if_neg (by omega), if_neg h, if_neg h2]

/-- The bytes after the loop of R220. -/
theorem fltZeroFrom_read : ∀ k i (o : Memory Byte) j,
    (fltZeroFrom k i o).read j = if i ≤ j ∧ j < i + k then 0#8 else o.read j := by
  intro k
  induction k with
  | zero => intro i l j; simp only [fltZeroFrom]; rw [if_neg (by omega)]
  | succ k ih =>
    intro i l j
    simp only [fltZeroFrom]
    rw [ih, read_write]
    by_cases h : j = i
    · subst h; rw [if_neg (by omega), if_pos rfl, if_pos (by omega)]
    · by_cases h2 : i ≤ j ∧ j < i + (k+1)
      · rw [if_pos (by omega), if_pos h2]
      · rw [if_neg (by omega), if_neg h, if_neg h2]

/-- A score fits 16 bits (R213). -/
theorem fltScore_lt (rl o) (h : rl ≤ 65536) : fltScore rl o < 65536 := by
  unfold fltScore
  by_cases h0 : rl = 0
  · subst h0; simp
  · calc _ ≤ (List.range (rl - 1)).length := List.length_filter_le _ _
      _ = rl - 1 := List.length_range
      _ < _ := by omega

end Sys2Proof.Machine
end

