-- ==== Sys2Proof/Laws/Huffman.lean ====
section
/-! SUPPORT. Bounds of the table construction (41_huffman.md R124, R130). -/

namespace Sys2Proof.Machine

/-- A live symbol exists (R124). -/
theorem hufLive_lt {n freq e} (h : e ∈ hufLive n freq) : e.1 < n := by
  simp [hufLive] at h; obtain ⟨⟨a, b, rfl⟩, _⟩ := h; exact b

/-- The levels hold symbols of the list they are cut from, in its order (R130). -/
theorem hufCut_flatten_sublist (cs : List Nat) (l : List Nat) : (hufCut cs l).flatten.Sublist l := by
  induction cs generalizing l with
  | nil => simp [hufCut]
  | cons c cs ih =>
    simp only [hufCut, List.flatten_cons]
    conv_rhs => rw [← List.take_append_drop c l]
    exact List.Sublist.append (List.Sublist.refl _) (ih _)

/-- Ordering a level only reorders it (R130). -/
theorem hufOrderLevel_symbol_perm (l : List Nat) : (hufOrderLevel .symbol l).Perm l := by
  simp only [hufOrderLevel]; exact List.perm_insertionSort _ _

/-- The table of this hardware holds at most 288 entries, all of them symbols. -/
theorem hufLevels_bound (freq) : (hufLevels 288 15 .symbol freq).levels.flatten.length ≤ 288 ∧ ∀ s ∈ (hufLevels 288 15 .symbol freq).levels.flatten, s < 288 := by
  unfold hufLevels
  dsimp only
  split
  · rename_i h
    constructor
    · simp [hufDegenEntries]; split <;> [skip; split] <;> simp
    · intro s hs
      simp at hs
      unfold hufDegenEntries at hs
      split at hs
      · simp at hs; omega
      · rename_i e l he
        have := hufLive_lt (n := 288) (freq := freq) (e := e) (by rw [he]; simp)
        split at hs <;> simp at hs <;> omega
  · have hp : ∀ (cs : List (List Nat)), ((cs.map (hufOrderLevel .symbol)).flatten).Perm cs.flatten := by
      intro cs
      induction cs with
      | nil => simp
      | cons c cs ih => simp only [List.map_cons, List.flatten_cons]; exact (hufOrderLevel_symbol_perm c).append ih
    have hq := hp (hufCut (hufLevelCounts 15 (hufTreeVec (hufSort (hufLive 288 freq)))) ((hufSort (hufLive 288 freq)).map fun e => e.1))
    have hs := hufCut_flatten_sublist (hufLevelCounts 15 (hufTreeVec (hufSort (hufLive 288 freq)))) ((hufSort (hufLive 288 freq)).map fun e => e.1)
    have hlen : (hufSort (hufLive 288 freq)).length = (hufLive 288 freq).length := (List.perm_insertionSort _ _).length_eq
    constructor
    · rw [hq.length_eq]
      refine hs.length_le.trans ?_
      rw [List.length_map, hlen]
      unfold hufLive
      exact (List.length_filter_le _ _).trans (by simp)
    · intro s h
      have := hs.subset (hq.mem_iff.1 h)
      simp at this
      obtain ⟨b, hb⟩ := this
      have hb' : (s, b) ∈ hufLive 288 freq := (List.perm_insertionSort _ _).mem_iff.1 hb
      exact hufLive_lt hb'

end Sys2Proof.Machine
end

