-- ==== Sys2Proof/Laws/HuffmanCost.lean ====
section
/-! SUPPORT. The tree of 41_huffman.md R127 costs least (R138 (g)): the cost of lengths given to weights, the exchange argument, the leaves of the
tree with their depths, and the Kraft sum of words of which none begins another. -/

namespace Sys2Proof.Machine

/-- Weights with lengths. -/
abbrev HufPairs := Multiset (Nat × Nat)

/-- The cost of an assignment of lengths to weights: the sum of weight times length. -/
def hufCost (p : HufPairs) : Nat := (p.map fun e => e.1 * e.2).sum

/-- The Kraft sum of the lengths. -/
def hufKraft (p : HufPairs) : ℚ := (p.map fun e => (1 / 2 : ℚ) ^ e.2).sum

@[simp] theorem hufCost_zero : hufCost 0 = 0 := rfl
@[simp] theorem hufCost_cons (e p) : hufCost (e ::ₘ p) = e.1 * e.2 + hufCost p := by simp [hufCost]
@[simp] theorem hufCost_add (p q) : hufCost (p + q) = hufCost p + hufCost q := by simp [hufCost]
@[simp] theorem hufKraft_zero : hufKraft 0 = 0 := rfl
@[simp] theorem hufKraft_cons (e p) : hufKraft (e ::ₘ p) = (1 / 2 : ℚ) ^ e.2 + hufKraft p := by simp [hufKraft]

/-- The Kraft sum is not negative. -/
theorem hufKraft_nonneg (p : HufPairs) : 0 ≤ hufKraft p := by
  induction p using Multiset.induction with
  | empty => simp
  | cons e p ih => rw [hufKraft_cons]; positivity

/-- Lengths of at most `n` give a whole number of units of `2^-n`. -/
theorem hufKraft_units (n : Nat) (p : HufPairs) (h : ∀ e ∈ p, e.2 ≤ n) : ∃ k : Nat, hufKraft p * 2 ^ n = k := by
  induction p using Multiset.induction with
  | empty => exact ⟨0, by simp⟩
  | cons e p ih =>
    obtain ⟨k, hk⟩ := ih fun e' h' => h e' (Multiset.mem_cons_of_mem h')
    have he := h e (Multiset.mem_cons_self _ _)
    refine ⟨2 ^ (n - e.2) + k, ?_⟩
    rw [hufKraft_cons, add_mul, hk]
    push_cast
    congr 1
    rw [show n = e.2 + (n - e.2) by omega, pow_add, ← mul_assoc, ← mul_pow]
    norm_num

/-- A single longest length can be shortened by one. -/
theorem hufKraft_shorten (w n : Nat) (p : HufPairs) (h : ∀ e ∈ p, e.2 ≤ n) (hk : hufKraft ((w, n + 1) ::ₘ p) ≤ 1) :
    hufKraft ((w, n) ::ₘ p) ≤ 1 := by
  obtain ⟨k, h1⟩ := hufKraft_units n p h
  rw [hufKraft_cons] at hk ⊢
  have h2 : (1 / 2 : ℚ) ^ n * 2 ^ n = 1 := by rw [← mul_pow]; norm_num
  have h3 : (0 : ℚ) < 2 ^ n := by positivity
  have h4 : (2 * k + 1 : ℚ) ≤ 2 ^ n * 2 := by
    have := mul_le_mul_of_nonneg_right hk h3.le
    simp only [pow_succ] at this
    nlinarith
  have h5 : k + 1 ≤ 2 ^ n := by
    have : 2 * k + 1 ≤ 2 ^ n * 2 := by exact_mod_cast h4
    omega
  have h6 : ((k : ℚ) + 1) ≤ 2 ^ n := by exact_mod_cast h5
  have : ((1 / 2 : ℚ) ^ n + hufKraft p) * 2 ^ n ≤ 1 * 2 ^ n := by rw [add_mul, h2, h1]; linarith
  exact le_of_mul_le_mul_right this h3

/-- `c` is the sum of the combined weights when the two smallest weights are combined until one is left (41_huffman.md R127). -/
inductive HufMergeCost : Multiset Nat → Nat → Prop
  | one (w : Nat) : HufMergeCost {w} 0
  | merge (x y : Nat) (r : Multiset Nat) (c : Nat) : (∀ z ∈ r, x ≤ z) → (∀ z ∈ r, y ≤ z) →
      HufMergeCost ((x + y) ::ₘ r) c → HufMergeCost (x ::ₘ y ::ₘ r) (x + y + c)

/-- Exchanging: the smaller weight takes the greater length. -/
theorem mul_exchange {x z a l : Nat} (h1 : x ≤ z) (h2 : a ≤ l) : x * l + z * a ≤ x * a + z * l := by
  obtain ⟨d, rfl⟩ := Nat.exists_eq_add_of_le h1
  obtain ⟨e, rfl⟩ := Nat.exists_eq_add_of_le h2
  nlinarith [Nat.zero_le (d * e)]

/-- One combination (R127): if no lengths for the combined queue cost less than `c`, no lengths for the queue cost less than `x + y + c`. -/
theorem hufMerge_bound_step (x y c : Nat) (r : Multiset Nat) (hx : ∀ z ∈ r, x ≤ z) (hy : ∀ z ∈ r, y ≤ z)
    (hc : ∀ p : HufPairs, p.map Prod.fst = (x + y) ::ₘ r → hufKraft p ≤ 1 → c ≤ hufCost p) :
    ∀ (n a b : Nat) (q : HufPairs), a + b + (q.map Prod.snd).sum = n → q.map Prod.fst = r →
      hufKraft ((x, a) ::ₘ (y, b) ::ₘ q) ≤ 1 → x + y + c ≤ hufCost ((x, a) ::ₘ (y, b) ::ₘ q) := by
  intro n
  induction n using Nat.strong_induction_on with
  | _ n ih =>
  intro a b q hn hq hk
  have hqx : ∀ e ∈ q, x ≤ e.1 ∧ y ≤ e.1 := fun e he =>
    ⟨hx _ (hq ▸ Multiset.mem_map_of_mem _ he), hy _ (hq ▸ Multiset.mem_map_of_mem _ he)⟩
  -- two equal lengths of the two smallest weights
  have base : ∀ (l : Nat) (q : HufPairs), q.map Prod.fst = r → hufKraft ((x, l) ::ₘ (y, l) ::ₘ q) ≤ 1 →
      x + y + c ≤ hufCost ((x, l) ::ₘ (y, l) ::ₘ q) := by
    intro l q hq hk
    rcases l with - | l
    · simp only [hufKraft_cons, pow_zero] at hk; have := hufKraft_nonneg q; linarith
    · have := hc ((x + y, l) ::ₘ q) (by simp [hq]) (by
        simp only [hufKraft_cons, pow_succ] at hk ⊢; linarith)
      simp only [hufCost_cons] at this ⊢
      nlinarith
  -- the longest length
  obtain ⟨l, hl1, hl2⟩ : ∃ l, (∀ e ∈ (x, a) ::ₘ (y, b) ::ₘ q, e.2 ≤ l) ∧ ∃ e ∈ (x, a) ::ₘ (y, b) ::ₘ q, e.2 = l := by
    obtain ⟨e, he, hm⟩ := Multiset.exists_max_image (fun e : Nat × Nat => e.2)
      (s := (x, a) ::ₘ (y, b) ::ₘ q) (by simp)
    exact ⟨e.2, hm, e, he, rfl⟩
  simp only [Multiset.mem_cons, forall_eq_or_imp] at hl1
  obtain ⟨ha, hb, hl1⟩ := hl1
  have hl0 : 1 ≤ l := by
    by_contra h0
    obtain rfl : l = 0 := by omega
    have : a = 0 := by omega
    have : b = 0 := by omega
    subst a b
    simp only [hufKraft_cons, pow_zero] at hk; have := hufKraft_nonneg q; linarith
  by_cases h1 : a = l
  · subst h1
    by_cases h2 : b = a
    · subst h2; exact base _ _ hq hk
    · by_cases h3 : ∃ e ∈ q, e.2 = a
      · obtain ⟨⟨z, l⟩, he, rfl⟩ := h3
        obtain ⟨q, rfl⟩ := Multiset.exists_cons_of_mem he
        have h4 := mul_exchange (hqx _ he).2 hb
        have := base l ((z, b) ::ₘ q) (by simpa using hq) (by simp only [hufKraft_cons] at hk ⊢; linarith)
        simp only [hufCost_cons] at this ⊢
        linarith
      · push Not at h3
        obtain ⟨a, rfl⟩ : ∃ a', a = a' + 1 := ⟨a - 1, by omega⟩
        have := ih (a + b + (q.map Prod.snd).sum) (by omega) a b q rfl hq
          (hufKraft_shorten _ _ _ (by
            intro e he
            rcases Multiset.mem_cons.1 he with rfl | he
            · simp; omega
            · have := hl1 e he; have := h3 e he; omega) hk)
        simp only [hufCost_cons] at this ⊢
        nlinarith
  · by_cases h2 : b = l
    · subst h2
      by_cases h3 : ∃ e ∈ q, e.2 = b
      · obtain ⟨⟨z, l⟩, he, rfl⟩ := h3
        obtain ⟨q, rfl⟩ := Multiset.exists_cons_of_mem he
        have h4 := mul_exchange (hqx _ he).1 ha
        have := base l ((z, a) ::ₘ q) (by simpa using hq) (by simp only [hufKraft_cons] at hk ⊢; linarith)
        simp only [hufCost_cons] at this ⊢
        linarith
      · push Not at h3
        obtain ⟨b, rfl⟩ : ∃ b', b = b' + 1 := ⟨b - 1, by omega⟩
        have := ih (a + b + (q.map Prod.snd).sum) (by omega) a b q rfl hq (by
          rw [Multiset.cons_swap] at hk ⊢
          refine hufKraft_shorten _ _ _ ?_ hk
          intro e he
          rcases Multiset.mem_cons.1 he with rfl | he
          · simp; omega
          · have := hl1 e he; have := h3 e he; omega)
        simp only [hufCost_cons] at this ⊢
        nlinarith
    · have h3 : ∃ e ∈ q, e.2 = l := by
        obtain ⟨e, he, h⟩ := hl2
        simp only [Multiset.mem_cons] at he
        rcases he with rfl | rfl | he
        · exact absurd h h1
        · exact absurd h h2
        · exact ⟨e, he, h⟩
      obtain ⟨⟨z, l⟩, he, rfl⟩ := h3
      obtain ⟨q, rfl⟩ := Multiset.exists_cons_of_mem he
      by_cases h4 : ∃ e ∈ q, e.2 = l
      · obtain ⟨⟨z', l⟩, he', rfl⟩ := h4
        obtain ⟨q, rfl⟩ := Multiset.exists_cons_of_mem he'
        have h5 := mul_exchange (hqx _ he).1 ha
        have h6 := mul_exchange (hqx _ (Multiset.mem_cons_of_mem he')).2 hb
        have := base l ((z, a) ::ₘ (z', b) ::ₘ q) (by simpa using hq) (by simp only [hufKraft_cons] at hk ⊢; linarith)
        simp only [hufCost_cons] at this ⊢ h5 h6
        linarith
      · push Not at h4
        obtain ⟨l, rfl⟩ : ∃ l', l = l' + 1 := ⟨l - 1, by omega⟩
        have := ih (a + b + (((z, l) ::ₘ q).map Prod.snd).sum) (by simp at hn ⊢; omega) a b ((z, l) ::ₘ q) rfl
          (by simpa using hq) (by
            have e1 : ∀ e, (x, a) ::ₘ (y, b) ::ₘ e ::ₘ q = e ::ₘ (x, a) ::ₘ (y, b) ::ₘ q := by
              intro e; rw [Multiset.cons_swap (y, b), Multiset.cons_swap (x, a)]
            rw [e1] at hk ⊢
            refine hufKraft_shorten _ _ _ ?_ hk
            intro e he
            rcases Multiset.mem_cons.1 he with rfl | he
            · simp at ha ⊢; omega
            rcases Multiset.mem_cons.1 he with rfl | he
            · simp at hb ⊢; omega
            · have := hl1 e (Multiset.mem_cons_of_mem he); have := h4 e he; simp at this ⊢; omega)
        simp only [hufCost_cons] at this ⊢
        nlinarith

/-- A multiset of pairs whose first components hold `x` holds a pair of `x`. -/
theorem exists_cons_of_map_fst {α β : Type} {p : Multiset (α × β)} {x : α} {r : Multiset α} (h : p.map Prod.fst = x ::ₘ r) :
    ∃ a q, p = (x, a) ::ₘ q ∧ q.map Prod.fst = r := by
  classical
  obtain ⟨⟨x, a⟩, he, rfl, h'⟩ := (Multiset.map_eq_cons _ _ _ _).2 h
  exact ⟨a, p.erase (x, a), (Multiset.cons_erase he).symm, h'⟩

/-- No assignment of lengths with Kraft sum at most 1 costs less than combining the two smallest weights until one is left. -/
theorem hufMergeCost_le {w : Multiset Nat} {c : Nat} (h : HufMergeCost w c) :
    ∀ p : HufPairs, p.map Prod.fst = w → hufKraft p ≤ 1 → c ≤ hufCost p := by
  induction h with
  | one w => intro p _ _; exact Nat.zero_le _
  | merge x y r c hx hy _ ih =>
    intro p hp hk
    obtain ⟨a, p, rfl, hp'⟩ := exists_cons_of_map_fst hp
    obtain ⟨b, q, rfl, hq⟩ := exists_cons_of_map_fst hp'
    exact hufMerge_bound_step x y c r hx hy ih _ a b q rfl hq hk

/-- Descending weights with rising lengths cost least among the pairings of the same weights and lengths. -/
theorem hufCost_sorted_le : ∀ (ws ls : List Nat) (p : HufPairs), ws.Pairwise (fun x y => y ≤ x) → ls.Pairwise (fun x y => x ≤ y) →
    p.map Prod.fst = ws → p.map Prod.snd = ls → hufCost ((ws.zip ls : List (Nat × Nat)) : HufPairs) ≤ hufCost p
  | [], _, _, _, _, _, _ => by simp
  | _ :: _, [], _, _, _, _, _ => by simp
  | w :: ws, l :: ls, p, hw, hl, h1', h2 => by
    rw [List.pairwise_cons] at hw hl
    obtain ⟨a, p, rfl, h1⟩ := exists_cons_of_map_fst (x := w) (r := ws) (by simpa using h1')
    simp only [List.zip_cons_cons, ← Multiset.cons_coe, hufCost_cons]
    by_cases ha : a = l
    · subst ha
      have := hufCost_sorted_le ws ls p hw.2 hl.2 h1 (by simpa [← Multiset.cons_coe] using h2)
      omega
    · have hm : l ∈ p.map Prod.snd := by
        have : l ∈ ((w, a) ::ₘ p).map Prod.snd := by rw [h2]; simp
        simp at this ⊢
        exact this.resolve_left (fun h => ha h.symm)
      obtain ⟨⟨z, l⟩, he, rfl⟩ := Multiset.mem_map.1 hm
      obtain ⟨q, rfl⟩ := Multiset.exists_cons_of_mem he
      have hz : z ≤ w := hw.1 z (by
        have : z ∈ ((z, l) ::ₘ q).map Prod.fst := by simp
        rw [h1] at this; simpa using this)
      have hal : l ≤ a := by
        have : a ∈ ((w, a) ::ₘ (z, l) ::ₘ q).map Prod.snd := by simp
        rw [h2] at this
        rcases List.mem_cons.1 (by simpa using this) with h | h
        · exact absurd h ha
        · exact hl.1 a h
      have h3 : (((z, a) ::ₘ q).map Prod.snd) = ls := by
        simp only [Multiset.map_cons, ← Multiset.cons_coe] at h2 ⊢
        rw [Multiset.cons_swap] at h2
        exact Multiset.cons_inj_right _ |>.1 h2
      have := hufCost_sorted_le ws ls ((z, a) ::ₘ q) hw.2 hl.2 (by simpa using h1) h3
      have := mul_exchange hz hal
      simp only [hufCost_cons] at *
      linarith

/-- The leaves below a node, each with its weight and its depth: the node's weight is the sum of theirs, its vector counts them by depth. -/
structure HufLeavesOf (n : HufNode) (p : HufPairs) : Prop where
  weight : n.weight = (p.map Prod.fst).sum
  count : ∀ j, n.vec.getD j 0 = (p.map Prod.snd).count j

/-- All leaves one level deeper. -/
def hufDeeper (p : HufPairs) : HufPairs := p.map fun e => (e.1, e.2 + 1)

/-- One level deeper, the weights stay. -/
theorem hufDeeper_fst (p : HufPairs) : (hufDeeper p).map Prod.fst = p.map Prod.fst := by simp [hufDeeper]

/-- One level deeper costs every weight once more. -/
theorem hufDeeper_cost (p : HufPairs) : hufCost (hufDeeper p) = hufCost p + (p.map Prod.fst).sum := by
  induction p using Multiset.induction with
  | empty => rfl
  | cons e p ih => simp [hufDeeper] at ih ⊢; rw [ih]; ring

/-- One level deeper, the counts move by one level. -/
theorem hufDeeper_count (p : HufPairs) (j : Nat) :
    ((hufDeeper p).map Prod.snd).count (j + 1) = (p.map Prod.snd).count j ∧ ((hufDeeper p).map Prod.snd).count 0 = 0 := by
  induction p using Multiset.induction with
  | empty => simp [hufDeeper]
  | cons e p ih => simp [hufDeeper, Multiset.count_cons] at ih ⊢; exact ih

/-- The position-wise sum (R127): the length of the longer vector, the sum at every depth. -/
theorem hufAddVec_spec (u v : List Nat) :
    (hufAddVec u v).length = max u.length v.length ∧ ∀ j, (hufAddVec u v).getD j 0 = u.getD j 0 + v.getD j 0 := by
  induction u generalizing v with
  | nil => simp [hufAddVec]
  | cons a u ih =>
    rcases v with - | ⟨b, v⟩
    · simp [hufAddVec]
    · refine ⟨by simp [hufAddVec, (ih v).1], fun j => ?_⟩
      rcases j with - | j
      · simp [hufAddVec]
      · simpa [hufAddVec] using (ih v).2 j

/-- The combined node of the model is the node R127 inserts. -/
theorem hufCombine_combines (x y : HufNode) (serial : Nat) : HufCombines x y serial (hufCombine x y serial) where
  weight := rfl
  serial := rfl
  depth := by simp [hufCombine, (hufAddVec_spec x.vec y.vec).1]
  root := rfl
  below := fun j => by simpa [hufCombine] using (hufAddVec_spec x.vec y.vec).2 j

/-- The leaves below a combined node are those of both nodes, one level deeper (R127). -/
theorem HufCombines.leaves {x y n : HufNode} {serial : Nat} {p q : HufPairs} (h : HufCombines x y serial n)
    (hx : HufLeavesOf x p) (hy : HufLeavesOf y q) : HufLeavesOf n (hufDeeper (p + q)) where
  weight := by rw [hufDeeper_fst, h.weight, hx.weight, hy.weight, Multiset.map_add, Multiset.sum_add]
  count := by
    intro j
    rcases j with - | j
    · rw [h.root, (hufDeeper_count _ 0).2]
    · rw [h.below, hx.count, hy.count, (hufDeeper_count _ j).1, Multiset.map_add, Multiset.count_add]

/-- The leaves of the tree of R127: their weights are those of the queue, the vector counts them by depth, and their cost is what combining the
two smallest weights costs. -/
theorem HufTreeOf.leaves {serial : Nat} {q : List HufNode} {vec : List Nat} (h : HufTreeOf serial q vec) :
    ∀ s : Multiset (HufNode × HufPairs), s.map Prod.fst = q → (∀ e ∈ s, HufLeavesOf e.1 e.2) →
      ∃ (p : HufPairs) (c : Nat), p.map Prod.fst = (s.map fun e => e.2.map Prod.fst).sum ∧
        HufMergeCost (s.map fun e => e.1.weight) c ∧ hufCost p = (s.map fun e => hufCost e.2).sum + c ∧
        ∀ j, vec.getD j 0 = (p.map Prod.snd).count j := by
  induction h with
  | done serial t =>
    intro s hs ho
    obtain ⟨p, s, rfl, h0⟩ := exists_cons_of_map_fst (x := t) (r := 0) (by simpa using hs)
    obtain rfl := Multiset.map_eq_zero.1 h0
    refine ⟨p, 0, by simp, ?_, by simp, (ho _ (Multiset.mem_cons_self _ _)).count⟩
    simpa using HufMergeCost.one t.weight
  | pass serial q rest x y n vec hq hx hy hn _ ih =>
    intro s hs ho
    rw [Multiset.coe_eq_coe.2 hq, ← Multiset.cons_coe, ← Multiset.cons_coe] at hs
    obtain ⟨px, s₁, rfl, hs₁⟩ := exists_cons_of_map_fst hs
    obtain ⟨py, s, rfl, hr⟩ := exists_cons_of_map_fst hs₁
    simp only [Multiset.mem_cons, forall_eq_or_imp] at ho
    obtain ⟨p, c, h1, h2, h3, h4⟩ := ih ((n, hufDeeper (px + py)) ::ₘ s) (by simp [hr]) (by
      simp only [Multiset.mem_cons, forall_eq_or_imp]
      exact ⟨hn.leaves ho.1 ho.2.1, ho.2.2⟩)
    refine ⟨p, x.weight + y.weight + c, ?_, ?_, ?_, h4⟩
    · rw [h1]; simp [hufDeeper_fst, add_assoc]
    · simp only [Multiset.map_cons, hn.weight] at h2 ⊢
      refine .merge _ _ _ _ ?_ ?_ h2
      · intro z hz
        obtain ⟨e, he, rfl⟩ := Multiset.mem_map.1 hz
        have : e.1 ∈ rest := by
          have := Multiset.mem_map_of_mem Prod.fst he; rw [hr] at this; simpa using this
        rcases hx e.1 (List.mem_cons_of_mem _ this) with h | h <;> omega
      · intro z hz
        obtain ⟨e, he, rfl⟩ := Multiset.mem_map.1 hz
        have : e.1 ∈ rest := by
          have := Multiset.mem_map_of_mem Prod.fst he; rw [hr] at this; simpa using this
        rcases hy e.1 this with h | h <;> omega
    · rw [h3]
      simp only [Multiset.map_cons, Multiset.sum_cons, hufDeeper_cost, hufCost_add, Multiset.map_add, Multiset.sum_add,
        ← ho.1.weight, ← ho.2.1.weight]
      ring

/-- Single leaves. -/
theorem hufLeavesOf_leaf (w serial : Nat) : HufLeavesOf { weight := w, serial := serial, vec := [1] } {(w, 0)} where
  weight := by simp
  count := by intro j; rcases j with - | j <;> simp

/-- The tree of R127 is of least cost: its leaves, with the weights of the queue of single leaves and depths counted by the vector, cost no more
than any lengths of Kraft sum at most 1. -/
theorem HufTreeOf.minimal {serial : Nat} {q : List HufNode} {vec : List Nat} (h : HufTreeOf serial q vec)
    (hq : ∀ n ∈ q, n.vec = [1]) :
    ∃ p : HufPairs, p.map Prod.fst = (q.map fun n => n.weight : List Nat) ∧ (∀ j, vec.getD j 0 = (p.map Prod.snd).count j) ∧
      ∀ p' : HufPairs, p'.map Prod.fst = (q.map fun n => n.weight : List Nat) → hufKraft p' ≤ 1 → hufCost p ≤ hufCost p' := by
  obtain ⟨p, c, h1, h2, h3, h4⟩ := h.leaves ((q : Multiset HufNode).map fun n => (n, {(n.weight, 0)}))
    (by rw [Multiset.map_map]; exact Multiset.map_id _) (by
    intro e he
    obtain ⟨⟨w, s, v⟩, hm, rfl⟩ := Multiset.mem_map.1 he
    obtain rfl := hq _ (by simpa using hm)
    exact hufLeavesOf_leaf w s)
  have hw : ((q.map fun n => n.weight : List Nat) : Multiset Nat) = (q : Multiset HufNode).map fun n => n.weight := by simp
  refine ⟨p, ?_, h4, fun p' hp' hk => ?_⟩
  · rw [h1, hw]
    generalize (q : Multiset HufNode) = q
    induction q using Multiset.induction with
    | empty => simp
    | cons n q ih => simp at ih ⊢; exact ih
  · have h0 : (((q : Multiset HufNode).map fun n => (n, ({(n.weight, 0)} : HufPairs))).map fun e => hufCost e.2).sum = 0 := by
      generalize (q : Multiset HufNode) = q
      induction q using Multiset.induction with
      | empty => simp
      | cons n q ih => simp [hufCost] at ih ⊢
    rw [h3, h0, zero_add]
    refine hufMergeCost_le h2 p' ?_ hk
    rw [hp', hw, Multiset.map_map]
    rfl

/-- Descending weights under rising lengths that the vector counts cost no more than any lengths of Kraft sum at most 1 (R130, R138 (g)). -/
theorem HufTreeOf.sorted_minimal {serial : Nat} {q : List HufNode} {vec ls : List Nat} (h : HufTreeOf serial q vec)
    (hq : ∀ n ∈ q, n.vec = [1]) (hw : (q.map fun n => n.weight).Pairwise fun x y => y ≤ x) (hl : ls.Pairwise fun x y => x ≤ y)
    (hc : ∀ j, vec.getD j 0 = ls.count j) (p' : HufPairs) (hp' : p'.map Prod.fst = (q.map fun n => n.weight : List Nat))
    (hk : hufKraft p' ≤ 1) : hufCost (((q.map fun n => n.weight).zip ls : List (Nat × Nat)) : HufPairs) ≤ hufCost p' := by
  obtain ⟨p, h1, h2, h3⟩ := h.minimal hq
  refine (hufCost_sorted_le _ _ p hw hl h1 ?_).trans (h3 p' hp' hk)
  ext j
  rw [← h2, hc, Multiset.coe_count]

/-- Words of which none is the beginning of another have Kraft sum at most 1. -/
theorem hufKraft_words_le : ∀ (n : Nat) (l : List (List Bool)), (∀ w ∈ l, w.length ≤ n) →
    l.Pairwise (fun u v => ¬ u <+: v ∧ ¬ v <+: u) → (l.map fun w => (1 / 2 : ℚ) ^ w.length).sum ≤ 1
  | n, [], _, _ => by simp
  | n, [w], _, _ => by
    have : (1 / 2 : ℚ) ^ w.length ≤ 1 := pow_le_one₀ (by norm_num) (by norm_num)
    simpa using this
  | 0, u :: v :: l, h, hp => by
    have hu : u = [] := List.eq_nil_of_length_eq_zero (by simpa using h u (by simp))
    rw [List.pairwise_cons] at hp
    exact absurd (hu ▸ List.nil_prefix) (hp.1 v (by simp)).1
  | n + 1, u :: v :: l, h, hp => by
    -- the words that begin with the bit `b`, without it
    let tails (b : Bool) (l : List (List Bool)) : List (List Bool) :=
      l.filterMap fun w => match w with
        | [] => none
        | c :: w => if c = b then some w else none
    have hmem : ∀ b l w, w ∈ tails b l ↔ b :: w ∈ l := by
      intro b l w
      simp only [tails, List.mem_filterMap]
      constructor
      · rintro ⟨- | ⟨c, x⟩, hx, h⟩
        · simp at h
        · simp at h; obtain ⟨rfl, rfl⟩ := h; exact hx
      · intro hx; exact ⟨_, hx, by simp⟩
    have hpair : ∀ b l, l.Pairwise (fun u v => ¬ u <+: v ∧ ¬ v <+: u) →
        (tails b l).Pairwise (fun u v : List Bool => ¬ u <+: v ∧ ¬ v <+: u) := by
      intro b l hl
      refine List.Pairwise.filterMap _ ?_ hl
      intro x y hxy a ha c hc
      rcases x with - | ⟨d, x⟩
      · simp at ha
      rcases y with - | ⟨e, y⟩
      · simp at hc
      simp at ha hc
      obtain ⟨rfl, rfl⟩ := ha
      obtain ⟨rfl, rfl⟩ := hc
      simpa using hxy
    have hsum : ∀ l : List (List Bool), [] ∉ l →
        (l.map fun w => (1 / 2 : ℚ) ^ w.length).sum =
          (((tails true l).map fun w => (1 / 2 : ℚ) ^ w.length).sum + ((tails false l).map fun w => (1 / 2 : ℚ) ^ w.length).sum) / 2 := by
      intro l hl
      induction l with
      | nil => simp [tails]
      | cons w l ih =>
        simp only [List.mem_cons, not_or] at hl
        have ih := ih hl.2
        rcases w with - | ⟨c, w⟩
        · exact absurd rfl hl.1
        · simp only [tails] at ih ⊢
          cases c <;> simp [pow_succ] at ih ⊢ <;> rw [ih] <;> ring
    have hnil : [] ∉ u :: v :: l := by
      intro hn
      have hp' := hp
      rw [List.pairwise_cons] at hp'
      rcases List.mem_cons.1 hn with h0 | h0
      · exact (hp'.1 v (by simp)).1 (h0 ▸ List.nil_prefix)
      · exact (hp'.1 [] h0).2 List.nil_prefix
    have hlen : ∀ b, ∀ w ∈ tails b (u :: v :: l), w.length ≤ n := by
      intro b w hw
      have := h _ ((hmem b _ w).1 hw)
      simpa using this
    rw [hsum _ hnil]
    have h1 := hufKraft_words_le n _ (hlen true) (hpair true _ hp)
    have h2 := hufKraft_words_le n _ (hlen false) (hpair false _ hp)
    linarith
end Sys2Proof.Machine
end

