-- ==== Sys2Proof/Laws/Operands.lean ====
section
/-! SUPPORT. The packing of responses and the bytes of operands. -/

namespace Sys2Proof.Machine

/-- A response of one field at bit 0. -/
theorem respField_zero {w : Nat} (v : BitVec w) : respField v 0 = BitVec.ofNat 64 v.toNat := by
  simp [respField]

/-- A response of two fields that do not overlap: the sum of their values. -/
theorem respField_pair {u v lo : Nat} (x : BitVec u) (y : BitVec v) (h : u ≤ lo) (h2 : lo + v ≤ 64) :
    respField x 0 ||| respField y lo = BitVec.ofNat 64 (x.toNat + y.toNat * 2 ^ lo) := by
  have hx := x.isLt
  have hy := y.isLt
  have h3 : 2 ^ u ≤ 2 ^ lo := Nat.pow_le_pow_right (by omega) h
  have h4 : 2 ^ v * 2 ^ lo ≤ 2 ^ 64 := by rw [← Nat.pow_add]; exact Nat.pow_le_pow_right (by omega) (by omega)
  have h5 : 2 ^ lo ≤ 2 ^ 64 := Nat.pow_le_pow_right (by omega) (by omega)
  have h6 : 2 ^ v ≤ 2 ^ 64 := Nat.pow_le_pow_right (by omega) (by omega)
  have hyl : y.toNat * 2 ^ lo < 2 ^ 64 := Nat.lt_of_lt_of_le (Nat.mul_lt_mul_of_pos_right hy (by positivity)) h4
  apply BitVec.eq_of_toNat_eq
  simp only [respField, BitVec.toNat_or, BitVec.toNat_shiftLeft, BitVec.toNat_setWidth, BitVec.toNat_ofNat, Nat.shiftLeft_zero]
  rw [Nat.mod_eq_of_lt (a := x.toNat) (by omega), Nat.mod_eq_of_lt (a := y.toNat) (by omega), Nat.mod_eq_of_lt (a := x.toNat) (by omega), Nat.shiftLeft_eq, Nat.mod_eq_of_lt hyl]
  rw [Nat.or_comm, ← Nat.shiftLeft_eq, ← Nat.shiftLeft_add_eq_or_of_lt (by omega), Nat.shiftLeft_eq]
  rw [Nat.add_comm, Nat.mod_eq_of_lt]
  have : (y.toNat + 1) * 2 ^ lo ≤ 2 ^ v * 2 ^ lo := Nat.mul_le_mul_right _ hy
  rw [Nat.add_mul] at this
  omega

/-- The byte of an operand, as a number. -/
theorem byteOf_eq (a : FieldA) : byteOf a = BitVec.ofNat 8 a.toNat := by
  apply BitVec.eq_of_toNat_eq; simp [byteOf]

end Sys2Proof.Machine
end

