-- ==== Sys2Proof/Laws/PerInstr.lean ====
section
/-! SUPPORT. The families of statements made per command. `EncodedByRow`: the word of a command is the word of its row of the opcode map,
with the operand fields the row does not use at 0. -/

namespace Sys2Proof.Laws.EncodedByRow

/-- The word of `i` is that of a row of the opcode map, and the row gives `i` back from the operands. -/
def Statement (i : Instr) : Prop :=
  ∃ (r : OpcodeRow) (a : FieldA) (b : FieldB), opcodeRow r.op = some r ∧ encode i = enc r.op a b ∧ r.make a b = i ∧
    (r.usesA = false → a = 0#16) ∧ (r.usesB = false → b = 0#32)

theorem nop : Statement (.nop) :=
  ⟨⟨Opcode.nop, false, false, fun _ _ => .nop⟩, 0, 0, rfl, rfl, rfl, by simp, by simp⟩

theorem reset : Statement (.reset) :=
  ⟨⟨Opcode.reset, false, false, fun _ _ => .reset⟩, 0, 0, rfl, rfl, rfl, by simp, by simp⟩

theorem rdstat : Statement (.rdstat) :=
  ⟨⟨Opcode.rdstat, false, false, fun _ _ => .rdstat⟩, 0, 0, rfl, rfl, rfl, by simp, by simp⟩

theorem hufClr : Statement (.hufClr) :=
  ⟨⟨Opcode.hufClr, false, false, fun _ _ => .hufClr⟩, 0, 0, rfl, rfl, rfl, by simp, by simp⟩

theorem hufWrf (a : FieldA) (b : FieldB) : Statement (.hufWrf a b) :=
  ⟨⟨Opcode.hufWrf, true, true, fun a b => .hufWrf a b⟩, a, b, rfl, rfl, rfl, by simp, by simp⟩

theorem hufRdf (a : FieldA) : Statement (.hufRdf a) :=
  ⟨⟨Opcode.hufRdf, true, false, fun a _ => .hufRdf a⟩, a, 0, rfl, rfl, rfl, by simp, by simp⟩

theorem hufBuild : Statement (.hufBuild) :=
  ⟨⟨Opcode.hufBuild, false, false, fun _ _ => .hufBuild⟩, 0, 0, rfl, rfl, rfl, by simp, by simp⟩

theorem hufRdc (a : FieldA) : Statement (.hufRdc a) :=
  ⟨⟨Opcode.hufRdc, true, false, fun a _ => .hufRdc a⟩, a, 0, rfl, rfl, rfl, by simp, by simp⟩

theorem hufRds (a : FieldA) : Statement (.hufRds a) :=
  ⟨⟨Opcode.hufRds, true, false, fun a _ => .hufRds a⟩, a, 0, rfl, rfl, rfl, by simp, by simp⟩

theorem hufRdl (a : FieldA) : Statement (.hufRdl a) :=
  ⟨⟨Opcode.hufRdl, true, false, fun a _ => .hufRdl a⟩, a, 0, rfl, rfl, rfl, by simp, by simp⟩

theorem winInit (a : FieldA) : Statement (.winInit a) :=
  ⟨⟨Opcode.winInit, true, false, fun a _ => .winInit a⟩, a, 0, rfl, rfl, rfl, by simp, by simp⟩

theorem winReg (a : FieldA) : Statement (.winReg a) :=
  ⟨⟨Opcode.winReg, true, false, fun a _ => .winReg a⟩, a, 0, rfl, rfl, rfl, by simp, by simp⟩

theorem winLaclr : Statement (.winLaclr) :=
  ⟨⟨Opcode.winLaclr, false, false, fun _ _ => .winLaclr⟩, 0, 0, rfl, rfl, rfl, by simp, by simp⟩

theorem winLaput (a : FieldA) : Statement (.winLaput a) :=
  ⟨⟨Opcode.winLaput, true, false, fun a _ => .winLaput a⟩, a, 0, rfl, rfl, rfl, by simp, by simp⟩

theorem winMatch : Statement (.winMatch) :=
  ⟨⟨Opcode.winMatch, false, false, fun _ _ => .winMatch⟩, 0, 0, rfl, rfl, rfl, by simp, by simp⟩

theorem winRdb (b : FieldB) : Statement (.winRdb b) :=
  ⟨⟨Opcode.winRdb, false, true, fun _ b => .winRdb b⟩, 0, b, rfl, rfl, rfl, by simp, by simp⟩

theorem winRdn : Statement (.winRdn) :=
  ⟨⟨Opcode.winRdn, false, false, fun _ _ => .winRdn⟩, 0, 0, rfl, rfl, rfl, by simp, by simp⟩

theorem fltCfg (a : FieldA) (b : FieldB) : Statement (.fltCfg a b) :=
  ⟨⟨Opcode.fltCfg, true, true, fun a b => .fltCfg a b⟩, a, b, rfl, rfl, rfl, by simp, by simp⟩

theorem fltWrl (a : FieldA) (b : FieldB) : Statement (.fltWrl a b) :=
  ⟨⟨Opcode.fltWrl, true, true, fun a b => .fltWrl a b⟩, a, b, rfl, rfl, rfl, by simp, by simp⟩

theorem fltRdl (b : FieldB) : Statement (.fltRdl b) :=
  ⟨⟨Opcode.fltRdl, false, true, fun _ b => .fltRdl b⟩, 0, b, rfl, rfl, rfl, by simp, by simp⟩

theorem fltWrp (a : FieldA) (b : FieldB) : Statement (.fltWrp a b) :=
  ⟨⟨Opcode.fltWrp, true, true, fun a b => .fltWrp a b⟩, a, b, rfl, rfl, rfl, by simp, by simp⟩

theorem fltRdp (b : FieldB) : Statement (.fltRdp b) :=
  ⟨⟨Opcode.fltRdp, false, true, fun _ b => .fltRdp b⟩, 0, b, rfl, rfl, rfl, by simp, by simp⟩

theorem fltRdo (b : FieldB) : Statement (.fltRdo b) :=
  ⟨⟨Opcode.fltRdo, false, true, fun _ b => .fltRdo b⟩, 0, b, rfl, rfl, rfl, by simp, by simp⟩

theorem fltDefilt : Statement (.fltDefilt) :=
  ⟨⟨Opcode.fltDefilt, false, false, fun _ _ => .fltDefilt⟩, 0, 0, rfl, rfl, rfl, by simp, by simp⟩

theorem fltFilt (a : FieldA) : Statement (.fltFilt a) :=
  ⟨⟨Opcode.fltFilt, true, false, fun a _ => .fltFilt a⟩, a, 0, rfl, rfl, rfl, by simp, by simp⟩

theorem fltAuto : Statement (.fltAuto) :=
  ⟨⟨Opcode.fltAuto, false, false, fun _ _ => .fltAuto⟩, 0, 0, rfl, rfl, rfl, by simp, by simp⟩

theorem fltNext : Statement (.fltNext) :=
  ⟨⟨Opcode.fltNext, false, false, fun _ _ => .fltNext⟩, 0, 0, rfl, rfl, rfl, by simp, by simp⟩

theorem fltZprev : Statement (.fltZprev) :=
  ⟨⟨Opcode.fltZprev, false, false, fun _ _ => .fltZprev⟩, 0, 0, rfl, rfl, rfl, by simp, by simp⟩

theorem fltPaeth (b : FieldB) : Statement (.fltPaeth b) :=
  ⟨⟨Opcode.fltPaeth, false, true, fun _ b => .fltPaeth b⟩, 0, b, rfl, rfl, rfl, by simp, by simp⟩

theorem a7Setw (b : FieldB) : Statement (.a7Setw b) :=
  ⟨⟨Opcode.a7Setw, false, true, fun _ b => .a7Setw b⟩, 0, b, rfl, rfl, rfl, by simp, by simp⟩

theorem a7Seth (b : FieldB) : Statement (.a7Seth b) :=
  ⟨⟨Opcode.a7Seth, false, true, fun _ b => .a7Seth b⟩, 0, b, rfl, rfl, rfl, by simp, by simp⟩

theorem a7Desc (a : FieldA) : Statement (.a7Desc a) :=
  ⟨⟨Opcode.a7Desc, true, false, fun a _ => .a7Desc a⟩, a, 0, rfl, rfl, rfl, by simp, by simp⟩

theorem a7Size (a : FieldA) : Statement (.a7Size a) :=
  ⟨⟨Opcode.a7Size, true, false, fun a _ => .a7Size a⟩, a, 0, rfl, rfl, rfl, by simp, by simp⟩

end Sys2Proof.Laws.EncodedByRow
end

