-- ==== Sys2Proof/Laws/Window.lean ====
section
/-! SUPPORT. What the procedures of the window do, said once (42_window.md R162 to R168). -/

namespace Sys2Proof.Machine

/-- `winExtendFrom` stops at the first offset from `i` on where the lookahead and the candidate differ, or after `k` bytes. -/
theorem winExtendFrom_spec (w : WinState) (d : Nat) : ∀ k i, i ≤ winExtendFrom w d k i ∧ winExtendFrom w d k i ≤ i + k ∧
   (∀ j, i ≤ j → j < winExtendFrom w d k i → w.la.read j = winSrc w d j) ∧
   (winExtendFrom w d k i < i + k → w.la.read (winExtendFrom w d k i) ≠ winSrc w d (winExtendFrom w d k i)) := by
  intro k
  induction k with
  | zero => intro i; simp [winExtendFrom]; intros; omega
  | succ k ih =>
    intro i
    simp only [winExtendFrom]
    split
    · rename_i hh
      obtain ⟨a, b, c, d'⟩ := ih (i+1)
      refine ⟨by omega, by omega, fun j h1 h2 => ?_, fun h1 => d' (by omega)⟩
      rcases Nat.eq_or_lt_of_le h1 with rfl | h3
      · exact hh
      · exact c j h3 h2
    · exact ⟨le_refl _, by omega, fun j _ _ => by omega, fun _ => by assumption⟩

/-- The bounds of `ext(d)` (42_window.md R168). -/
theorem winExtend_le (w d) : winExtend w d ≤ 258 ∧ winExtend w d ≤ w.lalen.toNat := by
  obtain ⟨a, b, c, e⟩ := winExtendFrom_spec w d (min Config.winMaxMatch w.lalen.toNat) 0
  have hm : Config.winMaxMatch = 258 := rfl
  unfold winExtend; omega

/-- Two keys are equal exactly when their three bytes are (R163). -/
theorem winKey_inj {a b c a' b' c' : Byte} : winKey a b c = winKey a' b' c' ↔ a = a' ∧ b = b' ∧ c = c' := by
  constructor
  · intro h; unfold winKey at h
    have := a.isLt; have := b.isLt; have := c.isLt; have := a'.isLt; have := b'.isLt; have := c'.isLt
    refine ⟨BitVec.eq_of_toNat_eq ?_, BitVec.eq_of_toNat_eq ?_, BitVec.eq_of_toNat_eq ?_⟩ <;> omega
  · rintro ⟨rfl, rfl, rfl⟩; rfl

/-- The capacity is positive. -/
theorem winCap_pos (w : WinState) : 0 < winCap w := by unfold winCap; positivity

/-- What the eviction of R165 leaves. -/
theorem winEvict_fields (w : WinState) :
    (winEvict w).exp = w.exp ∧ (winEvict w).n = w.n ∧ (winEvict w).ring = w.ring ∧ (winEvict w).next = w.next ∧
      (winEvict w).la = w.la ∧ (winEvict w).lalen = w.lalen := by
  unfold winEvict; dsimp only; split
  · split <;> simp
  · simp

/-- What the eviction of R165 does to `HEAD`. -/
theorem winEvict_head (w : WinState) (k : Nat) : (winEvict w).head.read k =
    if winCap w ≤ w.n.toNat ∧
        k = winKey (winByte w w.n.toNat) (winByte w (w.n.toNat - winCap w + 1)) (winByte w (w.n.toNat - winCap w + 2)) ∧
        w.head.read k = some (BitVec.ofNat 64 (w.n.toNat - winCap w + 2)) then none
    else w.head.read k := by
  unfold winEvict; dsimp only
  split
  · rename_i h1
    split
    · rename_i h2
      simp only [read_write]
      by_cases hk : k = winKey (winByte w w.n.toNat) (winByte w (w.n.toNat - winCap w + 1)) (winByte w (w.n.toNat - winCap w + 2))
      · rw [if_pos hk, if_pos ⟨h1, hk, by rw [hk]; exact h2⟩]
      · rw [if_neg hk, if_neg (fun h => hk h.2.1)]
    · rename_i h2
      rw [if_neg]; rintro ⟨_, hk, h3⟩; rw [hk] at h3; exact h2 h3
  · rename_i h1; rw [if_neg (fun h => h1 h.1)]

/-- What `register` does to the ring and the count, and what it leaves (R165). -/
theorem winRegister_fields (w : WinState) (b : Byte) : (winRegister w b).exp = w.exp ∧ (winRegister w b).n = BitVec.ofNat 64 (w.n.toNat + 1) ∧
   (winRegister w b).ring = w.ring.write (winSlot w w.n.toNat) b ∧ (winRegister w b).la = w.la ∧ (winRegister w b).lalen = w.lalen := by
  obtain ⟨h1, h2, h3, h4, h5, h6⟩ := winEvict_fields w
  unfold winRegister winLink winAppend winSlot winCap
  dsimp only
  split <;> simp [h1, h2, h3, h5, h6]

/-- What `register` does to `HEAD` (R165). -/
theorem winRegister_head (w : WinState) (b : Byte) (k) : (winRegister w b).head.read k =
   if 2 ≤ w.n.toNat ∧ k = winKeyAt (winRegister w b) w.n.toNat then some (BitVec.ofNat 64 w.n.toNat) else (winEvict w).head.read k := by
  obtain ⟨h1, h2, h3, h4, h5, h6⟩ := winEvict_fields w
  have e : winKeyAt (winRegister w b) w.n.toNat = winKeyAt (winAppend (winEvict w) b) w.n.toNat := by
    unfold winRegister winLink winKeyAt winByte winSlot winCap
    dsimp only; split <;> rfl
  rw [e]
  unfold winRegister winLink
  split
  · rename_i hp
    simp only [read_write]
    by_cases hk : k = winKeyAt (winAppend (winEvict w) b) w.n.toNat
    · simp [hk, hp]
    · rw [if_neg hk, if_neg (fun h => hk h.2)]; rfl
  · rename_i hp; simp [hp, winAppend]

/-- What `register` does to `NEXT` (R165). -/
theorem winRegister_next (w : WinState) (b : Byte) (i) : (winRegister w b).next.read i =
    if i = winSlot w w.n.toNat then
      (if 2 ≤ w.n.toNat then (winEvict w).head.read (winKeyAt (winRegister w b) w.n.toNat) else none)
    else w.next.read i := by
  obtain ⟨h1, h2, h3, h4, h5, h6⟩ := winEvict_fields w
  have e : winKeyAt (winRegister w b) w.n.toNat = winKeyAt (winAppend (winEvict w) b) w.n.toNat := by
    unfold winRegister winLink winKeyAt winByte winSlot winCap
    dsimp only; split <;> rfl
  have e2 : winSlot (winAppend (winEvict w) b) w.n.toNat = winSlot w w.n.toNat := by simp [winSlot, winCap, winAppend, h1]
  rw [e]
  unfold winRegister winLink
  split
  · rename_i hp
    simp only [read_write, e2]
    simp [winAppend, h4]
  · rename_i hp; simp only [read_write, e2]; simp [winAppend, h4]

/-- The byte held for a position after `register`. -/
theorem winByte_winRegister (w : WinState) (b : Byte) (q) :
    winByte (winRegister w b) q = if winSlot w q = winSlot w w.n.toNat then b else winByte w q := by
  obtain ⟨h1, h2, h3, h4, h5⟩ := winRegister_fields w b
  unfold winByte
  rw [h3, read_write]
  have : winSlot (winRegister w b) q = winSlot w q := by simp [winSlot, winCap, h1]
  rw [this]

/-- Two positions at most `W` apart share a slot only when they are `W` apart. -/
theorem eq_add_winCap_of_winSlot_eq {w : WinState} {p q : Nat} (h1 : p ≤ q + winCap w) (h2 : q < p)
    (h : winSlot w q = winSlot w p) : p = q + winCap w := by
  have hc := winCap_pos w
  unfold winSlot at h
  have : (p - q) % winCap w = 0 := Nat.sub_mod_eq_zero_of_mod_eq h.symm
  obtain ⟨c, hc'⟩ := Nat.dvd_of_mod_eq_zero this
  rcases Nat.lt_trichotomy c 1 with h | h | h
  · have : c = 0 := by omega
    subst this; omega
  · subst h; omega
  · have := Nat.mul_le_mul_left (winCap w) (show 2 ≤ c by omega)
    omega

/-- A position and the one `W` before it share a slot. -/
theorem winByte_sub_winCap (w : WinState) (p : Nat) (h : winCap w ≤ p) : winByte w p = winByte w (p - winCap w) := by
  unfold winByte winSlot; congr 1
  conv_lhs => rw [show p = (p - winCap w) + winCap w by omega]
  simp

end Sys2Proof.Machine
end

