-- ==== Sys2Proof/Machine/Assembler.lean ====
section
/-! DEFINITION. The text form of a command (30_encoding.md R89): one command a line, the mnemonic, then the operands it uses, `A` first, with
a comma between them; numbers decimal, hexadecimal with `0x`, or one printable character in single quotes; a comment from `;` to the end
of the line. R89 shows this by examples: what it leaves open (spaces, the case of hexadecimal digits, a quoted `;` or `,`) is DESIGN
CHOICE (Log 19). No part of the machine uses this file. -/

namespace Sys2Proof.Machine

/-- The mnemonics of R84 with their opcodes. -/
def mnemonicTable : List (String × BitVec 8) :=
  [("NOP", Opcode.nop), ("RESET", Opcode.reset), ("RDSTAT", Opcode.rdstat)] ++
  [("HUF.CLR", Opcode.hufClr), ("HUF.WRF", Opcode.hufWrf), ("HUF.RDF", Opcode.hufRdf), ("HUF.BUILD", Opcode.hufBuild),
   ("HUF.RDC", Opcode.hufRdc), ("HUF.RDS", Opcode.hufRds), ("HUF.RDL", Opcode.hufRdl)] ++
  [("WIN.INIT", Opcode.winInit), ("WIN.REG", Opcode.winReg), ("WIN.LACLR", Opcode.winLaclr), ("WIN.LAPUT", Opcode.winLaput),
   ("WIN.MATCH", Opcode.winMatch), ("WIN.RDB", Opcode.winRdb), ("WIN.RDN", Opcode.winRdn)] ++
  [("FLT.CFG", Opcode.fltCfg), ("FLT.WRL", Opcode.fltWrl), ("FLT.RDL", Opcode.fltRdl), ("FLT.WRP", Opcode.fltWrp),
   ("FLT.RDP", Opcode.fltRdp), ("FLT.RDO", Opcode.fltRdo), ("FLT.DEFILT", Opcode.fltDefilt), ("FLT.FILT", Opcode.fltFilt),
   ("FLT.AUTO", Opcode.fltAuto), ("FLT.NEXT", Opcode.fltNext), ("FLT.ZPREV", Opcode.fltZprev), ("FLT.PAETH", Opcode.fltPaeth)] ++
  [("A7.SETW", Opcode.a7Setw), ("A7.SETH", Opcode.a7Seth), ("A7.DESC", Opcode.a7Desc), ("A7.SIZE", Opcode.a7Size)]

/-- The line without its comment; a quoted `;` starts none. -/
def asmUncomment : List Char → List Char
  | [] => []
  | '\'' :: c :: '\'' :: rest => '\'' :: c :: '\'' :: asmUncomment rest
  | c :: rest => if c = ';' then [] else c :: asmUncomment rest

/-- A space or a tab. -/
def asmBlank (c : Char) : Bool := decide (c = ' ') || decide (c = '\t')

/-- The text without blanks at its two ends. -/
def asmTrim (l : List Char) : List Char := ((l.dropWhile asmBlank).reverse.dropWhile asmBlank).reverse

/-- The text cut at its commas; a quoted `,` cuts nothing. -/
def asmOperands : List Char → List (List Char)
  | [] => [[]]
  | '\'' :: c :: '\'' :: rest =>
    match asmOperands rest with
    | [] => [['\'', c, '\'']]
    | t :: ts => ('\'' :: c :: '\'' :: t) :: ts
  | c :: rest =>
    if c = ',' then [] :: asmOperands rest
    else match asmOperands rest with
      | [] => [[c]]
      | t :: ts => (c :: t) :: ts

/-- The value of one digit. -/
def asmDigit (c : Char) : Option Nat :=
  if '0' ≤ c ∧ c ≤ '9' then some (c.toNat - 48)
  else if 'a' ≤ c ∧ c ≤ 'f' then some (c.toNat - 87)
  else if 'A' ≤ c ∧ c ≤ 'F' then some (c.toNat - 55)
  else none

/-- The number whose digits of the base follow the value read so far. -/
def asmDigits (base : Nat) : Nat → List Char → Option Nat
  | acc, [] => some acc
  | acc, c :: rest =>
    match asmDigit c with
    | none => none
    | some d => if d < base then asmDigits base (acc * base + d) rest else none

/-- A number: decimal, hexadecimal with `0x`, or the code of a quoted printable character (R89). -/
def asmNumber : List Char → Option Nat
  | [] => none
  | ['\'', c, '\''] => if 32 ≤ c.toNat ∧ c.toNat ≤ 126 then some c.toNat else none
  | '0' :: 'x' :: d :: rest => asmDigits 16 0 (d :: rest)
  | l => asmDigits 10 0 l

/-- The command of a row and its operand numbers, each within its field; none when the operands are not those the row uses. -/
def asmBuild (r : OpcodeRow) (operands : List Nat) : Option Instr :=
  match r.usesA, r.usesB, operands with
  | false, false, [] => some (r.make 0 0)
  | true, false, [a] => if a < 2 ^ 16 then some (r.make (BitVec.ofNat 16 a) 0) else none
  | false, true, [b] => if b < 2 ^ 32 then some (r.make 0 (BitVec.ofNat 32 b)) else none
  | true, true, [a, b] => if a < 2 ^ 16 ∧ b < 2 ^ 32 then some (r.make (BitVec.ofNat 16 a) (BitVec.ofNat 32 b)) else none
  | _, _, _ => none

/-- Every element of a list of options, or none. -/
def asmAll : List (Option Nat) → Option (List Nat)
  | [] => some []
  | none :: _ => none
  | some v :: rest => (asmAll rest).map fun vs => v :: vs

/-- The command a line of text stands for (R89); none when the line is no command. -/
def assembleChars (line : List Char) : Option Instr :=
  let l := asmTrim (asmUncomment line)
  let name := l.takeWhile fun c => !asmBlank c
  let rest := asmTrim (l.dropWhile fun c => !asmBlank c)
  let operands := if rest.isEmpty then some [] else asmAll ((asmOperands rest).map fun t => asmNumber (asmTrim t))
  match (mnemonicTable.find? fun e => decide (e.1.toList = name)), operands with
  | some e, some vs => (opcodeRow e.2).bind fun r => asmBuild r vs
  | _, _ => none

/-- `assembleChars` on a string. -/
def assemble (line : String) : Option Instr := assembleChars line.toList

end Sys2Proof.Machine
end

