-- ==== Sys2Proof/Tests/Slice0.lean ====
section
/-! SUPPORT. Tests of the model against the vectors of 95_test_vectors.md and the examples of the rules, and for every obligation with
hypotheses a witness that meets them. -/

namespace Sys2Proof.Tests

open Sys2Proof Sys2Proof.Machine

set_option Elab.async false

/-! Helpers: the last response, the state after, and small states. -/

/-- The last response given. -/
def said (o : Host.Outcome State Fault Refusal) : Option (Bool × Word) :=
  match o with
  | .next t => t.outbox.getLast?.map fun r => (r.ok, r.data)
  | .fault _ => none
  | .refused _ => none

/-- The state after a step. -/
def after (o : Host.Outcome State Fault Refusal) : State :=
  match o with
  | .next t => t
  | .fault _ => State.reset
  | .refused _ => State.reset

/-- The next word is sent and executed. -/
def send (s : State) (w : Word) : Host.Outcome State Fault Refusal := step (sending s w)

/-- The frequencies of vector H3. -/
def freqH3 : Memory (BitVec 32) := [(0, 5), (1, 9), (2, 12), (3, 13), (4, 16), (5, 45)]

/-- From reset, with frequencies written. -/
def withFreq (f : Memory (BitVec 32)) : State := { State.reset with huf := { HufState.reset with freq := f } }

/-- From reset, with a table built. -/
def built (f : Memory (BitVec 32)) : State := after (exec .hufBuild (withFreq f))

/-- A window with bytes registered and bytes of lookahead. -/
def winOf (exp : BitVec 4) (bytes look : List Byte) : WinState :=
  look.foldl winLookPut (bytes.foldl winRegister (winEmpty WinState.reset exp))

/-- From reset, with that window. -/
def withWindow (exp : BitVec 4) (bytes look : List Byte) : State :=
  { State.reset with win := winOf exp bytes look, status := Status.reset.winOpened }

/-- From reset, with rows of one delay: `prev` from index 1, `line` from the tag. -/
def withRows (bpp : FieldA) (prev line : List Byte) : State :=
  { State.reset with
    flt := { fltConfig bpp (BitVec.ofNat 32 (prev.length * 8 / bpp.toNat)) with
      line := Memory.ofList 0 line, prev := Memory.ofList 1 prev }
    status := Status.reset.fltConfigured }

/-- From reset, with an image size. -/
def withImage (w h : BitVec 32) : State := { State.reset with a7 := { w := w, h := h } }

/-- The locked state of vectors E32 to E37: `HUF.RDC 0` without a table. -/
def lockedByRdc : State := after (exec (.hufRdc 0) State.reset)

/-- The first elements of a row, from index `i`. -/
def bytesFrom (m : Memory Byte) (i k : Nat) : List Nat := (List.range k).map fun j => (m.read (i + j)).toNat

/-! Decoding (95_test_vectors.md, section 2.1): the words as the spec prints them. -/

theorem test_decode_nop_X1 : decode 0x0000000000000000#64 = .ok (.nop) := by decide

theorem test_decode_reset_X2 : decode 0x0100000000000000#64 = .ok (.reset) := by decide

theorem test_decode_rdstat_X3 : decode 0x0200000000000000#64 = .ok (.rdstat) := by decide

theorem test_decode_hufClr_X4 : decode 0x1000000000000000#64 = .ok (.hufClr) := by decide

theorem test_decode_hufWrf_X5 : decode 0x110000050000002D#64 = .ok (.hufWrf 5 45) := by decide

theorem test_decode_hufWrf_X6 : decode 0x1100011FFFFFFFFF#64 = .ok (.hufWrf 287 0xFFFFFFFF) := by decide

theorem test_decode_hufRdf_X7 : decode 0x1200011F00000000#64 = .ok (.hufRdf 287) := by decide

theorem test_decode_hufBuild_X8 : decode 0x1300000000000000#64 = .ok (.hufBuild) := by decide

theorem test_decode_hufRdc_X9 : decode 0x1400004100000000#64 = .ok (.hufRdc 65) := by decide

theorem test_decode_hufRds_X10 : decode 0x1500000000000000#64 = .ok (.hufRds 0) := by decide

theorem test_decode_hufRdl_X11 : decode 0x1600000F00000000#64 = .ok (.hufRdl 15) := by decide

theorem test_decode_winInit_X12 : decode 0x2000000F00000000#64 = .ok (.winInit 15) := by decide

theorem test_decode_winReg_X13 : decode 0x2100006100000000#64 = .ok (.winReg 0x61) := by decide

theorem test_decode_winLaclr_X14 : decode 0x2200000000000000#64 = .ok (.winLaclr) := by decide

theorem test_decode_winLaput_X15 : decode 0x2300005A00000000#64 = .ok (.winLaput 0x5A) := by decide

theorem test_decode_winMatch_X16 : decode 0x2400000000000000#64 = .ok (.winMatch) := by decide

theorem test_decode_winRdb_X17 : decode 0x2500000000008000#64 = .ok (.winRdb 32768) := by decide

theorem test_decode_winRdn_X18 : decode 0x2600000000000000#64 = .ok (.winRdn) := by decide

theorem test_decode_fltCfg_X19 : decode 0x3000001800000002#64 = .ok (.fltCfg 24 2) := by decide

theorem test_decode_fltWrl_X20 : decode 0x3100000A00000001#64 = .ok (.fltWrl 10 1) := by decide

theorem test_decode_fltRdl_X21 : decode 0x3200000000000004#64 = .ok (.fltRdl 4) := by decide

theorem test_decode_fltWrp_X22 : decode 0x3300000900000001#64 = .ok (.fltWrp 9 1) := by decide

theorem test_decode_fltRdp_X23 : decode 0x3400000000000006#64 = .ok (.fltRdp 6) := by decide

theorem test_decode_fltRdo_X24 : decode 0x3500000000000000#64 = .ok (.fltRdo 0) := by decide

theorem test_decode_fltDefilt_X25 : decode 0x3600000000000000#64 = .ok (.fltDefilt) := by decide

theorem test_decode_fltFilt_X26 : decode 0x3700000400000000#64 = .ok (.fltFilt 4) := by decide

theorem test_decode_fltAuto_X27 : decode 0x3800000000000000#64 = .ok (.fltAuto) := by decide

theorem test_decode_fltNext_X28 : decode 0x3900000000000000#64 = .ok (.fltNext) := by decide

theorem test_decode_fltZprev_X29 : decode 0x3A00000000000000#64 = .ok (.fltZprev) := by decide

theorem test_decode_fltPaeth_X30 : decode 0x3B000000001E140A#64 = .ok (.fltPaeth 0x1E140A) := by decide

theorem test_decode_a7Setw_X31 : decode 0x4000000000000005#64 = .ok (.a7Setw 5) := by decide

theorem test_decode_a7Seth_X32 : decode 0x4100000000000003#64 = .ok (.a7Seth 3) := by decide

theorem test_decode_a7Desc_X33 : decode 0x4200000200000000#64 = .ok (.a7Desc 2) := by decide

theorem test_decode_a7Size_X34 : decode 0x4300000600000000#64 = .ok (.a7Size 6) := by decide

/-- Every row of the opcode map has its own opcode (R84). -/
theorem test_opcodes_distinct : (opcodeMap.map fun r => r.op).Nodup := by decide

theorem test_opcode_map_size : opcodeMap.length = 33 ∧ tableRows.length = 33 := by decide

/-- E3: the opcode decides first (R85). -/
theorem test_decode_illegal_opcode : decode 0xFFFFFFFFFFFFFFFF#64 = .error .illegalOpcode := by decide

/-- E6: an unused operand field (R86). -/
theorem test_decode_reserved_operand : decode 0x1300000000000005#64 = .error .reservedField := by decide

/-- E7: `RSV` (R86). -/
theorem test_decode_reserved_rsv : decode 0x1401012C00000000#64 = .error .reservedField := by decide

theorem test_encode_flt_cfg : encode (.fltCfg 24 2) = 0x3000001800000002#64 := by decide

theorem test_encode_a7_size : encode (.a7Size 6) = 0x4300000600000000#64 := by decide

theorem test_decode_table_word : decodeTableWord 64 0x2500000000008000 = some (.winRdb 32768) := by decide

theorem test_with_fetch_word : said (step (State.reset.withFetchWord 64 0x1200011F00000000)) = some (true, 0#64) := by decide

/-! Pseudo-instructions (R90) and text (R89). -/

theorem test_expand_prev_row : expand (.fltPrevRow [9, 19]) = [.fltWrp 9 1, .fltWrp 19 2] := by decide

theorem test_expand_table : expand (.hufTable [5, 9]) = [.hufClr, .hufWrf 0 5, .hufWrf 1 9] := by decide

theorem test_expand_look : expand (.winLook [0x61]) = [.winLaclr, .winLaput 0x61] := by decide

theorem test_expand_row : expand (.fltRow 4 [1]) = [.fltWrl 4 0, .fltWrl 1 1] := by decide

theorem test_assemble_wrf : assemble "HUF.WRF 5, 45" = some (.hufWrf 5 45) := by decide +kernel

theorem test_assemble_character : assemble "WIN.REG 'a' ; position 0" = some (.winReg 0x61) := by decide +kernel

theorem test_assemble_hexadecimal : assemble "FLT.PAETH 0x1E140A" = some (.fltPaeth 0x1E140A) := by decide +kernel

/-! Well-formedness: one ill-formed command for each check, which the check refuses. -/

theorem test_wf_symbol : (Instr.hufWrf 288 1).WellFormed = false ∧ (Instr.hufWrf 287 1).WellFormed = true := by decide

theorem test_wf_symbol_reads :
    (Instr.hufRdf 288).WellFormed = false ∧ (Instr.hufRdc 288).WellFormed = false ∧ (Instr.hufRds 288).WellFormed = false := by
  decide

theorem test_wf_level :
    (Instr.hufRdl 0).WellFormed = false ∧ (Instr.hufRdl 16).WellFormed = false ∧ (Instr.hufRdl 15).WellFormed = true := by decide

theorem test_wf_exponent :
    (Instr.winInit 7).WellFormed = false ∧ (Instr.winInit 16).WellFormed = false ∧ (Instr.winInit 8).WellFormed = true := by decide

theorem test_wf_byte :
    (Instr.winReg 256).WellFormed = false ∧ (Instr.winLaput 256).WellFormed = false ∧ (Instr.fltWrl 256 0).WellFormed = false ∧
      (Instr.fltWrp 256 1).WellFormed = false := by decide

theorem test_wf_distance : (Instr.winRdb 0).WellFormed = false ∧ (Instr.winRdb 32769).WellFormed = false := by decide

theorem test_wf_format :
    (Instr.fltCfg 0 1).WellFormed = false ∧ (Instr.fltCfg 65 1).WellFormed = false ∧ (Instr.fltCfg 1 524289).WellFormed = false ∧
      (Instr.fltCfg 1 524288).WellFormed = true := by decide

theorem test_wf_index :
    (Instr.fltWrl 0 65537).WellFormed = false ∧ (Instr.fltRdl 65537).WellFormed = false ∧ (Instr.fltWrp 0 0).WellFormed = false ∧
      (Instr.fltWrp 0 65537).WellFormed = false ∧ (Instr.fltRdp 0).WellFormed = false ∧
      (Instr.fltRdp 65537).WellFormed = false ∧ (Instr.fltRdo 65537).WellFormed = false := by decide

theorem test_wf_filter_type : (Instr.fltFilt 5).WellFormed = false ∧ (Instr.fltFilt 4).WellFormed = true := by decide

theorem test_wf_packed : (Instr.fltPaeth 0x1000000).WellFormed = false ∧ (Instr.fltPaeth 0xFFFFFF).WellFormed = true := by decide

theorem test_wf_pass : (Instr.a7Desc 7).WellFormed = false ∧ (Instr.a7Size 7).WellFormed = false := by decide

/-! Errors and the lock (95_test_vectors.md, section 2.6). -/

theorem test_error_E1 : said (send State.reset 0x0300000000000000#64) = some (false, 0x0#64) ∧
    (after (send State.reset 0x0300000000000000#64)).status.word = 0x30101#64 := by decide +kernel

theorem test_error_E4 : said (send State.reset 0x0001000000000000#64) = some (false, 0x0#64) ∧
    (after (send State.reset 0x0001000000000000#64)).status.word = 0x201#64 := by decide +kernel

theorem test_error_E7 : said (send State.reset 0x1401012C00000000#64) = some (false, 0x0#64) ∧
    (after (send State.reset 0x1401012C00000000#64)).status.word = 0x140201#64 := by decide +kernel

theorem test_error_E9 : said (send State.reset 0x1100012000000001#64) = some (false, 0x0#64) ∧
    (after (send State.reset 0x1100012000000001#64)).status.word = 0x110401#64 := by decide +kernel

theorem test_error_E19 : said (send State.reset 0x3700000900000000#64) = some (false, 0x0#64) ∧
    (after (send State.reset 0x3700000900000000#64)).status.word = 0x370301#64 := by decide +kernel

theorem test_error_E33 : said (send lockedByRdc 0x0300000000000000#64) = some (false, 0x0#64) ∧
    (after (send lockedByRdc 0x0300000000000000#64)).status.word = 0x140301#64 := by decide +kernel

theorem test_error_E34 : said (send lockedByRdc 0x0200000000000001#64) = some (false, 0x0#64) ∧
    (after (send lockedByRdc 0x0200000000000001#64)).status.word = 0x140301#64 := by decide +kernel

theorem test_error_E35 : said (send lockedByRdc 0x0200000000000000#64) = some (true, 0x140301#64) ∧
    (after (send lockedByRdc 0x0200000000000000#64)).status.word = 0x140301#64 := by decide +kernel

theorem test_error_E36 : said (send lockedByRdc 0x0000000000000000#64) = some (true, 0x0#64) ∧
    (after (send lockedByRdc 0x0000000000000000#64)).status.word = 0x140301#64 := by decide +kernel

theorem test_error_E37 : said (send lockedByRdc 0x0100000000000000#64) = some (true, 0x0#64) ∧
    (after (send lockedByRdc 0x0100000000000000#64)).status.word = 0x0#64 := by decide +kernel

/-- E17: `E_RANGE` before `E_FULL`. -/
theorem test_error_E17 :
    said (exec (.winLaput 300) { withWindow 8 [] [] with win := { winOf 8 [] [] with lalen := 258 } }) = some (false, 0#64) ∧
      (after (exec (.winLaput 300) { withWindow 8 [] [] with win := { winOf 8 [] [] with lalen := 258 } })).status.word =
        0x230411#64 := by decide +kernel

/-- E16: the 259th byte. -/
theorem test_error_E16 :
    (after (exec (.winLaput 0) { withWindow 8 [] [] with win := { winOf 8 [] [] with lalen := 258 } })).status.word =
      0x230511#64 := by decide +kernel

/-! System commands. -/

/-- R111's example. -/
theorem test_reset_example :
    said (exec .reset lockedByRdc) = some (true, 0#64) ∧ (after (exec .reset lockedByRdc)).status.word = 0#64 := by decide

/-- R112's example: `FLT_READY` only. -/
theorem test_rdstat_example : said (exec .rdstat (after (exec (.fltCfg 8 4) State.reset))) = some (true, 0x40#64) := by decide

theorem test_hard_reset : (after (step { lockedByRdc with inbox := [.hardReset] })).status = Status.reset := by decide

/-! HUF (95_test_vectors.md, section 2.2). -/

/-- R121's example. -/
theorem test_huf_clr : said (exec (.hufRdf 5) (after (exec .hufClr (withFreq freqH3)))) = some (true, 0#64) := by decide

/-- R122's example, and E31: the write clears the table flags. -/
theorem test_huf_wrf :
    said (exec (.hufRdf 5) (after (exec (.hufWrf 5 45) State.reset))) = some (true, 45#64) ∧
      (after (exec (.hufWrf 0 0) (built []))).status.word = 0#64 := by decide +kernel

/-- E10: the last symbol. -/
theorem test_huf_rdf : said (exec (.hufRdf 287) State.reset) = some (true, 0#64) := by decide

/-- R133's example. -/
theorem test_huf_build_H3 : said (exec .hufBuild (withFreq freqH3)) = some (true, 0x40006#64) ∧
    (built freqH3).status.word = 2#64 := by decide +kernel

/-- H1: no live symbol. -/
theorem test_huf_build_H1 : said (exec .hufBuild State.reset) = some (true, 0x10002#64) ∧
    (built []).status.word = 0xA#64 := by decide +kernel

/-- R135's example. -/
theorem test_huf_rdc : said (exec (.hufRdc 0) (built freqH3)) = some (true, 0x4000E#64) := by decide +kernel

/-- P1, step 15: a symbol without a codeword. -/
theorem test_huf_rdc_unused : said (exec (.hufRdc 6) (built freqH3)) = some (true, 0#64) := by decide +kernel

/-- R136's example. -/
theorem test_huf_rds : said (exec (.hufRds 4) (built freqH3)) = some (true, 0#64) ∧
    said (exec (.hufRds 6) (built freqH3)) = some (false, 0#64) := by decide +kernel

/-- R137's example. -/
theorem test_huf_rdl : said (exec (.hufRdl 4) (built freqH3)) = some (true, 0x40002#64) := by decide +kernel

/-- H15: the vector of the tree of H3. -/
theorem test_huf_tree_H15 : hufTreeVec (hufSort (hufLive 288 freqH3)) = [0, 1, 0, 3, 2] := by decide +kernel

/-- H4: the tie-break of the queue. -/
theorem test_huf_tie_H4 : hufTreeVec [(2, 2), (3, 2), (0, 1), (1, 1)] = [0, 0, 4] := by decide

/-- H12: four limiting steps. -/
theorem test_huf_limit_H12 :
    hufLevelCounts 15 [0, 1, 1, 1, 1, 1, 1, 1, 1, 1, 1, 1, 1, 1, 1, 1, 1, 1, 1, 2] =
      [1, 1, 1, 1, 1, 1, 1, 1, 1, 1, 1, 1, 0, 0, 8] := by decide

/-- H9b and H9c: the other orders inside a level. -/
theorem test_huf_order_H9 :
    ((hufLevels 288 15 .freqDesc [(0, 1), (1, 3), (2, 2), (3, 10), (4, 2)]).levels.flatten = [3, 1, 2, 4, 0]) ∧
      (hufLevels 288 15 .freqAsc [(0, 1), (1, 3), (2, 2), (3, 10), (4, 2)]).levels.flatten = [3, 0, 4, 2, 1] := by
  decide +kernel

/-- H14a: a smaller limit. -/
theorem test_huf_limit_H14a :
    (hufLevels 6 3 .symbol [(0, 1), (1, 1), (2, 2), (3, 4), (4, 8), (5, 16)]).levels = [[], [4, 5], [0, 1, 2, 3]] := by
  decide +kernel

/-! WIN (95_test_vectors.md, section 2.3). The bytes are those of the letters. -/

/-- The bytes of "abcXabcY". -/
def registeredW6 : List Byte := [0x61, 0x62, 0x63, 0x58, 0x61, 0x62, 0x63, 0x59]

/-- The bytes of "abcYabcZ". -/
def lookaheadW6 : List Byte := [0x61, 0x62, 0x63, 0x59, 0x61, 0x62, 0x63, 0x5A]

/-- R161's example; E13. -/
theorem test_win_init : (after (exec (.winInit 8) State.reset)).status.word = 0x10#64 ∧
    (after (exec (.winInit 16) State.reset)).status.word = 0x200401#64 := by decide

/-- R166's example. -/
theorem test_win_reg :
    said (exec .winRdn (after (exec (.winReg 0x61) (withWindow 8 [] [])))) = some (true, 1#64) ∧
      said (exec (.winRdb 1) (after (exec (.winReg 0x61) (withWindow 8 [] [])))) = some (true, 0x61#64) := by decide +kernel

/-- The index after W6's registrations: `HEAD[abc] = 6`, `NEXT[6] = 2`. -/
theorem test_win_reg_links :
    (winOf 8 registeredW6 []).head.read 0x616263 = some 6 ∧ (winOf 8 registeredW6 []).next.read 6 = some 2 ∧
      (winOf 8 registeredW6 []).next.read 7 = none := by decide +kernel

/-- R167: the bytes of the lookahead are not cleared. -/
theorem test_win_laclr :
    (after (exec .winLaclr (withWindow 8 [] lookaheadW6))).win = { winOf 8 [] lookaheadW6 with lalen := 0 } := by decide +kernel

theorem test_win_laput :
    (after (exec (.winLaput 0x5A) (withWindow 8 [] [0x61]))).win.lalen = 2 ∧
      (after (exec (.winLaput 0x5A) (withWindow 8 [] [0x61]))).win.la.read 1 = 0x5A := by decide +kernel

/-- W6. -/
theorem test_win_match_W6 : said (exec .winMatch (withWindow 8 registeredW6 lookaheadW6)) = some (true, 0x100040007#64) := by
  decide +kernel

/-- W3 and W8. -/
theorem test_win_match_W3_W8 :
    winMatch (winOf 8 [0x61, 0x62] [0x61, 0x62, 0x61, 0x62, 0x61, 0x62]) = some { len := 6, dist := 2 } ∧
      winMatch (winOf 8 [0x61, 0x62, 0x61, 0x62] [0x61, 0x62]) = none := by decide +kernel

/-- W15. -/
theorem test_win_rdb : said (exec (.winRdb 4) (withWindow 8 registeredW6 [])) = some (true, 0x61#64) ∧
    (after (exec (.winRdb 9) (withWindow 8 registeredW6 []))).status.word = 0x250411#64 := by decide +kernel

theorem test_win_rdn : said (exec .winRdn (withWindow 8 registeredW6 [])) = some (true, 8#64) := by decide +kernel

/-- The eviction of W12b: the holder of the overwritten prefix leaves `HEAD` (R165). -/
theorem test_win_evict :
    (winEvict { winOf 8 [] [] with n := 256, ring := [(0, 0x78), (1, 0x79), (2, 0x7A)], head := [(0x78797A, some 2)] }).head = [] := by
  decide +kernel

/-! FLT (95_test_vectors.md, section 2.4). -/

/-- F9, the row of 24 bits per pixel. -/
theorem test_flt_cfg : said (exec (.fltCfg 24 2) State.reset) = some (true, 0x300000006#64) ∧
    (after (exec (.fltCfg 24 2) State.reset)).status.word = 0x40#64 := by decide +kernel

/-- F9, the largest product, which must not wrap. -/
theorem test_flt_cfg_no_wrap : (after (exec (.fltCfg 64 4294967295) State.reset)).status.word = 0x300401#64 := by decide +kernel

/-- P4, step 9; E21. -/
theorem test_flt_wrl :
    (after (exec (.fltWrl 10 1) (withRows 8 [0, 0, 0, 0] []))).flt.line.read 1 = 10 ∧
      (after (exec (.fltWrl 1 5) (withRows 8 [0, 0, 0, 0] []))).status.word = 0x310441#64 := by decide +kernel

theorem test_flt_rdl : said (exec (.fltRdl 4) (withRows 8 [0, 0, 0, 0] [1, 2, 3, 4, 5])) = some (true, 5#64) := by decide +kernel

/-- E23: there is no index 0. -/
theorem test_flt_wrp :
    (after (exec (.fltWrp 9 1) (withRows 8 [0, 0, 0, 0] []))).flt.prev.read 1 = 9 ∧
      (after (exec (.fltWrp 1 0) (withRows 8 [0, 0, 0, 0] []))).status.word = 0x330441#64 := by decide +kernel

theorem test_flt_rdp : said (exec (.fltRdp 4) (withRows 8 [10, 20, 30, 40] [])) = some (true, 40#64) := by decide +kernel

/-- P4, step 16. -/
theorem test_flt_rdo :
    said (exec (.fltRdo 4) (after (exec (.fltFilt 1) (withRows 24 [9, 19, 29, 12, 22, 33] [0, 10, 20, 30, 13, 24, 35])))) =
      some (true, 3#64) := by decide +kernel

/-- F2. -/
theorem test_flt_defilt_F2 :
    said (exec .fltDefilt (withRows 8 [10, 20, 30, 40] [4, 1, 1, 1, 1])) = some (true, 4#64) ∧
      bytesFrom (after (exec .fltDefilt (withRows 8 [10, 20, 30, 40] [4, 1, 1, 1, 1]))).flt.line 0 5 = [4, 11, 21, 31, 41] := by
  decide +kernel

/-- F4b: delay 3, type 3. -/
theorem test_flt_defilt_F4b :
    bytesFrom (after (exec .fltDefilt (withRows 24 [10, 20, 30, 40, 50, 60] [3, 1, 2, 3, 4, 5, 6]))).flt.line 0 7 =
      [3, 6, 12, 18, 27, 36, 45] := by decide +kernel

/-- F5, type 4, and its score. -/
theorem test_flt_filt_F5 :
    said (exec (.fltFilt 4) (withRows 8 [10, 20, 30, 40] [0, 10, 15, 20, 25])) = some (true, 3#64) ∧
      bytesFrom (after (exec (.fltFilt 4) (withRows 8 [10, 20, 30, 40] [0, 10, 15, 20, 25]))).flt.out 0 5 = [4, 0, 251, 246, 251] := by
  decide +kernel

/-- F8. -/
theorem test_flt_auto_F8 :
    said (exec .fltAuto (withRows 24 [9, 19, 29, 12, 22, 33] [0, 10, 20, 30, 13, 24, 35])) = some (true, 0x100000002#64) := by
  decide +kernel

/-- F6: a tie, the lower type wins. -/
theorem test_flt_auto_F6 :
    said (exec .fltAuto (withRows 8 [0, 0, 0, 0, 0, 0] [0, 7, 7, 7, 7, 7, 7])) = some (true, 0#64) := by decide +kernel

/-- P3, step 13. -/
theorem test_flt_next :
    bytesFrom (after (exec .fltNext (withRows 8 [0, 0, 0, 0] [1, 10, 15, 20, 25]))).flt.prev 0 5 = [0, 10, 15, 20, 25] := by
  decide +kernel

theorem test_flt_zprev : (after (exec .fltZprev (withRows 8 [10, 20, 30, 40] [1, 2, 3, 4, 5]))).flt.prev = [] := by decide +kernel

/-- PA4 and PA9. -/
theorem test_flt_paeth : said (exec (.fltPaeth 0x373C32) State.reset) = some (true, 55#64) ∧
    said (exec (.fltPaeth 0xFF0000) State.reset) = some (true, 0#64) := by decide +kernel

/-- PA6 and PA7: the ties. -/
theorem test_flt_paeth_ties : paeth 2 5 4 = 2 ∧ paeth 5 2 4 = 2 ∧ paeth 10 20 5 = 20 := by decide +kernel

/-- F1i: the average in 9 bits. -/
theorem test_flt_average : fltPredict 3 127 255 0 = 191 := by decide +kernel

/-! A7 (95_test_vectors.md, section 2.5). -/

theorem test_a7_setw : (after (exec (.a7Setw 5) (withImage 1 3))).a7 = { w := 5, h := 3 } := by decide

theorem test_a7_seth : (after (exec (.a7Seth 3) (withImage 5 1))).a7 = { w := 5, h := 3 } := by decide

theorem test_a7_desc : said (exec (.a7Desc 2) State.reset) = some (true, 0x03020400#64) ∧
    said (exec (.a7Desc 7) State.reset) = some (false, 0#64) := by decide +kernel

/-- A3, pass 4: 3 wide, 1 high. -/
theorem test_a7_size_A3 : said (exec (.a7Size 4) (withImage 5 3)) = some (true, 0x100000003#64) := by decide +kernel

/-- A9: the sum of 33 bits. -/
theorem test_a7_size_A9 :
    said (exec (.a7Size 0) (withImage 4294967295 4294967295)) = some (true, 0x2000000020000000#64) ∧
      said (exec (.a7Size 6) (withImage 4294967295 4294967295)) = some (true, 0x7FFFFFFFFFFFFFFF#64) := by decide +kernel

/-! Witnesses: for every obligation with hypotheses, states and operands that meet them, at the boundary values of its clauses. -/

theorem witness_StepRunsDecodedCommand : decode 0x0200000000000000#64 = .ok .rdstat ∧ State.reset.inbox = [] := by decide

theorem witness_EncodeOfDecode : decode 0x1100011FFFFFFFFF#64 = .ok (.hufWrf 287 0xFFFFFFFF) := by decide

theorem witness_DecodedWordsAreTableRows :
    ((0x2000000000000000#64, 0xFFFF0000FFFFFFFF#64) : Word × Word) ∈ tableRows ∧
      0x2000000F00000000#64 &&& 0xFFFF0000FFFFFFFF#64 = 0x2000000000000000#64 := by decide

theorem witness_IllegalAndReservedWordsRaise :
    State.reset.unlocked ∧ illegalOpcode (opField 0x0300000000000000#64).toNat = true ∧
      illegalOpcode (opField 0xFF00000000000000#64).toNat = true ∧ illegalOpcode (0x43#8).toNat = false ∧
      illegalOpcode (0x44#8).toNat = true := by decide

theorem witness_IllegalAndReservedWordsRaise_reserved :
    State.reset.unlocked ∧ (∃ r, opcodeRow (opField 0x1300000000000005#64) = some r ∧ r.usesB = false) ∧
      bField 0x1300000000000005#64 ≠ 0#32 ∧ rsvField 0x0001000000000000#64 ≠ 0#8 ∧ aField 0x0000000100000000#64 ≠ 0#16 :=
  ⟨rfl, ⟨_, rfl, rfl⟩, by decide, by decide, by decide⟩

theorem witness_LockedBlockExecutesOnlyThreeWords :
    lockedByRdc.locked ∧ 0x1300000000000000#64 ≠ 0x0000000000000000#64 ∧ 0x1300000000000000#64 ≠ 0x0100000000000000#64 ∧
      0x1300000000000000#64 ≠ 0x0200000000000000#64 := by decide

theorem witness_ClosedGateRaisesStateError :
    State.reset.unlocked ∧ gateOpen State.reset.status (.hufRdc 288) = false ∧ gateOpen State.reset.status (.winReg 256) = false ∧
      gateOpen State.reset.status (.fltFilt 9) = false := by decide

/-- The state of an image of 5 by 3 meets the invariant. -/
theorem witness_IllFormedCommandRaisesRangeError : (withImage 5 3).Inv :=
  { latch := { code := by decide, op := by decide }
    gates := { limited := by decide, degen := by decide, found := by decide }
    huf := fun h => absurd h (by decide)
    flt := fun h => absurd h (by decide)
    memories := by decide
    win := fun h => absurd h (by decide) }

theorem witness_IllFormedCommandRaisesRangeError_operands :
    (withImage 5 3).unlocked ∧ gateOpen (withImage 5 3).status (.a7Size 7) = true ∧ (Instr.a7Size 7).WellFormed = false ∧
      gateOpen (withImage 5 3).status (.hufRdf 288) = true ∧ (Instr.hufRdf 288).WellFormed = false := by decide

theorem witness_CommandCompletesOrChangesOnlyLatch :
    State.reset.unlocked ∧ exec (.a7Setw 5) State.reset = .next (answered (withImage 5 0) 0#64) ∧
      exec (.a7Desc 7) State.reset = .next (errorEntry State.reset 0x42#8 4#8) := ⟨rfl, rfl, rfl⟩

theorem witness_OnlyResetUnlocks :
    lockedByRdc.locked ∧ (∃ t, step (sending lockedByRdc 0x0100000000000000#64) = .next t ∧ t.unlocked) ∧
      (∃ t, step { lockedByRdc with inbox := [.hardReset] } = .next t ∧ t.unlocked) ∧
      (∃ t, step (sending lockedByRdc 0x1300000000000000#64) = .next t ∧ t.locked) :=
  ⟨rfl, ⟨_, rfl, rfl⟩, ⟨_, rfl, rfl⟩, ⟨_, rfl, rfl⟩⟩

theorem witness_UnitsShareOnlyTheLatch :
    (Instr.hufWrf 5 45) ≠ .reset ∧ (∃ t, exec (.hufWrf 5 45) State.reset = .next t) ∧
      (opField (encode (.hufWrf 5 45))).toNat / 16 ≠ 2 := ⟨by decide, ⟨_, rfl⟩, by decide⟩

/-- A read meets the hypotheses of every flag clause, `WIN.MATCH` those of `WIN_READY`. -/
theorem witness_UnitsShareOnlyTheLatch_flags :
    (∃ t, exec (.hufRdf 287) State.reset = .next t) ∧ Instr.hufRdf 287 ≠ .hufClr ∧ (∀ sym freq, Instr.hufRdf 287 ≠ .hufWrf sym freq) ∧
      Instr.hufRdf 287 ≠ .hufBuild ∧ (∀ exp, Instr.winMatch ≠ .winInit exp) ∧ Instr.winRdn ≠ .winMatch ∧
      ∀ bpp width, Instr.fltDefilt ≠ .fltCfg bpp width := by
  refine ⟨⟨_, rfl⟩, ?_⟩
  simp

theorem witness_SafeRunLeavesBlockUnlocked :
    ∃ t, State.reset.unlocked ∧
      Host.Core.run core 1 (sending State.reset 0x4000000000000005#64) = .next t ∧ t.safeSoFar :=
  ⟨answered (withImage 5 0) 0#64, rfl, rfl, by decide⟩

theorem witness_NothingBeforeResetIsSeenAfter :
    (∃ t, Host.Core.run core 2 { lockedByRdc with inbox := [.hardReset, .command 0x0200000000000000#64] } = .next t) ∧
      (∃ t, Host.Core.run core 2 { withImage 5 3 with inbox := [.hardReset, .command 0x0200000000000000#64] } = .next t) :=
  ⟨⟨_, rfl⟩, ⟨_, rfl⟩⟩

/-- Words for the clauses of `CommandWords` and `SystemWords`: the exact word, and one with a reserved field. -/
theorem witness_CommandWords :
    State.reset.unlocked ∧ opField 0x0100000000000000#64 = 0x01#8 ∧ rsvField 0x0100000000000000#64 = 0#8 ∧
      opField 0x0101000000000000#64 = 0x01#8 ∧ rsvField 0x0101000000000000#64 ≠ 0#8 ∧
      opField 0x1100000500000001#64 = 0x11#8 ∧ opField 0x2500000100000001#64 = 0x25#8 ∧ aField 0x2500000100000001#64 ≠ 0#16 := by
  decide

/-- The words of `NOP`, `RESET`, `RDSTAT` and their reserved variants, locked and not (vectors E4, E34). -/
theorem witness_SystemWords :
    State.reset.status.err = false ∧ lockedByRdc.status.err = true ∧ opField 0x0001000000000000#64 = 0x00#8 ∧
      rsvField 0x0001000000000000#64 ≠ 0#8 ∧ opField 0x0200000000000001#64 = 0x02#8 ∧ bField 0x0200000000000001#64 ≠ 0#32 := by
  decide

theorem witness_HufClrClearsFrequencies : (withFreq freqH3).unlocked := by decide

theorem witness_HufRdfAnswersFrequency :
    (withFreq freqH3).unlocked ∧ 288 ≤ (288#16 : FieldA).toNat ∧ (287#16 : FieldA).toNat < 288 := by decide

theorem witness_HufWrfWritesOneFrequency :
    State.reset.unlocked ∧ 288 ≤ (288#16 : FieldA).toNat ∧ (287#16 : FieldA).toNat < 288 := by decide

theorem witness_HufBuildStoresTable : (withFreq freqH3).unlocked ∧ (hufBuild freqH3).total = 6 := by decide +kernel

theorem witness_HufTableReadsAnswerElements :
    (built freqH3).unlocked ∧ (built freqH3).status.hufValid = true ∧ State.reset.status.hufValid = false ∧
      (built freqH3).huf.total.toNat = 6 ∧ (5#16 : FieldA).toNat < 6 ∧ ((0#16 : FieldA).toNat < 1 ∨ 15 < (0#16 : FieldA).toNat) ∧
      ((16#16 : FieldA).toNat < 1 ∨ 15 < (16#16 : FieldA).toNat) ∧ 1 ≤ (15#16 : FieldA).toNat ∧ (15#16 : FieldA).toNat ≤ 15 := by
  decide +kernel

/-- The last symbol and the first that is none, the last index and `HUF_TOTAL`, the first level. -/
theorem witness_HufTableReadsAnswerElements_bounds :
    (287#16 : FieldA).toNat < 288 ∧ 288 ≤ (288#16 : FieldA).toNat ∧ (5#16 : FieldA).toNat < (built freqH3).huf.total.toNat ∧
      (built freqH3).huf.total.toNat ≤ (6#16 : FieldA).toNat ∧ 1 ≤ (1#16 : FieldA).toNat := by
  decide +kernel

theorem witness_HufDegenerateCases :
    (∀ s, s < 288 → Memory.read ([] : Memory (BitVec 32)) s = 0#32) ∧
      (Memory.read ([(65, 1)] : Memory (BitVec 32)) 65 ≠ 0#32 ∧
        ∀ u, u < 288 → u ≠ 65 → Memory.read ([(65, 1)] : Memory (BitVec 32)) u = 0#32) ∧
      (freqH3.read 0 ≠ 0#32 ∧ freqH3.read 5 ≠ 0#32) := by decide +kernel

theorem witness_HufRemoveMinTakesSmallest :
    let x : HufNode := { weight := 2, serial := 0, vec := [1] }
    let y : HufNode := { weight := 2, serial := 1, vec := [1] }
    [x, y].Perm [y, x] ∧ ([x, y].map fun n => n.serial).Nodup := ⟨List.Perm.swap _ _ _, by decide⟩

theorem witness_HufTreeVectorIsFull : 2 ≤ [(5, 45), (4, 16)].length ∧ 2 ≤ (hufSort (hufLive 288 freqH3)).length := by
  decide +kernel

/-- Vector H15: a vector that needs no limiting. -/
theorem witness_HufLimitingKeepsLeavesAndKraft_shallow :
    let vec := [0, 1, 0, 3, 2]
    2 ≤ vec.length ∧ vec.getD 0 0 = 0 ∧ vec.sum ≤ 288 ∧ 1 ≤ vec.getD (vec.length - 1) 0 ∧
      ((List.range vec.length).map (fun d => vec.getD d 0 * 2 ^ (vec.length - 1 - d))).sum = 2 ^ (vec.length - 1) := by
  decide

/-- Vector H12: a vector of depth 19. -/
theorem witness_HufLimitingKeepsLeavesAndKraft :
    let vec := [0, 1, 1, 1, 1, 1, 1, 1, 1, 1, 1, 1, 1, 1, 1, 1, 1, 1, 1, 2]
    2 ≤ vec.length ∧ vec.getD 0 0 = 0 ∧ vec.sum ≤ 288 ∧ 1 ≤ vec.getD (vec.length - 1) 0 ∧
      ((List.range vec.length).map (fun d => vec.getD d 0 * 2 ^ (vec.length - 1 - d))).sum = 2 ^ (vec.length - 1) := by
  decide +kernel

/-- Two live symbols, the words 0 and 1. -/
theorem witness_HufCodeIsCompleteAndMinimal :
    let freq : Memory (BitVec 32) := [(0, 1), (65, 1000)]
    let word : Nat → List Bool := fun s => if s = 0 then [false] else [true]
    2 ≤ (hufLive 288 freq).length ∧ (hufBuild freq).limited = false ∧
      ∀ s u, s < 288 → u < 288 → s ≠ u → freq.read s ≠ 0#32 → freq.read u ≠ 0#32 → ¬ word s <+: word u := by
  refine ⟨by decide +kernel, by decide +kernel, ?_⟩
  have live : ∀ s, Memory.read ([(0, 1), (65, 1000)] : Memory (BitVec 32)) s ≠ 0#32 → s = 0 ∨ s = 65 := by
    intro s h
    by_contra hs
    push Not at hs
    exact h (by simp only [read_cons, read_nil, if_neg hs.1.symm, if_neg hs.2.symm]; rfl)
  intro s u _ _ hne hs hu
  rcases live s hs with rfl | rfl <;> rcases live u hu with rfl | rfl <;> first | exact absurd rfl hne | decide

/-- The frequencies of vector H10: 17 symbols, a tree of depth 16. -/
def freqH10 : Memory (BitVec 32) :=
  Memory.ofList 0 [1, 1, 2, 3, 5, 8, 13, 21, 34, 55, 89, 144, 233, 377, 610, 987, 1597]

/-- H10, a tree of depth 16, is limited; without its last symbol the tree has depth 15 and is not (R128). -/
theorem test_huf_limited_H10 :
    (hufBuild freqH10).limited = true ∧ (hufBuild (freqH10.write 16 0)).limited = false ∧
      (hufBuild freqH10).depth = 15 ∧ (hufBuild (freqH10.write 16 0)).depth = 15 := by decide +kernel

/-- The hypotheses of the clauses for two or more live symbols. -/
theorem witness_HufCodesAreCanonical_sorted :
    2 ≤ (hufSort (hufLive 288 freqH10)).length ∧ 15 < (hufTreeVec (hufSort (hufLive 288 freqH10))).length - 1 ∧
      ((hufBuild freqH10).lbase.read 1).toNat ≤ 0 ∧ 0 < ((hufBuild freqH10).lbase.read 1).toNat + ((hufBuild freqH10).lcnt.read 1).toNat ∧
      ((hufBuild freqH10).lbase.read 15).toNat ≤ 16 ∧
      16 < ((hufBuild freqH10).lbase.read 15).toNat + ((hufBuild freqH10).lcnt.read 15).toNat := by decide +kernel

theorem witness_HufCodesAreCanonical :
    ((hufBuild freqH3).lcnt.read 1).toNat = 1 ∧ ((hufBuild freqH3).lcnt.read 4).toNat = 2 ∧
      ((hufBuild freqH3).lcnt.read 15).toNat = 0 ∧ ∀ i, i < 6 → ((hufBuild freqH3).syms.read i).toNat ≠ 6 := by decide +kernel

theorem witness_HufCodeIsPrefixFree :
    ((hufBuild freqH3).cw.read 5).len ≠ 0#4 ∧ ((hufBuild freqH3).cw.read 0).len ≠ 0#4 ∧
      ((hufBuild freqH3).cw.read 5).len.toNat ≤ ((hufBuild freqH3).cw.read 0).len.toNat := by decide +kernel

theorem witness_HufLengthsFollowFrequency :
    freqH3.read 5 ≠ 0#32 ∧ freqH3.read 0 ≠ 0#32 ∧ freqH3.read 6 = 0#32 ∧ (freqH3.read 0).toNat < (freqH3.read 5).toNat := by decide

/-- Vector H7: equal frequencies, the smaller symbol has the shorter codeword. -/
theorem witness_HufLengthsFollowFrequency_equal :
    let freq : Memory (BitVec 32) := [(10, 3), (20, 3), (30, 3)]
    freq.read 20 ≠ 0#32 ∧ freq.read 10 = freq.read 20 ∧ ((hufBuild freq).cw.read 10).len = 1 ∧ ((hufBuild freq).cw.read 20).len = 2 := by
  decide +kernel

/-- One live symbol 65, and two live symbols 0 and 65 (vectors H2b, H6): every symbol has the same length. -/
theorem witness_HufCodesFollowFromLengths :
    ∀ s, s < 288 → ((hufBuild [(65, 1)]).cw.read s).len = ((hufBuild [(0, 1), (65, 1000)]).cw.read s).len := by decide +kernel

theorem witness_WinInitEmptiesWindow :
    State.reset.unlocked ∧ (7#16 : FieldA).toNat < 8 ∧ 15 < (16#16 : FieldA).toNat ∧ 8 ≤ (8#16 : FieldA).toNat ∧
      (15#16 : FieldA).toNat ≤ 15 := by decide

/-- Before the third byte, on a full window, and at the last position. -/
theorem witness_WinRegRegistersByte :
    State.reset.unlocked ∧ State.reset.status.winReady = false ∧ (withWindow 8 [] []).unlocked ∧
      (withWindow 8 [] []).status.winReady = true ∧ 255 < (256#16 : FieldA).toNat ∧ (255#16 : FieldA).toNat ≤ 255 ∧
      ({ winOf 8 [] [] with n := 0xFFFFFFFFFFFFFFFF } : WinState).n.toNat = 2 ^ 64 - 1 ∧
      ({ winOf 8 [] [] with n := 256 } : WinState).n.toNat ≠ 2 ^ 64 - 1 ∧
      2 ^ (winOf 8 [] []).exp.toNat ≤ ({ winOf 8 [] [] with n := 256 } : WinState).n.toNat := by decide +kernel

theorem witness_WinLookaheadClearsAndAppends :
    (withWindow 8 [] []).unlocked ∧ (withWindow 8 [] []).status.winReady = true ∧
      ({ winOf 8 [] [] with lalen := 258 } : WinState).lalen.toNat = 258 ∧
      ({ winOf 8 [] [] with lalen := 257 } : WinState).lalen.toNat < 258 := by decide +kernel

theorem witness_WinMatchAnswersMatchResult :
    (withWindow 8 registeredW6 lookaheadW6).unlocked ∧ (withWindow 8 registeredW6 lookaheadW6).status.winReady = true ∧
      winMatch (winOf 8 registeredW6 lookaheadW6) = some { len := 7, dist := 4 } ∧ winMatch (winOf 8 [] lookaheadW6) = none := by
  decide +kernel

theorem witness_WinReadsAnswerByteAndCount :
    (withWindow 8 registeredW6 []).unlocked ∧ (withWindow 8 registeredW6 []).status.winReady = true ∧
      min (winOf 8 registeredW6 []).n.toNat (2 ^ (winOf 8 registeredW6 []).exp.toNat) < (9#32 : FieldB).toNat ∧
      (8#32 : FieldB).toNat ≤ (winOf 8 registeredW6 []).n.toNat ∧
      (8#32 : FieldB).toNat ≤ 2 ^ (winOf 8 registeredW6 []).exp.toNat := by decide +kernel

theorem witness_CandidateExtensionIsLargest :
    (4 ≤ (winOf 8 registeredW6 lookaheadW6).n.toNat ∧ 4 ≤ 2 ^ (winOf 8 registeredW6 lookaheadW6).exp.toNat) ∧
      winExtend (winOf 8 registeredW6 lookaheadW6) 4 = 7 ∧
      ∀ i, i < 7 → (winOf 8 registeredW6 lookaheadW6).la.read i = sourceByte (winOf 8 registeredW6 lookaheadW6) 4 i := by
  decide +kernel

/-- The window of vector W11, "abc", with the lookahead "abc". -/
def winW11 : WinState :=
  { exp := 8, n := 3, ring := [(0, 0x61), (1, 0x62), (2, 0x63)], head := [(0x616263, some 2)], next := [],
    la := [(0, 0x61), (1, 0x62), (2, 0x63)], lalen := 3 }

theorem witness_winW11 : winW11 = winOf 8 [0x61, 0x62, 0x63] [0x61, 0x62, 0x63] := by decide +kernel

theorem winW11_occurs (k q : Nat) : winOccurs winW11 k q ↔ q = 2 ∧ k = 0x616263 := by
  have hn : winW11.n.toNat = 3 := rfl
  have hk : winKeyAt winW11 2 = 0x616263 := by decide +kernel
  have hc : winCap winW11 = 256 := rfl
  unfold winOccurs
  rw [hn, hc]
  constructor
  · rintro ⟨h1, h2, _, h4⟩
    obtain rfl : q = 2 := by omega
    exact ⟨rfl, h4.symm.trans hk⟩
  · rintro ⟨rfl, rfl⟩
    exact ⟨by omega, by omega, by omega, hk⟩

theorem witness_MatchWalkFindsBestMatch : WinIndexOk winW11 where
  exponent := by decide
  lookahead := by decide
  headSome := by
    intro k q h
    simp only [winW11, read_cons, read_nil] at h
    split at h
    · rename_i hk
      obtain rfl := Option.some.inj h
      exact ⟨(winW11_occurs _ _).2 ⟨rfl, hk.symm⟩, fun q' h' => le_of_eq ((winW11_occurs _ _).1 h').1⟩
    · exact absurd h (by simp)
  headNone := by
    intro k h q hq
    obtain ⟨_, rfl⟩ := (winW11_occurs _ _).1 hq
    exact absurd h (by decide)
  nextBack := by
    intro p q' _ h
    exact absurd h (by simp [winW11])
  nextSome := by
    intro k q q' _ h
    exact absurd h (by simp [winW11])
  nextNone := by
    intro k q h _ q₀ h₀
    exact le_of_eq (((winW11_occurs _ _).1 h).1.trans ((winW11_occurs _ _).1 h₀).1.symm)

theorem witness_MatchesAreValid : winMatch winW11 = some { len := 3, dist := 3 } := by decide +kernel

/-- A candidate as long as the match, at the end of the window. -/
theorem witness_MatchesAreValid_candidate :
    1 ≤ 3 ∧ 3 ≤ winW11.n.toNat ∧ 3 ≤ 2 ^ winW11.exp.toNat ∧ 3 ≤ 258 ∧ 3 ≤ winW11.lalen.toNat ∧
      ∀ i, i < 3 → winW11.la.read i = sourceByte winW11 3 i := by decide +kernel

/-- An empty window has a right index. -/
theorem witness_WinMatchAnswersMatchResult_empty :
    WinIndexOk (winOf 8 [] [0x61, 0x62, 0x63]) ∧ (winOf 8 [] [0x61, 0x62, 0x63]).n = 0#64 where
  left :=
    { exponent := by decide +kernel
      lookahead := by decide +kernel
      headSome := fun k q h => absurd h (by simp [winOf, winEmpty, winLookPut, read_nil, Memory.unlisted])
      headNone := fun k _ q h => absurd h.2.1 (by simp [winOf, winEmpty, winLookPut])
      nextBack := fun p q' h => absurd h.1 (by simp [winOf, winEmpty, winLookPut])
      nextSome := fun k q q' h => absurd h.2.1 (by simp [winOf, winEmpty, winLookPut])
      nextNone := fun k q h => absurd h.2.1 (by simp [winOf, winEmpty, winLookPut]) }
  right := rfl

theorem witness_FltCfgConfiguresRows :
    State.reset.unlocked ∧ (0#16 : FieldA).toNat < 1 ∧ 64 < (65#16 : FieldA).toNat ∧
      65536 < ((524289#32 : FieldB).toNat * (1#16 : FieldA).toNat + 7) / 8 ∧
      ((524288#32 : FieldB).toNat * (1#16 : FieldA).toNat + 7) / 8 ≤ 65536 ∧
      ((8192#32 : FieldB).toNat * (64#16 : FieldA).toNat + 7) / 8 ≤ 65536 := by decide +kernel

theorem witness_FltWritesReplaceOneByte :
    (withRows 8 [0, 0, 0, 0] []).unlocked ∧ (withRows 8 [0, 0, 0, 0] []).status.fltReady = true ∧
      State.reset.status.fltReady = false ∧ (withRows 8 [0, 0, 0, 0] []).flt.rowlen.toNat < (5#32 : FieldB).toNat ∧
      (4#32 : FieldB).toNat ≤ (withRows 8 [0, 0, 0, 0] []).flt.rowlen.toNat ∧ (0#32 : FieldB).toNat < 1 ∧
      255 < (256#16 : FieldA).toNat ∧ (255#16 : FieldA).toNat ≤ 255 := by decide +kernel

theorem witness_FltReadsAnswerOneByte :
    (withRows 8 [10, 20, 30, 40] [0]).unlocked ∧ (withRows 8 [10, 20, 30, 40] [0]).status.fltReady = true ∧
      (withRows 8 [10, 20, 30, 40] [0]).flt.rowlen.toNat < (5#32 : FieldB).toNat ∧
      1 ≤ (4#32 : FieldB).toNat ∧ (4#32 : FieldB).toNat ≤ (withRows 8 [10, 20, 30, 40] [0]).flt.rowlen.toNat := by decide +kernel

/-- A tag of 4 and a tag of 5. -/
theorem witness_FltDefiltReconstructsRow :
    (withRows 8 [10, 20] [4, 1, 1]).unlocked ∧ (withRows 8 [10, 20] [4, 1, 1]).status.fltReady = true ∧
      1 ≤ (withRows 8 [10, 20] [4, 1, 1]).flt.delay.toNat ∧ ((withRows 8 [10, 20] [4, 1, 1]).flt.line.read 0).toNat ≤ 4 ∧
      4 < ((withRows 8 [10, 20] [5, 1, 1]).flt.line.read 0).toNat := by decide +kernel

theorem witness_FltFiltFiltersRow :
    (withRows 8 [10, 20] [0, 1, 1]).unlocked ∧ (withRows 8 [10, 20] [0, 1, 1]).status.fltReady = true ∧
      (4#16 : FieldA).toNat ≤ 4 ∧ 4 < (5#16 : FieldA).toNat ∧ (withRows 8 [10, 20] [0, 1, 1]).flt.rowlen.toNat ≤ 65536 := by
  decide +kernel

theorem witness_FltAutoPicksSmallestScore :
    (withRows 8 [10, 20, 30, 40] [0, 10, 15, 20, 25]).unlocked ∧
      (withRows 8 [10, 20, 30, 40] [0, 10, 15, 20, 25]).status.fltReady = true ∧
      (withRows 8 [10, 20, 30, 40] [0, 10, 15, 20, 25]).flt.rowlen.toNat ≤ 65536 := by decide +kernel

theorem witness_FltNextAndZprevSetPreviousRow :
    (withRows 8 [10, 20] [0, 1, 1]).unlocked ∧ (withRows 8 [10, 20] [0, 1, 1]).status.fltReady = true ∧
      State.reset.status.fltReady = false := by decide +kernel

theorem witness_FltPaethAnswersPrediction :
    State.reset.unlocked ∧ 2 ^ 24 ≤ (0x1000000#32 : FieldB).toNat ∧ (0xFFFFFF#32 : FieldB).toNat < 2 ^ 24 := by decide

theorem witness_DefilterUndoesFilter : (4 ≤ 4 ∧ 1 ≤ 1) ∧ (0 ≤ 4 ∧ 1 ≤ 8) := by decide

theorem witness_FltPredictorPerType : 5 ≤ 5 ∧ 5 ≤ 255 := by decide

theorem witness_A7SetsWriteOneDimension : State.reset.unlocked ∧ (withImage 5 3).unlocked := by decide

theorem witness_A7DescAnswersPattern : State.reset.unlocked ∧ 6 < (7#16 : FieldA).toNat := by decide

theorem witness_A7SizeAnswersSubImage :
    (withImage 5 3).unlocked ∧ 6 < (7#16 : FieldA).toNat ∧ (6#16 : FieldA).toNat ≤ 6 ∧ (0#16 : FieldA).toNat ≤ 6 := by decide

theorem witness_A7PassesPartitionImage : isPassPixel 5 3 5 1 0 3 0 ∧ isPassPixel 5 3 6 4 0 4 1 := by
  unfold isPassPixel
  decide +kernel

theorem witness_StepKeepsMemoriesCanonical :
    (withWindow 8 registeredW6 []).memoriesOk = true ∧
      ∃ t, step (sending (withWindow 8 registeredW6 []) 0x2100006100000000#64) = .next t :=
  ⟨by decide +kernel, _, rfl⟩

/-- The window of W11, and the step that registers one byte more. -/
theorem witness_StepKeepsWindowIndex :
    WinOk { State.reset with win := winW11, status := Status.reset.winOpened } ∧
      ∃ t, step (sending { State.reset with win := winW11, status := Status.reset.winOpened } 0x2100006100000000#64) = .next t ∧
        t.status.winReady = true :=
  ⟨fun _ => witness_MatchWalkFindsBestMatch, _, rfl, rfl⟩

/-- Rows of two bytes, and the step that builds a table. -/
theorem witness_StepKeepsLatchTableAndGeometry :
    LatchOk (withRows 8 [10, 20] []).status ∧ GatesOk (withRows 8 [10, 20] []).status ∧ HufOk (withRows 8 [10, 20] []) ∧
      FltOk (withRows 8 [10, 20] []) ∧ ∃ t, step (sending (withRows 8 [10, 20] []) 0x1300000000000000#64) = .next t :=
  ⟨{ code := by decide, op := by decide }, { limited := by decide, degen := by decide, found := by decide },
    fun h => absurd h (by decide), fun _ => by decide +kernel, _, rfl⟩

end Sys2Proof.Tests
end

section
/-! PROOFS. The command word at the port (30_encoding.md R80 to R86; 60_exceptions.md R262, steps 2 and 3): the values of its fields, the
decoder case by case, and the step that takes a word which is no command. -/

namespace Sys2Proof

/-! The values of the fields (R80). -/

theorem opField_toNat (w : Word) : (opField w).toNat = w.toNat / 2 ^ 56 := by
  have hw := w.isLt
  rw [opField, BitVec.extractLsb'_toNat, Nat.shiftRight_eq_div_pow, Nat.mod_eq_of_lt (by omega)]

theorem rsvField_toNat (w : Word) : (rsvField w).toNat = w.toNat / 2 ^ 48 % 2 ^ 8 := by
  rw [rsvField, BitVec.extractLsb'_toNat, Nat.shiftRight_eq_div_pow]

theorem aField_toNat (w : Word) : (aField w).toNat = w.toNat / 2 ^ 32 % 2 ^ 16 := by
  rw [aField, BitVec.extractLsb'_toNat, Nat.shiftRight_eq_div_pow]

theorem bField_toNat (w : Word) : (bField w).toNat = w.toNat % 2 ^ 32 := by
  rw [bField, BitVec.extractLsb'_toNat, Nat.shiftRight_zero]

/-! The decoder, one equation per case. -/

theorem reservedBad_iff {r : OpcodeRow} {w : Word} :
    r.reservedBad w = true ↔
      rsvField w ≠ 0#8 ∨ (r.usesA = false ∧ aField w ≠ 0#16) ∨ (r.usesB = false ∧ bField w ≠ 0#32) := by
  simp [OpcodeRow.reservedBad, or_assoc]

theorem decode_of_no_row {w : Word} (h : opcodeRow (opField w) = none) : decode w = .error .illegalOpcode := by
  simp [decode, h]

theorem decode_of_reservedBad {w : Word} {r : OpcodeRow} (hr : opcodeRow (opField w) = some r) (h : r.reservedBad w = true) :
    decode w = .error .reservedField := by
  simp [decode, hr, h]

theorem decode_of_row {w : Word} {r : OpcodeRow} (hr : opcodeRow (opField w) = some r) (h : r.reservedBad w = false) :
    decode w = .ok (r.make (aField w) (bField w)) := by
  simp [decode, hr, h]

/-- With both operands 0 no reserved field is set, whatever the row. -/
theorem reservedBad_enc_zero (r : OpcodeRow) (op : BitVec 8) : r.reservedBad (enc op 0#16 0#32) = false := by
  simp [OpcodeRow.reservedBad, rsvField_enc, aField_enc, bField_enc]

end Sys2Proof

namespace Sys2Proof.Machine

/-- The opcodes without a row in the map (R84) are those the statements list (R85). -/
theorem opcodeRow_isNone (op : BitVec 8) : (opcodeRow op).isNone = illegalOpcode op.toNat := by
  revert op
  decide

/-- R85 counts 223 of the 256 byte values as illegal. -/
theorem illegalOpcode_count : ((List.range 256).filter illegalOpcode).length = 223 := by decide +kernel

/-- A word that is no command, sent to an unlocked block, makes the error entry of R266 under the word's own opcode byte. -/
theorem step_sending_of_decode_error {s : State} {w : Word} {why : DecodeError} (hs : s.unlocked) (h : decode w = .error why) :
    step (sending s w) = .next (errorEntry s (opField w) (errorNumber (decodeErrorCode why))) := by
  have hstep : step (sending s w) = rejectWord w why s := by simp [step, fetch, sending, h]
  rw [hstep, rejectWord_eq, if_neg (by simp [hs])]
  rfl

theorem step_sending_illegalOpcode {s : State} {w : Word} (hs : s.unlocked) (h : illegalOpcode (opField w).toNat = true) :
    step (sending s w) = .next (errorEntry s (opField w) 1#8) :=
  step_sending_of_decode_error hs (decode_of_no_row (Option.isNone_iff_eq_none.1 ((opcodeRow_isNone _).trans h)))

theorem step_sending_reservedField {s : State} {w : Word} {r : OpcodeRow} (hs : s.unlocked)
    (hr : opcodeRow (opField w) = some r) (h : r.reservedBad w = true) :
    step (sending s w) = .next (errorEntry s (opField w) 2#8) :=
  step_sending_of_decode_error hs (decode_of_reservedBad hr h)

/-- A legal opcode with every other bit 0 decodes. -/
theorem exists_decode_of_legal {op : BitVec 8} (h : illegalOpcode op.toNat = false) :
    ∃ (w : Word) (i : Instr), opField w = op ∧ decode w = .ok i := by
  obtain ⟨r, hr⟩ : ∃ r, opcodeRow op = some r :=
    Option.ne_none_iff_exists'.1 fun hn => by simpa [hn, h] using opcodeRow_isNone op
  have hop : opField (enc op 0#16 0#32) = op := opField_enc op 0#16 0#32
  exact ⟨_, _, hop, decode_of_row (by rw [hop, hr]) (reservedBad_enc_zero r op)⟩

/-- Settles O7: a word fails to decode by its opcode or by a reserved field, and the step rejects it with the code of that failure. -/
theorem illegalAndReservedWordsRaise : Obligations.IllegalAndReservedWordsRaise :=
  ⟨fun _ _ => step_sending_illegalOpcode, illegalOpcode_count, fun _ => exists_decode_of_legal,
    fun _ _ _ hs hr h => step_sending_reservedField hs hr (reservedBad_iff.2 h)⟩

/-- Settles O6: the fields by their values, `enc` by the laws of its value and its fields, the five words by evaluation. -/
theorem operandFieldsAndSampleWords : Obligations.OperandFieldsAndSampleWords :=
  ⟨fun w => ⟨opField_toNat w, rsvField_toNat w, aField_toNat w, bField_toNat w⟩,
    fun op a b => ⟨enc_toNat op a b, opField_enc op a b, rsvField_enc op a b, aField_enc op a b, bField_enc op a b⟩,
    by decide, by decide, by decide, by decide, by decide⟩

end Sys2Proof.Machine
end

section
/-! PROOFS. The system commands (40_system.md R110, R112): the words of a system opcode (60_exceptions.md R263), and the 64 bits of `STATUS`
(10_state.md R27). -/

namespace Sys2Proof.Machine

/-! The step that takes a word, decoded or refused. -/

theorem step_sending_of_decode {s : State} {w : Word} {i : Instr} (h : decode w = .ok i) : step (sending s w) = exec i s := by
  simp [step, fetch, sending, h]

theorem step_sending_eq_rejectWord {s : State} {w : Word} {why : DecodeError} (h : decode w = .error why) :
    step (sending s w) = rejectWord w why s := by
  simp [step, fetch, sending, h]

/-- A word that is no command, sent to a locked block, is refused: the latch stays (R263). -/
theorem step_sending_of_decode_error_locked {s : State} {w : Word} {why : DecodeError} (hs : s.locked)
    (h : decode w = .error why) : step (sending s w) = .next (turnedAway s) := by
  rw [step_sending_eq_rejectWord h, rejectWord_eq, if_pos hs]
  rfl

/-- A command without operands has no reserved field set exactly when all bits below `OP` are 0. -/
theorem reservedBad_eq_false_of_no_operands {r : OpcodeRow} (ha : r.usesA = false) (hb : r.usesB = false) (w : Word) :
    r.reservedBad w = false ↔ rsvField w = 0#8 ∧ aField w = 0#16 ∧ bField w = 0#32 := by
  simp [OpcodeRow.reservedBad, ha, hb, and_assoc]

/-- The words of a row without operands: the exact word runs the row's command, any other word of the opcode is rejected by the lock or by its
reserved fields (R262, R263). -/
theorem systemWords_of_row {op : BitVec 8} {r : OpcodeRow} (hr : opcodeRow op = some r) (ha : r.usesA = false)
    (hb : r.usesB = false) : SystemWords op (r.make 0#16 0#32) := by
  rintro s w rfl
  have hgood := reservedBad_eq_false_of_no_operands ha hb w
  have hbad (h : ¬ (rsvField w = 0#8 ∧ aField w = 0#16 ∧ bField w = 0#32)) : decode w = .error .reservedField :=
    decode_of_reservedBad hr (by simpa using mt hgood.1 h)
  split_ifs with hexact hlock
  · have ⟨_, hA, hB⟩ := hexact
    have hdec := decode_of_row hr (hgood.2 hexact)
    rw [hA, hB] at hdec
    exact step_sending_of_decode hdec
  · exact step_sending_of_decode_error_locked hlock (hbad hexact)
  · exact step_sending_of_decode_error (by simpa using hlock) (hbad hexact)

/-- Settles O16: the words are those of the row of `NOP` in the opcode map; the command gives back the state with one response more. -/
theorem nopAnswersZeroAndChangesNothing : Obligations.NopAnswersZeroAndChangesNothing :=
  ⟨systemWords_of_row (op := Opcode.nop) rfl rfl rfl, by decide, fun _ => rfl⟩

/-! The bits of `STATUS` (R27). -/

theorem getLsbD_flagBit (b : Bool) {pos : Nat} (hpos : pos < 64) (i : Nat) :
    (flagBit b pos).getLsbD i = (decide (i = pos) && b) := by
  simp only [flagBit, BitVec.getLsbD_shiftLeft, BitVec.getLsbD_setWidth, BitVec.getLsbD_ofBool]
  grind

/-- A byte placed inside the word, bit by bit. -/
theorem getLsbD_byte_shiftLeft (v : BitVec 8) {pos : Nat} (hpos : pos ≤ 56) (i : Nat) :
    (v.setWidth 64 <<< pos).getLsbD i = (decide (pos ≤ i) && v.getLsbD (i - pos)) := by
  simp only [BitVec.getLsbD_shiftLeft, BitVec.getLsbD_setWidth]
  by_cases h : i - pos < 8
  · grind
  · simp [BitVec.getLsbD_of_ge v (i - pos) (by omega)]

/-- Every bit of the status word, by its position. -/
theorem getLsbD_statusWord (st : Status) (i : Nat) :
    st.word.getLsbD i =
      ((decide (i = 0) && st.err) || (decide (i = 1) && st.hufValid) || (decide (i = 2) && st.hufLimited) ||
        (decide (i = 3) && st.hufDegen) || (decide (i = 4) && st.winReady) || (decide (i = 5) && st.winFound) ||
        (decide (i = 6) && st.fltReady) || (decide (8 ≤ i) && st.errCode.getLsbD (i - 8)) ||
        (decide (16 ≤ i) && st.errOp.getLsbD (i - 16))) := by
  simp only [Status.word, BitVec.getLsbD_or, getLsbD_flagBit, getLsbD_byte_shiftLeft, Nat.reduceLT, Nat.reduceLeDiff]

/-- From bit 8 on the status word holds the error code and the error opcode only. -/
theorem getLsbD_statusWord_of_le (st : Status) {i : Nat} (hi : 8 ≤ i) :
    st.word.getLsbD i = (st.errCode.getLsbD (i - 8) || (decide (16 ≤ i) && st.errOp.getLsbD (i - 16))) := by
  have hflag : ∀ k < 7, i ≠ k := by omega
  simp only [getLsbD_statusWord, hi, hflag, Nat.reduceLT, decide_true, decide_false, Bool.true_and, Bool.false_and,
    Bool.false_or]

theorem extractLsb'_statusWord_errCode (st : Status) : st.word.extractLsb' 8 8 = st.errCode := by
  apply BitVec.eq_of_getLsbD_eq
  intro i hi
  rw [BitVec.getLsbD_extractLsb', getLsbD_statusWord_of_le st (by omega)]
  simp [hi, show ¬ 16 ≤ 8 + i by omega]

theorem extractLsb'_statusWord_errOp (st : Status) : st.word.extractLsb' 16 8 = st.errOp := by
  apply BitVec.eq_of_getLsbD_eq
  intro i hi
  rw [BitVec.getLsbD_extractLsb', getLsbD_statusWord_of_le st (by omega)]
  simp [hi, BitVec.getLsbD_of_ge st.errCode (16 + i - 8) (by omega)]

/-- Bits 63:24 read 0. -/
theorem extractLsb'_statusWord_reserved (st : Status) : st.word.extractLsb' 24 40 = 0#40 := by
  apply BitVec.eq_of_getLsbD_eq
  intro i _
  rw [BitVec.getLsbD_extractLsb', getLsbD_statusWord_of_le st (by omega)]
  simp [BitVec.getLsbD_of_ge st.errCode (24 + i - 8) (by omega), BitVec.getLsbD_of_ge st.errOp (24 + i - 16) (by omega)]

/-- Settles O17: the words are those of the row of `RDSTAT`; the response is the status word, read bit by bit. -/
theorem rdstatAnswersStatus : Obligations.RdstatAnswersStatus := by
  refine ⟨systemWords_of_row (op := Opcode.rdstat) rfl rfl rfl, by decide, fun s => ⟨s.status.word, rfl, ?_⟩⟩
  simp only [getLsbD_statusWord, extractLsb'_statusWord_errCode, extractLsb'_statusWord_errOp, extractLsb'_statusWord_reserved]
  simp

end Sys2Proof.Machine
end

section
/-! PROOFS. A command of HUF as the host sees it: the words of its row in the opcode map (30_encoding.md R80 to R86), and its error entry or its
response (60_exceptions.md R262 steps 4 to 7), for the commands of 41_huffman.md R121, R122, R133 to R137. -/

namespace Sys2Proof.Machine

/-! The words of an opcode and the two outcomes of an unlocked command. -/

/-- No reserved field is set exactly when `RSV` and the operand fields the row does not use are 0. -/
theorem reservedBad_eq_false_iff {r : OpcodeRow} {w : Word} :
    r.reservedBad w = false ↔
      rsvField w = 0#8 ∧ (r.usesA = true ∨ aField w = 0#16) ∧ (r.usesB = true ∨ bField w = 0#32) := by
  obtain ⟨_, _ | _, _ | _, _⟩ := r <;> simp [OpcodeRow.reservedBad, and_assoc]

/-- The words of a row of the opcode map, sent to an unlocked block. -/
theorem commandWords_of_row {op : BitVec 8} {r : OpcodeRow} (hr : opcodeRow op = some r) :
    CommandWords op r.usesA r.usesB r.make := by
  rintro s w hs rfl
  split_ifs with hgood
  · exact step_sending_of_decode (decode_of_row hr (reservedBad_eq_false_iff.2 hgood))
  · exact step_sending_reservedField hs hr (by simpa using mt reservedBad_eq_false_iff.1 hgood)

section
variable {op : BitVec 8} {cs : List (Bool × ErrorCode)} {s t : State} {d : Word}

theorem runCommand_eq_errorEntry {e : ErrorCode} (hs : s.unlocked) (he : firstError cs = some e) :
    runCommand op cs s t d = .next (errorEntry s op (errorNumber e)) :=
  runCommand_error _ _ _ _ _ hs he

theorem runCommand_eq_answered (hs : s.unlocked) (hc : firstError cs = none) :
    runCommand op cs s t d = .next (answered t d) :=
  runCommand_ok _ _ _ _ _ hs hc

end

/-! The operand ranges as checks. -/

theorem notSymbol_iff {a : FieldA} : notSymbol a = true ↔ 288 ≤ a.toNat := by simp [notSymbol]

theorem notSymbol_eq_false_iff {a : FieldA} : notSymbol a = false ↔ a.toNat < 288 := by simp [notSymbol]

theorem notLevel_iff {a : FieldA} : notLevel a = true ↔ a.toNat < 1 ∨ 15 < a.toNat := by simp [notLevel]

theorem notLevel_eq_false_iff {a : FieldA} : notLevel a = false ↔ 1 ≤ a.toNat ∧ a.toNat ≤ 15 := by
  simp [notLevel, Nat.one_le_iff_ne_zero]

/-! The commands on `FREQ` and `HUF.BUILD`. -/

/-- Settles O20: the command has no check, and the empty memory reads 0 at every index. -/
theorem hufClrClearsFrequencies : Obligations.HufClrClearsFrequencies :=
  ⟨commandWords_of_row (op := Opcode.hufClr) rfl, fun _ hs =>
    ⟨[], fun _ => rfl, runCommand_eq_answered (op := Opcode.hufClr) hs firstError_nil⟩⟩

/-- Settles O21: one check of the symbol, then the law of a write. -/
theorem hufWrfWritesOneFrequency : Obligations.HufWrfWritesOneFrequency := by
  refine ⟨commandWords_of_row (op := Opcode.hufWrf) rfl, fun s sym freq hs => ⟨fun hsym => ?_, fun hsym => ?_⟩⟩
  · exact runCommand_eq_errorEntry (e := .eRange) hs (by simp [notSymbol_iff.2 hsym])
  · exact ⟨s.huf.freq.write sym.toNat freq, fun i => read_write _ _ _ _,
      runCommand_eq_answered hs (by simp [notSymbol_eq_false_iff.2 hsym])⟩

/-- Settles O22: one check of the symbol; the response is one field at bit 0. -/
theorem hufRdfAnswersFrequency : Obligations.HufRdfAnswersFrequency := by
  refine ⟨commandWords_of_row (op := Opcode.hufRdf) rfl, fun s sym hs => ⟨fun hsym => ?_, fun hsym => ?_⟩⟩
  · exact runCommand_eq_errorEntry (e := .eRange) hs (by simp [notSymbol_iff.2 hsym])
  · rw [← respField_zero]
    exact runCommand_eq_answered hs (by simp [notSymbol_eq_false_iff.2 hsym])

/-- Settles O23: the command has no check; the total and the depth do not overlap in the response. -/
theorem hufBuildStoresTable : Obligations.HufBuildStoresTable := by
  refine ⟨commandWords_of_row (op := Opcode.hufBuild) rfl, ?_⟩
  rintro s t hs rfl
  rw [← respField_pair _ _ (by decide) (by decide)]
  exact runCommand_eq_answered (op := Opcode.hufBuild) hs firstError_nil

/-! The reads of the table, each gated by `HUF_VALID`. -/

/-- Without a valid table each read raises `E_STATE`, whatever its operand. -/
theorem exec_tableRead_invalid {s : State} (a : FieldA) (hs : s.unlocked) (hv : s.status.hufValid = false) :
    exec (.hufRdc a) s = .next (errorEntry s 0x14#8 3#8) ∧ exec (.hufRds a) s = .next (errorEntry s 0x15#8 3#8) ∧
      exec (.hufRdl a) s = .next (errorEntry s 0x16#8 3#8) := by
  refine ⟨?_, ?_, ?_⟩ <;> exact runCommand_eq_errorEntry (e := .eState) hs (by simp [hv])

/-- Settles O24: `HUF_VALID` is checked first, then the operand of each read; two fields of a response do not overlap. -/
theorem hufTableReadsAnswerElements : Obligations.HufTableReadsAnswerElements := by
  refine ⟨commandWords_of_row (op := Opcode.hufRdc) rfl, commandWords_of_row (op := Opcode.hufRds) rfl,
    commandWords_of_row (op := Opcode.hufRdl) rfl, fun s a hs => ⟨exec_tableRead_invalid a hs, fun hv => ?_⟩⟩
  rw [← respField_zero, ← respField_pair _ _ (by decide) (by decide), ← respField_pair _ _ (by decide) (by decide)]
  refine ⟨fun h => ?_, fun h => ?_, fun h => ?_, fun h => ?_, fun h => ?_, fun h1 h2 => ?_⟩
  · exact runCommand_eq_errorEntry (e := .eRange) hs (by simp [hv, notSymbol_iff.2 h])
  · exact runCommand_eq_answered hs (by simp [hv, notSymbol_eq_false_iff.2 h])
  · exact runCommand_eq_errorEntry (e := .eRange) hs (by simp [hv, h])
  · exact runCommand_eq_answered hs (by simp [hv, h])
  · exact runCommand_eq_errorEntry (e := .eRange) hs (by simp [hv, notLevel_iff.2 h])
  · exact runCommand_eq_answered hs (by simp [hv, notLevel_eq_false_iff.2 ⟨h1, h2⟩])

end Sys2Proof.Machine
end

section
/-! PROOFS. The lists and the queue of `HufBuild`: `live` and `sorted` (41_huffman.md R124, R125), and `remove-min` (R126). -/

namespace Sys2Proof.Machine

/-! `live` (R124). -/

theorem mem_hufLive {n : Nat} {freq : Memory (BitVec 32)} {e : Nat × Nat} :
    e ∈ hufLive n freq ↔ e.1 < n ∧ e.2 = (freq.read e.1).toNat ∧ 0 < e.2 := by
  obtain ⟨s, f⟩ := e
  simp only [hufLive, List.mem_filter, List.mem_map, List.mem_range, Prod.mk.injEq, decide_eq_true_eq]
  constructor
  · rintro ⟨⟨t, ht, rfl, rfl⟩, hpos⟩
    exact ⟨ht, rfl, hpos⟩
  · rintro ⟨hs, rfl, hpos⟩
    exact ⟨⟨s, hs, rfl, rfl⟩, hpos⟩

/-- The symbols of `live`: those of non-zero frequency, in ascending order. -/
theorem map_fst_hufLive (n : Nat) (freq : Memory (BitVec 32)) :
    (hufLive n freq).map Prod.fst = (List.range n).filter fun s => decide (freq.read s ≠ 0#32) := by
  simp only [hufLive, List.filter_map, List.map_map]
  simp [Function.comp_def, Nat.pos_iff_ne_zero, ← BitVec.toNat_inj]

theorem pairwise_fst_lt_hufLive (n : Nat) (freq : Memory (BitVec 32)) :
    (hufLive n freq).Pairwise fun x y => x.1 < y.1 := by
  rw [← List.pairwise_map (f := Prod.fst) (R := (· < ·)), map_fst_hufLive]
  exact List.pairwise_lt_range.filter _

/-! `sorted` (R125). -/

/-- `x` stands before `y` in `sorted`: larger frequency, or equal frequency and smaller symbol. -/
def hufSortsBefore (x y : Nat × Nat) : Prop := y.2 < x.2 ∨ (x.2 = y.2 ∧ x.1 < y.1)

/-- Inserting a symbol smaller than all those sorted puts it before the entries of its own frequency. -/
theorem pairwise_hufSortsBefore_orderedInsert {e : Nat × Nat} {l : List (Nat × Nat)} (he : ∀ x ∈ l, e.1 < x.1)
    (hl : l.Pairwise hufSortsBefore) : (l.orderedInsert (fun x y => y.2 ≤ x.2) e).Pairwise hufSortsBefore := by
  induction l with
  | nil => simp
  | cons x l ih =>
    obtain ⟨hex, hel⟩ := List.forall_mem_cons.1 he
    obtain ⟨hxl, hl'⟩ := List.pairwise_cons.1 hl
    rw [List.orderedInsert_cons]
    split_ifs with hle
    · refine List.pairwise_cons.2 ⟨fun y hy => ?_, hl⟩
      have hey := he y hy
      have hxy : y.2 ≤ x.2 := by
        obtain rfl | hy := List.mem_cons.1 hy
        · exact le_rfl
        · obtain h | h := hxl y hy <;> omega
      unfold hufSortsBefore
      omega
    · refine List.pairwise_cons.2 ⟨fun y hy => ?_, ih hel hl'⟩
      obtain rfl | hy := (List.mem_orderedInsert _).1 hy
      · exact .inl (by omega)
      · exact hxl y hy

/-- Sorting a list of ascending symbols is stable. -/
theorem pairwise_hufSort {l : List (Nat × Nat)} (hl : l.Pairwise fun x y => x.1 < y.1) : (hufSort l).Pairwise hufSortsBefore := by
  induction l with
  | nil => exact List.Pairwise.nil
  | cons e l ih =>
    obtain ⟨he, hl'⟩ := List.pairwise_cons.1 hl
    exact pairwise_hufSortsBefore_orderedInsert (fun x hx => he x ((List.perm_insertionSort _ _).mem_iff.1 hx)) (ih hl')

/-- Settles O26: `live` is a filtered range, and insertion from the right keeps the order of its symbols. -/
theorem hufSortIsStableDescending : Obligations.HufSortIsStableDescending := fun freq =>
  ⟨map_fst_hufLive 288 freq, fun _ he => (mem_hufLive.1 he).2.1, List.perm_insertionSort _ _,
    pairwise_hufSort (pairwise_fst_lt_hufLive 288 freq)⟩

/-! `remove-min` (R126). -/

theorem hufRemoveMin_perm (x : HufNode) (q : List HufNode) :
    ((hufRemoveMin x q).1 :: (hufRemoveMin x q).2).Perm (x :: q) := by
  induction q generalizing x with
  | nil => rfl
  | cons y q ih =>
    simp only [hufRemoveMin]
    split_ifs
    · exact (List.Perm.swap _ _ _).trans ((ih y).cons x)
    · exact (List.Perm.swap _ _ _).trans (((ih x).cons y).trans (List.Perm.swap _ _ _))

theorem hufBefore_iff {x y : HufNode} :
    hufBefore x y = true ↔ x.weight < y.weight ∨ (x.weight = y.weight ∧ x.serial < y.serial) := by
  simp [hufBefore]

/-- The node taken leaves first among all nodes of the queue, itself included. -/
theorem hufLeavesFirst_hufRemoveMin (x : HufNode) (q : List HufNode) : hufLeavesFirst (hufRemoveMin x q).1 (x :: q) := by
  induction q generalizing x with
  | nil => simp [hufRemoveMin, hufLeavesFirst]
  | cons y q ih =>
    simp only [hufRemoveMin]
    split_ifs with hyx <;> rw [hufBefore_iff] at hyx
    · obtain ⟨hy, hq⟩ := List.forall_mem_cons.1 (ih y)
      exact List.forall_mem_cons.2 ⟨by dsimp only; omega, List.forall_mem_cons.2 ⟨hy, hq⟩⟩
    · obtain ⟨hx, hq⟩ := List.forall_mem_cons.1 (ih x)
      exact List.forall_mem_cons.2 ⟨hx, List.forall_mem_cons.2 ⟨by dsimp only; omega, hq⟩⟩

theorem hufLeavesFirst_hufRemoveMin_rest (x : HufNode) (q : List HufNode) :
    hufLeavesFirst (hufRemoveMin x q).1 (hufRemoveMin x q).2 := fun y hy =>
  hufLeavesFirst_hufRemoveMin x q y ((hufRemoveMin_perm x q).mem_iff.1 (List.mem_cons_of_mem _ hy))

/-- Of two orders of one queue with distinct serials the nodes that leave first are the same. -/
theorem hufLeavesFirst_unique {x x' : HufNode} {r r' : List HufNode} (hp : (x :: r).Perm (x' :: r'))
    (hx : hufLeavesFirst x r) (hx' : hufLeavesFirst x' r') (hs : ((x :: r).map HufNode.serial).Nodup) : x = x' := by
  by_contra hne
  have hmem : x ∈ r' := List.mem_of_ne_of_mem hne (hp.mem_iff.1 List.mem_cons_self)
  have hmem' : x' ∈ r := List.mem_of_ne_of_mem (Ne.symm hne) (hp.mem_iff.2 List.mem_cons_self)
  have hserial : x.serial = x'.serial := by
    have := hx x' hmem'
    have := hx' x hmem
    omega
  exact (List.nodup_cons.1 hs).1 (hserial ▸ List.mem_map_of_mem hmem')

/-- Settles O27: the split is a permutation, the node taken leaves first, and only one node can when the serials are distinct. -/
theorem hufRemoveMinTakesSmallest : Obligations.HufRemoveMinTakesSmallest := by
  refine ⟨fun x q => ⟨hufRemoveMin_perm x q, hufLeavesFirst_hufRemoveMin_rest x q⟩, fun x x' q q' hp hs => ?_⟩
  have hsplit := hufRemoveMin_perm x q
  exact hufLeavesFirst_unique (hsplit.trans (hp.trans (hufRemoveMin_perm x' q').symm)) (hufLeavesFirst_hufRemoveMin_rest x q)
    (hufLeavesFirst_hufRemoveMin_rest x' q') ((hsplit.map _).nodup_iff.2 hs)

end Sys2Proof.Machine
end

section
/-! PROOFS. The degenerate tables (41_huffman.md R123): the outputs of `HufBuild` when at most one symbol is live. -/

namespace Sys2Proof.Machine

/-! Two entries in level 1 and nothing below. -/

/-- The levels of a degenerate table: two entries in level 1 of 15. -/
def hufDegenLevels (x y : Nat) : HufLevels :=
  { levels := [x, y] :: List.replicate 14 [], limited := false, degen := true }

theorem read_cw_hufDegenLevels {x y : Nat} (hxy : x ≠ y) (s : Nat) :
    (hufOutputs (hufDegenLevels x y)).cw.read s =
      if s = x then { code := 0#15, len := 1#4 } else if s = y then { code := 1#15, len := 1#4 }
      else { code := 0#15, len := 0#4 } := by
  have hassign : hufAssign 1 0 (hufDegenLevels x y).levels = [(x, 0, 1), (y, 1, 1)] := by
    simp [hufDegenLevels, hufAssign]
  simp only [hufOutputs, hassign, hufCodewords, List.foldl_cons, List.foldl_nil, read_write, read_nil, unlisted_codeword]
  by_cases hs : s = x
  · simp [hs, hxy]
  · simp [hs]

/-- A memory over the levels with one value in level 1 and another in all deeper ones. -/
theorem read_ofList_cons_replicate {w : Nat} (a b : BitVec w) (n l : Nat) :
    (Memory.ofList 1 (a :: List.replicate n b)).read l = if l = 1 then a else if 2 ≤ l ∧ l ≤ n + 1 then b else 0#w := by
  rw [read_ofList]
  obtain - | - | l := l
  · simp
  · simp
  · rw [if_pos (by omega), if_neg (by omega), show l + 1 + 1 - 1 = l + 1 by omega, List.getD_cons_succ]
    by_cases hl : l < n
    · rw [List.getD_replicate _ hl, if_pos (by omega)]
    · rw [List.getD_eq_default _ _ (by rw [List.length_replicate]; omega), if_neg (by omega), unlisted_bitVec]

theorem read_lcnt_hufDegenLevels (x y l : Nat) :
    (hufOutputs (hufDegenLevels x y)).lcnt.read l = if l = 1 then 2#9 else 0#9 := by
  have hlcnt : (hufOutputs (hufDegenLevels x y)).lcnt = Memory.ofList 1 (2#9 :: List.replicate 14 0#9) := rfl
  rw [hlcnt, read_ofList_cons_replicate, ite_self]

theorem read_lbase_hufDegenLevels (x y l : Nat) :
    (hufOutputs (hufDegenLevels x y)).lbase.read l = if 2 ≤ l ∧ l ≤ 15 then 2#9 else 0#9 := by
  have hlbase : (hufOutputs (hufDegenLevels x y)).lbase = Memory.ofList 1 (0#9 :: List.replicate 14 2#9) := rfl
  rw [hlbase, read_ofList_cons_replicate]
  by_cases hl : l = 1 <;> simp [hl]

/-- The outputs of those levels (R130 to R132). -/
theorem isDegenerateTable_hufOutputs {x y : Nat} (hxy : x ≠ y) : isDegenerateTable (hufOutputs (hufDegenLevels x y)) x y :=
  ⟨rfl, rfl, rfl, rfl, read_lcnt_hufDegenLevels x y, read_lbase_hufDegenLevels x y,
    by simp [hufOutputs, hufDegenLevels, read_ofList], by simp [hufOutputs, hufDegenLevels, read_ofList], read_cw_hufDegenLevels hxy⟩

/-! Which arrays have a degenerate table. -/

theorem hufBuild_degen (freq : Memory (BitVec 32)) : (hufBuild freq).degen = decide ((hufLive 288 freq).length ≤ 1) := by
  simp only [hufBuild, hufBuildWith, hufOutputs, hufLevels]
  split_ifs with h <;> simp [h]

theorem hufBuild_of_live_le_one {freq : Memory (BitVec 32)} {x y : Nat} (hlive : (hufLive 288 freq).length ≤ 1)
    (hxy : hufDegenEntries (hufLive 288 freq) = [x, y]) : hufBuild freq = hufOutputs (hufDegenLevels x y) := by
  simp only [hufBuild, hufBuildWith, hufLevels, if_pos hlive, hxy]
  rfl

theorem hufLive_eq_nil {freq : Memory (BitVec 32)} (h : ∀ s, s < 288 → freq.read s = 0#32) : hufLive 288 freq = [] := by
  rw [← List.map_eq_nil_iff (f := Prod.fst), map_fst_hufLive, List.filter_eq_nil_iff]
  simpa using h

/-- The one live symbol is the only entry of `live`. -/
theorem exists_hufLive_eq_singleton {freq : Memory (BitVec 32)} {s : Nat} (hs : s < 288) (hlive : freq.read s ≠ 0#32)
    (h : ∀ u, u < 288 → u ≠ s → freq.read u = 0#32) : ∃ f, hufLive 288 freq = [(s, f)] := by
  have honly : (hufLive 288 freq).map Prod.fst = [s] := by
    have hfilter : (List.range 288).filter (fun u => decide (freq.read u ≠ 0#32)) = (List.range 288).filter (· == s) :=
      List.filter_congr fun u hu => by
        by_cases hus : u = s
        · simp [hus, hlive]
        · simp [hus, h u (List.mem_range.1 hu) hus]
    rw [map_fst_hufLive, hfilter, List.filter_beq, List.count_eq_one_of_mem List.nodup_range (List.mem_range.2 hs)]
    rfl
  obtain ⟨⟨u, f⟩, hone, rfl⟩ := List.map_eq_singleton_iff.1 honly
  exact ⟨f, hone⟩

/-- The live symbol and the filler, the smaller first. -/
theorem hufDegenEntries_singleton (s f : Nat) :
    hufDegenEntries [(s, f)] = [min s (if s = 0 then 1 else 0), max s (if s = 0 then 1 else 0)] := by
  by_cases hs : s = 0 <;> simp [hufDegenEntries, hs]

/-- Two live symbols are two entries of `live`. -/
theorem one_lt_length_hufLive {freq : Memory (BitVec 32)} {s u : Nat} (hs : s < 288) (hu : u < 288) (hne : s ≠ u)
    (hls : freq.read s ≠ 0#32) (hlu : freq.read u ≠ 0#32) : 1 < (hufLive 288 freq).length := by
  have hsub : [s, u] ⊆ (hufLive 288 freq).map Prod.fst := by simp [map_fst_hufLive, hs, hu, hls, hlu]
  have hle := (List.subperm_of_subset (by simpa using hne) hsub).length_le
  rwa [List.length_map] at hle

/-- Settles O25: at most one entry of `live` leaves the two entries of the degenerate levels, whose outputs are read off. -/
theorem hufDegenerateCases : Obligations.HufDegenerateCases := by
  refine ⟨fun freq h => ?_, fun freq s hs hlive h => ?_, fun freq s u hs hu hne hls hlu => ?_⟩
  · have hnil := hufLive_eq_nil h
    rw [hufBuild_of_live_le_one (x := 0) (y := 1) (by simp [hnil]) (by simp [hnil, hufDegenEntries])]
    exact isDegenerateTable_hufOutputs (by decide)
  · obtain ⟨f, hone⟩ := exists_hufLive_eq_singleton hs hlive h
    rw [hufBuild_of_live_le_one (by simp [hone]) (by rw [hone, hufDegenEntries_singleton])]
    exact isDegenerateTable_hufOutputs (by split_ifs <;> omega)
  · rw [hufBuild_degen, decide_eq_false_iff_not, not_le]
    exact one_lt_length_hufLive hs hu hne hls hlu

end Sys2Proof.Machine
end

section
/-! PROOFS. The candidates of `match` (42_window.md R168, R169): the extension of a distance, and the bounds of what `match` returns. -/

namespace Sys2Proof.Machine

/-! The extension of a distance (R168). -/

/-- The byte of a candidate, through the ring of the window. -/
theorem winSrc_eq_sourceByte : winSrc = sourceByte := rfl

/-- Below `ext(d)` the lookahead agrees with the candidate. -/
theorem read_la_of_lt_winExtend {w : WinState} {d i : Nat} (h : i < winExtend w d) : w.la.read i = winSrc w d i :=
  have ⟨_, _, hagree, _⟩ := winExtendFrom_spec w d (min Config.winMaxMatch w.lalen.toNat) 0
  hagree i i.zero_le h

/-- At `ext(d)`, when neither the lookahead nor the longest length ends there, the lookahead differs from the candidate. -/
theorem read_la_winExtend_ne {w : WinState} {d : Nat} (hmax : winExtend w d < 258) (hla : winExtend w d < w.lalen.toNat) :
    w.la.read (winExtend w d) ≠ winSrc w d (winExtend w d) :=
  have ⟨_, _, _, hdiffer⟩ := winExtendFrom_spec w d (min Config.winMaxMatch w.lalen.toNat) 0
  hdiffer (by rw [Nat.zero_add]; exact lt_min hmax hla)

/-- Settles O40: the bounds and the agreement are laws of `ext(d)`; a longer agreement would include the byte where `ext(d)` stopped. -/
theorem candidateExtensionIsLargest : Obligations.CandidateExtensionIsLargest := by
  rintro w d - - -
  rw [← winSrc_eq_sourceByte]
  obtain ⟨hmax, hla⟩ := winExtend_le w d
  refine ⟨hmax, hla, fun i => read_la_of_lt_winExtend, fun l hl258 hlla hagree => ?_⟩
  by_contra! hlt
  exact read_la_winExtend_ne (by omega) (by omega) (hagree _ hlt)

/-! The bounds of a match, in every window, so that it fits its response (R172). -/

/-- The length and the distance fit the 9 and the 16 bits they have in the response of `WIN.MATCH`. -/
def WinMatch.fits (m : WinMatch) : Prop := m.len < 2 ^ 9 ∧ m.dist < 2 ^ 16

theorem winCap_le (w : WinState) : winCap w ≤ 2 ^ 15 :=
  Nat.pow_le_pow_right (by decide) (Nat.le_of_lt_succ w.exp.isLt)

theorem winTry_fits {w : WinState} {d : Nat} {best : WinMatch} (hd : d < 2 ^ 16) (hbest : best.fits) :
    (winTry w d best).fits := by
  have ⟨hmax, _⟩ := winExtend_le w d
  unfold winTry
  dsimp only
  split
  · exact ⟨show winExtend w d < 2 ^ 9 by omega, hd⟩
  · exact hbest

/-- The walk of the chain ends at a distance above `W`, so each candidate it tries fits. -/
theorem winWalk_fits (w : WinState) (k : Nat) (q : Option (BitVec 64)) {best : WinMatch} (hbest : best.fits) :
    (winWalk w k q best).fits := by
  have hcap := winCap_le w
  induction k generalizing q best with
  | zero => exact hbest
  | succ k ih =>
    cases q with
    | none => exact hbest
    | some q =>
      simp only [winWalk]
      split
      · exact hbest
      · exact ih _ (winTry_fits (by omega) hbest)

theorem winBest_fits (w : WinState) : (winBest w).fits := by
  have hstart : WinMatch.fits { len := Config.winMinMatch - 1, dist := 0 } := ⟨by decide, by decide⟩
  unfold winBest
  dsimp only
  apply winWalk_fits
  split_ifs
  · exact winTry_fits (by decide) (winTry_fits (by decide) hstart)
  · exact winTry_fits (by decide) hstart
  · exact winTry_fits (by decide) hstart
  · exact hstart

theorem winMatch_fits {w : WinState} {m : WinMatch} (h : winMatch w = some m) : m.fits := by
  unfold winMatch at h
  dsimp only at h
  split_ifs at h
  exact Option.some.inj h ▸ winBest_fits w

/-! A window without bytes. -/

theorem winWalk_none (w : WinState) (k : Nat) (best : WinMatch) : winWalk w k none best = best := by
  cases k <;> rfl

/-- With no byte registered no key has an occurrence, so `HEAD` is empty. -/
theorem WinIndexOk.read_head_of_empty {w : WinState} (hw : WinIndexOk w) (hn : w.n = 0#64) (k : Nat) : w.head.read k = none := by
  by_contra hne
  obtain ⟨q, hq⟩ := Option.ne_none_iff_exists'.1 hne
  have ⟨⟨_, hlt, _⟩, _⟩ := hw.headSome k q hq
  simp [hn] at hlt

/-- An empty window has no candidate, so no match. -/
theorem winMatch_of_empty {w : WinState} (hw : WinIndexOk w) (hn : w.n = 0#64) : winMatch w = none := by
  simp [winMatch, winBest, hn, hw.read_head_of_empty hn, winWalk_none]

end Sys2Proof.Machine
end

section
/-! PROOFS. A command of WIN as the host sees it: the words of its row in the opcode map (30_encoding.md R80 to R86), and its error entry or its
response (60_exceptions.md R262 steps 4 to 7), for the commands of 42_window.md R161, R166, R167, R171 to R174. -/

namespace Sys2Proof.Machine

/-! The operand ranges as checks, and the gate `WIN_READY`. -/

theorem notExponent_iff {a : FieldA} : notExponent a = true ↔ a.toNat < 8 ∨ 15 < a.toNat := by simp [notExponent]

theorem notExponent_eq_false_iff {a : FieldA} : notExponent a = false ↔ 8 ≤ a.toNat ∧ a.toNat ≤ 15 := by simp [notExponent]

theorem notByte_iff {a : FieldA} : notByte a = true ↔ 255 < a.toNat := by simp [notByte]

theorem notByte_eq_false_iff {a : FieldA} : notByte a = false ↔ a.toNat ≤ 255 := by simp [notByte]

/-- Before `WIN.INIT` a command whose first check is `WIN_READY` raises `E_STATE`, whatever its other checks. -/
theorem runCommand_of_not_winReady {op : BitVec 8} {cs : List (Bool × ErrorCode)} {s t : State} {d : Word} (hs : s.unlocked)
    (hr : s.status.winReady = false) :
    runCommand op ((!s.status.winReady, .eState) :: cs) s t d = .next (errorEntry s op 3#8) :=
  runCommand_eq_errorEntry (e := .eState) hs (by simp [hr])

/-- Settles O35: one check of the exponent; the empty memories read 0 and none at every index. -/
theorem winInitEmptiesWindow : Obligations.WinInitEmptiesWindow := by
  refine ⟨commandWords_of_row (op := Opcode.winInit) rfl, fun s e hs => ⟨fun h => ?_, fun h8 h15 => ?_⟩⟩
  · exact runCommand_eq_errorEntry (e := .eRange) hs (by simp [notExponent_iff.2 h])
  · refine ⟨winEmpty s.win (e.setWidth 4), ?_, rfl, rfl, rfl, fun _ => ⟨rfl, rfl, rfl⟩,
      runCommand_eq_answered hs (by simp [notExponent_eq_false_iff.2 ⟨h8, h15⟩])⟩
    show (e.setWidth 4).toNat = e.toNat
    rw [BitVec.toNat_setWidth, Nat.mod_eq_of_lt (by omega)]

/-! `WIN.REG`. -/

/-- The key of the occurrence that ends at the byte just registered (R165). -/
theorem winKeyAt_winRegister (w : WinState) (b : Byte) :
    winKeyAt (winRegister w b) w.n.toNat =
      ((winRegister w b).ring.read ((w.n.toNat - 2) % winCap w)).toNat * 65536 +
        ((winRegister w b).ring.read ((w.n.toNat - 1) % winCap w)).toNat * 256 + b.toNat := by
  have ⟨hexp, _⟩ := winRegister_fields w b
  have hcap : winCap (winRegister w b) = winCap w := by simp only [winCap, hexp]
  have hlast : winByte (winRegister w b) w.n.toNat = b := by rw [winByte_winRegister, if_pos rfl]
  rw [winKeyAt, hlast]
  simp only [winKey, winByte, winSlot, hcap]
  rfl

/-- Settles O36: the checks in their order, then the laws of `register` for the fields, `HEAD` and `NEXT`. -/
theorem winRegRegistersByte : Obligations.WinRegRegistersByte := by
  refine ⟨commandWords_of_row (op := Opcode.winReg) rfl, fun s byte hs =>
    ⟨runCommand_of_not_winReady hs, fun hr hb => ?_, fun hr hb hn => ?_, fun hr hb hn => ?_⟩⟩
  · exact runCommand_eq_errorEntry (e := .eRange) hs (by simp [hr, notByte_iff.2 hb])
  · exact runCommand_eq_errorEntry (e := .eFull) hs (by simp [hr, notByte_eq_false_iff.2 hb, hn])
  · obtain ⟨hexp, hcount, hring, hla, hlalen⟩ := winRegister_fields s.win (byteOf byte)
    have hbyte : (byteOf byte).toNat = byte.toNat := by rw [byteOf_eq, BitVec.toNat_ofNat, Nat.mod_eq_of_lt (by omega)]
    refine ⟨winRegister s.win (byteOf byte),
      runCommand_eq_answered hs (by simpa [hr, notByte_eq_false_iff.2 hb] using hn), hexp, hla, hlalen, ?_, ?_⟩
    · rw [hcount, BitVec.toNat_ofNat, Nat.mod_eq_of_lt (by omega)]
    · rintro _ _ kOld kNew rfl rfl hOld hNew
      rw [← hbyte] at hNew
      obtain rfl := hNew.trans (winKeyAt_winRegister s.win (byteOf byte)).symm
      obtain rfl : kOld = winKey (winByte s.win s.win.n.toNat) (winByte s.win (s.win.n.toNat - winCap s.win + 1))
        (winByte s.win (s.win.n.toNat - winCap s.win + 2)) := hOld
      refine ⟨fun i => ?_, fun k => ?_, fun i => ?_⟩
      · rw [hring, read_write, byteOf_eq]
        rfl
      · rw [winRegister_head, winEvict_head]
        rfl
      · rw [winRegister_next, winEvict_head, ← ite_not (p := 2 ≤ s.win.n.toNat)]
        simp only [not_le]
        rfl

/-! The lookahead. -/

/-- Settles O37: the checks in their order; the lookahead takes its byte by the law of a write. -/
theorem winLookaheadClearsAndAppends : Obligations.WinLookaheadClearsAndAppends := by
  refine ⟨commandWords_of_row (op := Opcode.winLaclr) rfl, commandWords_of_row (op := Opcode.winLaput) rfl, fun s byte hs =>
    ⟨fun hr => ⟨runCommand_of_not_winReady hs hr, runCommand_of_not_winReady hs hr⟩, fun hr => ⟨?_, fun hb => ?_,
      fun hb hfull => ?_, fun hb hroom => ?_⟩⟩⟩
  · exact runCommand_eq_answered hs (by simp [hr])
  · exact runCommand_eq_errorEntry (e := .eRange) hs (by simp [hr, notByte_iff.2 hb])
  · exact runCommand_eq_errorEntry (e := .eFull) hs (by simp [hr, notByte_eq_false_iff.2 hb, hfull])
  · refine ⟨s.win.la.write s.win.lalen.toNat (byteOf byte), BitVec.ofNat 9 (s.win.lalen.toNat + 1), ?_, fun i => ?_,
      runCommand_eq_answered hs (by simp [hr, notByte_eq_false_iff.2 hb, hroom.ne])⟩
    · rw [BitVec.toNat_ofNat, Nat.mod_eq_of_lt (by omega)]
    · rw [read_write, byteOf_eq]

/-! `WIN.MATCH`. -/

/-- The response of a match that fits: the length, the distance and the bit `found` do not overlap. -/
theorem winMatchData_some {m : WinMatch} (h : m.fits) :
    winMatchData (some m) = BitVec.ofNat 64 (m.len + m.dist * 2 ^ 16 + 2 ^ 32) := by
  obtain ⟨hlen, hdist⟩ := h
  have hlow : respField (BitVec.ofNat 9 m.len) 0 ||| respField (BitVec.ofNat 16 m.dist) 16 =
      respField (BitVec.ofNat 32 (m.len + m.dist * 2 ^ 16)) 0 := by
    rw [respField_pair _ _ (by decide) (by decide), respField_zero, BitVec.toNat_ofNat, BitVec.toNat_ofNat, BitVec.toNat_ofNat,
      Nat.mod_eq_of_lt hlen, Nat.mod_eq_of_lt hdist, Nat.mod_eq_of_lt (by omega)]
  rw [winMatchData, hlow, respField_pair _ _ (by decide) (by decide), BitVec.toNat_ofNat, Nat.mod_eq_of_lt (by omega)]
  rfl

/-- After `WIN.INIT` the command completes with the result of `match()`. -/
theorem exec_winMatch_of_winReady {s : State} (hs : s.unlocked) (hr : s.status.winReady = true) :
    exec .winMatch s = .next (answered { s with status := { s.status with winFound := (winMatch s.win).isSome } }
      (winMatchData (winMatch s.win))) :=
  runCommand_eq_answered hs (by simp [hr])

theorem exec_winMatch_of_none {s : State} (hs : s.unlocked) (hr : s.status.winReady = true) (h : winMatch s.win = none) :
    exec .winMatch s = .next (answered { s with status := { s.status with winFound := false } } 0#64) := by
  rw [exec_winMatch_of_winReady hs hr, h]
  rfl

/-- Settles O38: the command answers the result of `match()`, which reads the window alone, so a repetition gives the same; an empty window
has no match. -/
theorem winMatchAnswersMatchResult : Obligations.WinMatchAnswersMatchResult := by
  refine ⟨commandWords_of_row (op := Opcode.winMatch) rfl, fun s hs => ⟨runCommand_of_not_winReady hs,
    exec_winMatch_of_none hs, fun m hr hm => ?_, fun hr => ?_,
    fun hr hw hn => exec_winMatch_of_none hs hr (winMatch_of_empty hw hn)⟩⟩
  · rw [exec_winMatch_of_winReady hs hr, hm, winMatchData_some (winMatch_fits hm)]
    rfl
  · exact ⟨(winMatch s.win).isSome, winMatchData (winMatch s.win), _, rfl, exec_winMatch_of_winReady hs hr,
      exec_winMatch_of_winReady hs hr⟩

/-! The reads of the window. -/

/-- Settles O39: `WIN_READY` is checked first, then the distance; the response is one field at bit 0, or the count. -/
theorem winReadsAnswerByteAndCount : Obligations.WinReadsAnswerByteAndCount := by
  refine ⟨commandWords_of_row (op := Opcode.winRdb) rfl, commandWords_of_row (op := Opcode.winRdn) rfl, fun s dist hs =>
    ⟨fun hr => ⟨runCommand_of_not_winReady hs hr, runCommand_of_not_winReady hs hr⟩, fun hr => ⟨?_, fun hfar => ?_,
      fun h1 hn hcap => ?_⟩⟩⟩
  · exact runCommand_eq_answered hs (by simp [hr])
  · exact runCommand_eq_errorEntry (e := .eRange) hs (by simpa [hr, winCap, or_iff_not_imp_left] using hfar)
  · rw [← respField_zero]
    exact runCommand_eq_answered hs (by simpa [hr, winCap] using ⟨Nat.one_le_iff_ne_zero.1 h1, hn, hcap⟩)

end Sys2Proof.Machine
end

section
/-! PROOFS. The row functions of FLT as the rules state them: the predictor (43_filter.md R203, R204), and the reconstructed row, the filtered
row, its score and the selection (R202, R211 to R214). -/

namespace Sys2Proof.Machine

/-! Prediction (R202 to R204). -/

/-- `paeth` takes the nearest of `a`, `b`, `c`, the first of them among equally near ones. -/
theorem isPaeth_paeth (a b c : Byte) : isPaeth a b c (paeth a b c) := by
  refine ⟨_, _, _, _, rfl, rfl, rfl, rfl, ?_⟩
  simp only [Int.abs_eq_natAbs, Nat.cast_le]
  refine ⟨fun hab hac => if_pos ⟨hab, hac⟩, fun ha hbc => ?_, fun ha hbc => ?_⟩
  · exact (if_neg ha).trans (if_pos hbc)
  · exact (if_neg ha).trans (if_neg hbc)

/-- Settles O51: the types by the cases of the predictor; half a sum of two bytes is a byte. -/
theorem fltPredictorPerType : Obligations.FltPredictorPerType := by
  intro a b c
  refine ⟨rfl, rfl, rfl, ?_, isPaeth_paeth a b c, fun t ht => ?_⟩
  · exact (BitVec.toNat_ofNat _ _).trans (Nat.mod_eq_of_lt (by omega))
  · obtain ⟨n, rfl⟩ := Nat.exists_eq_add_of_le' ht
    rfl

/-- The byte to the left, through the model's own name for it. -/
theorem fltBack_eq_leftOf : fltBack = leftOf := rfl

/-! The reconstructed row (R211). -/

theorem fltDefilter_of_four_lt {d rl : Nat} {line prev : Memory Byte} (h : 4 < (line.read 0).toNat) :
    fltDefilter d rl line prev = line :=
  if_pos h

/-- Each data byte of a reconstructed row, from the reconstructed byte to its left. -/
theorem read_fltDefilter {d rl : Nat} {line : Memory Byte} (prev : Memory Byte) (hd : 1 ≤ d) (h : (line.read 0).toNat ≤ 4) (i : Nat) :
    (fltDefilter d rl line prev).read i =
      if 1 ≤ i ∧ i ≤ rl then
        line.read i + fltPredict (line.read 0).toNat (leftOf (fltDefilter d rl line prev) d i) (prev.read i) (leftOf prev d i)
      else line.read i := by
  simp only [fltDefilter, if_neg h.not_gt]
  rw [fltDefilterFrom_read _ _ _ hd _ _ _ le_rfl, fltBack_eq_leftOf]
  simp only [Nat.add_comm 1 rl, Nat.lt_succ_iff]

/-- The tag stays. -/
theorem read_fltDefilter_zero {d : Nat} (rl : Nat) (line prev : Memory Byte) (hd : 1 ≤ d) :
    (fltDefilter d rl line prev).read 0 = line.read 0 := by
  rcases Nat.lt_or_ge 4 (line.read 0).toNat with h | h
  · rw [fltDefilter_of_four_lt h]
  · simp [read_fltDefilter prev hd h]

/-! The filtered row and its score (R212, R213). -/

theorem isFilteredRow_fltFilt (t d rl : Nat) (line prev : Memory Byte) :
    isFilteredRow (fltFilt t d rl line prev) t d rl line prev := by
  simp only [isFilteredRow, fltFilt, fltFiltFrom_read, fltBack_eq_leftOf]
  exact ⟨read_write_same _ _ _, fun i h1 hi => if_pos ⟨h1, by omega⟩⟩

/-- The score counts the pairs `(i - 1, i)` from `i = 2` on, the model from 0 on. -/
theorem fltScore_eq_pairsThatDiffer (rl : Nat) (o : Memory Byte) : fltScore rl o = pairsThatDiffer rl o := by
  have hcount : fltScore rl o = ((Finset.range (rl - 1)).filter fun j => o.read (j + 2) ≠ o.read (j + 1)).card := rfl
  rw [hcount]
  have hmem (i : Nat) : i ∈ Finset.range (rl - 1) ↔ i + 2 ∈ Finset.Icc 2 rl := by
    rw [Finset.mem_range, Finset.mem_Icc]
    omega
  refine Finset.card_bij (fun j _ => j + 2) (fun j hj => ?_) (fun _ _ _ _ h => Nat.add_right_cancel h) (fun i hi => ?_)
  · exact Finset.mem_filter.2 ((Finset.mem_filter.1 hj).imp_left (hmem j).1)
  · obtain ⟨hrange, hne⟩ := Finset.mem_filter.1 hi
    obtain ⟨j, rfl⟩ := Nat.exists_eq_add_of_le' (Finset.mem_Icc.1 hrange).1
    exact ⟨j, Finset.mem_filter.2 ⟨(hmem j).2 hrange, hne⟩, rfl⟩

/-- Two filtered rows of one type have the same data bytes, so the same score. -/
theorem pairsThatDiffer_eq_of_isFilteredRow {o o' : Memory Byte} {t d rl : Nat} {line prev : Memory Byte}
    (h : isFilteredRow o t d rl line prev) (h' : isFilteredRow o' t d rl line prev) :
    pairsThatDiffer rl o = pairsThatDiffer rl o' := by
  have hread : ∀ i, 1 ≤ i → i ≤ rl → o.read i = o'.read i := fun i h1 hi => (h.2 i h1 hi).trans (h'.2 i h1 hi).symm
  unfold pairsThatDiffer
  congr 1
  refine Finset.filter_congr fun i hi => ?_
  have ⟨h2, hrl⟩ := Finset.mem_Icc.1 hi
  rw [hread i (by omega) hrl, hread (i - 1) (by omega) (by omega)]

/-! The selection (R214). -/

section
variable {d rl n : Nat} {line prev : Memory Byte} {best : FltCandidate}

/-- `best` is the first of the candidates of the types 0 to `n` with the smallest score. -/
def IsFirstBest (d rl : Nat) (line prev : Memory Byte) (n : Nat) (best : FltCandidate) : Prop :=
  ∃ t ≤ n, best = fltCandidate t d rl line prev ∧ ∀ t' ≤ n,
    best.score ≤ (fltCandidate t' d rl line prev).score ∧
    ((fltCandidate t' d rl line prev).score = best.score → t ≤ t')

theorem isFirstBest_zero : IsFirstBest d rl line prev 0 (fltCandidate 0 d rl line prev) :=
  ⟨0, le_rfl, rfl, fun t' ht' => by simp [Nat.le_zero.1 ht']⟩

/-- The next candidate replaces the best so far only when its score is smaller. -/
theorem isFirstBest_fltBetter (h : IsFirstBest d rl line prev n best) :
    IsFirstBest d rl line prev (n + 1) (fltBetter best (fltCandidate (n + 1) d rl line prev)) := by
  obtain ⟨t, ht, hcand, hbest⟩ := h
  unfold fltBetter
  split_ifs with hlt
  · refine ⟨n + 1, le_rfl, rfl, fun t' ht' => ?_⟩
    rcases Nat.le_add_one_iff.1 ht' with hle | rfl
    · have ⟨hscore, _⟩ := hbest t' hle
      omega
    · exact ⟨le_rfl, fun _ => le_rfl⟩
  · refine ⟨t, by omega, hcand, fun t' ht' => ?_⟩
    rcases Nat.le_add_one_iff.1 ht' with hle | rfl
    · exact hbest t' hle
    · omega

theorem isFirstBest_fltSelect : IsFirstBest d rl line prev 4 (fltSelect d rl line prev) :=
  isFirstBest_fltBetter (isFirstBest_fltBetter (isFirstBest_fltBetter (isFirstBest_fltBetter isFirstBest_zero)))

end

end Sys2Proof.Machine
end

section
/-! PROOFS. A command of FLT as the host sees it: the words of its row in the opcode map (30_encoding.md R80 to R86), and its error entry or its
response (60_exceptions.md R262 steps 4 to 7), for the commands of 43_filter.md R206 to R210 and R215 to R221. -/

namespace Sys2Proof.Machine

/-! The operand ranges as checks, and the gate `FLT_READY`. -/

theorem notPixelSize_iff {a : FieldA} : notPixelSize a = true ↔ a.toNat < 1 ∨ 64 < a.toNat := by simp [notPixelSize]

theorem notPixelSize_eq_false_iff {a : FieldA} : notPixelSize a = false ↔ 1 ≤ a.toNat ∧ a.toNat ≤ 64 := by
  simp [notPixelSize, Nat.one_le_iff_ne_zero]

theorem notFilterType_iff {a : FieldA} : notFilterType a = true ↔ 4 < a.toNat := by simp [notFilterType]

theorem notFilterType_eq_false_iff {a : FieldA} : notFilterType a = false ↔ a.toNat ≤ 4 := by simp [notFilterType]

theorem notPacked_iff {b : FieldB} : notPacked b = true ↔ 2 ^ 24 ≤ b.toNat := by simp [notPacked]

theorem notPacked_eq_false_iff {b : FieldB} : notPacked b = false ↔ b.toNat < 2 ^ 24 := by simp [notPacked]

section
variable {op : BitVec 8} {cs : List (Bool × ErrorCode)} {c : Bool} {s t : State} {d : Word}

/-- Before `FLT.CFG` a command whose first check is `FLT_READY` raises `E_STATE`, whatever its other checks. -/
theorem runCommand_of_not_fltReady (hs : s.unlocked) (hr : s.status.fltReady = false) :
    runCommand op ((!s.status.fltReady, .eState) :: cs) s t d = .next (errorEntry s op 3#8) :=
  runCommand_eq_errorEntry (e := .eState) hs (by simp [hr])

/-- After `FLT.CFG` a command whose only check is `FLT_READY` completes. -/
theorem runCommand_of_fltReady (hs : s.unlocked) (hr : s.status.fltReady = true) :
    runCommand op [(!s.status.fltReady, .eState)] s t d = .next (answered t d) :=
  runCommand_eq_answered hs (by simp [hr])

/-- After `FLT.CFG` an operand out of range raises `E_RANGE`. -/
theorem runCommand_of_fltReady_out_of_range (hs : s.unlocked) (hr : s.status.fltReady = true) (hc : c = true) :
    runCommand op [(!s.status.fltReady, .eState), (c, .eRange)] s t d = .next (errorEntry s op 4#8) :=
  runCommand_eq_errorEntry (e := .eRange) hs (by simp [hr, hc])

/-- After `FLT.CFG` a command with its operand in range completes. -/
theorem runCommand_of_fltReady_in_range (hs : s.unlocked) (hr : s.status.fltReady = true) (hc : c = false) :
    runCommand op [(!s.status.fltReady, .eState), (c, .eRange)] s t d = .next (answered t d) :=
  runCommand_eq_answered hs (by simp [hr, hc])

end

/-! The configuration (R206). -/

/-- Settles O43: the pixel size and the row length are checked; the registers hold their values, which do not overlap in the response. -/
theorem fltCfgConfiguresRows : Obligations.FltCfgConfiguresRows := by
  refine ⟨commandWords_of_row (op := Opcode.fltCfg) rfl, fun s bpp width hs => ⟨fun hbad => ?_, fun h1 h64 hrow => ?_⟩⟩
  · refine runCommand_eq_errorEntry (e := .eRange) hs ?_
    rcases or_assoc.2 hbad with hpixel | hrow
    · simp [notPixelSize_iff.2 hpixel]
    · simp [hrow]
  · have hdelay : (fltConfig bpp width).delay.toNat = (bpp.toNat + 7) / 8 :=
      (BitVec.toNat_ofNat _ _).trans (Nat.mod_eq_of_lt (show (bpp.toNat + 7) / 8 < 2 ^ 4 by omega))
    have hrowlen : (fltConfig bpp width).rowlen.toNat = (width.toNat * bpp.toNat + 7) / 8 :=
      (BitVec.toNat_ofNat _ _).trans (Nat.mod_eq_of_lt (hrow.trans_lt (by decide)))
    refine ⟨fltConfig bpp width, (BitVec.toNat_setWidth _ _).trans (Nat.mod_eq_of_lt (by omega)), rfl, hdelay, hrowlen,
      fun _ => ⟨rfl, rfl, rfl⟩, ?_⟩
    rw [← hdelay, ← hrowlen, ← respField_pair _ _ (by decide) (by decide)]
    exact runCommand_eq_answered hs (by simp [notPixelSize_eq_false_iff.2 ⟨h1, h64⟩, hrow])

/-! One byte of a row (R207 to R210, R218). -/

/-- Settles O44: `FLT_READY` is checked first, then the operands; the row takes its byte by the law of a write. -/
theorem fltWritesReplaceOneByte : Obligations.FltWritesReplaceOneByte := by
  refine ⟨commandWords_of_row (op := Opcode.fltWrl) rfl, commandWords_of_row (op := Opcode.fltWrp) rfl, fun s byte idx hs =>
    ⟨fun hr => ⟨runCommand_of_not_fltReady hs hr, runCommand_of_not_fltReady hs hr⟩, fun hr => ⟨fun hbad => ?_,
      fun hi hb => ?_, fun hbad => ?_, fun h1 hi hb => ?_⟩⟩⟩
  · exact runCommand_of_fltReady_out_of_range hs hr (by simpa [notByte_iff] using hbad)
  · exact ⟨s.flt.line.write idx.toNat (byteOf byte), fun i => by rw [read_write, byteOf_eq],
      runCommand_of_fltReady_in_range hs hr (by simpa [notByte_eq_false_iff] using ⟨hi, hb⟩)⟩
  · exact runCommand_of_fltReady_out_of_range hs hr (by simpa [notByte_iff, or_assoc] using hbad)
  · exact ⟨s.flt.prev.write idx.toNat (byteOf byte), fun i => by rw [read_write, byteOf_eq],
      runCommand_of_fltReady_in_range hs hr
        (by simpa [notByte_eq_false_iff, and_assoc] using ⟨Nat.one_le_iff_ne_zero.1 h1, hi, hb⟩)⟩

/-- Settles O45: `FLT_READY` is checked first, then the index; the response is one field at bit 0. -/
theorem fltReadsAnswerOneByte : Obligations.FltReadsAnswerOneByte := by
  refine ⟨commandWords_of_row (op := Opcode.fltRdl) rfl, commandWords_of_row (op := Opcode.fltRdp) rfl,
    commandWords_of_row (op := Opcode.fltRdo) rfl, fun s idx hs => ⟨fun hr => ?_, fun hr => ?_⟩⟩
  · exact ⟨runCommand_of_not_fltReady hs hr, runCommand_of_not_fltReady hs hr, runCommand_of_not_fltReady hs hr⟩
  simp only [← respField_zero]
  refine ⟨fun hfar => ?_, fun hbad => ?_, fun hi => ?_, fun h1 hi => ?_⟩
  · have hc := decide_eq_true hfar
    exact ⟨runCommand_of_fltReady_out_of_range hs hr hc, runCommand_of_fltReady_out_of_range hs hr hc⟩
  · exact runCommand_of_fltReady_out_of_range hs hr (by simpa using hbad)
  · have hc := decide_eq_false hi.not_gt
    exact ⟨runCommand_of_fltReady_in_range hs hr hc, runCommand_of_fltReady_in_range hs hr hc⟩
  · exact runCommand_of_fltReady_in_range hs hr (by simpa using ⟨Nat.one_le_iff_ne_zero.1 h1, hi⟩)

/-! The commands on a whole row (R215 to R217, R219, R220). -/

/-- Settles O46: the row is the one the laws of `defilter` describe, its tag is the old one. -/
theorem fltDefiltReconstructsRow : Obligations.FltDefiltReconstructsRow := by
  refine ⟨commandWords_of_row (op := Opcode.fltDefilt) rfl, fun s hs => ⟨runCommand_of_not_fltReady hs, fun hr hd => ?_⟩⟩
  refine ⟨fltDefilter s.flt.dl s.flt.rl s.flt.line s.flt.prev, ?_, fltDefilter_of_four_lt, read_fltDefilter _ hd⟩
  rw [← read_fltDefilter_zero s.flt.rl _ s.flt.prev hd, ← respField_zero]
  exact runCommand_of_fltReady hs hr

/-- A score in its 16 bits of a response. -/
theorem toNat_ofNat_fltScore {rl : Nat} (h : rl ≤ 65536) (o : Memory Byte) :
    (BitVec.ofNat 16 (fltScore rl o)).toNat = pairsThatDiffer rl o := by
  rw [BitVec.toNat_ofNat, Nat.mod_eq_of_lt (fltScore_lt rl o h), fltScore_eq_pairsThatDiffer]

/-- Settles O47: `FLT_READY` is checked first, then the type; the row is the filtered row, whose score fits the response. -/
theorem fltFiltFiltersRow : Obligations.FltFiltFiltersRow := by
  refine ⟨commandWords_of_row (op := Opcode.fltFilt) rfl, fun s type hs =>
    ⟨runCommand_of_not_fltReady hs, fun hr ht => ?_, fun hr ht hrl => ?_⟩⟩
  · exact runCommand_of_fltReady_out_of_range hs hr (notFilterType_iff.2 ht)
  · refine ⟨_, isFilteredRow_fltFilt _ _ _ _ _, ?_⟩
    rw [← toNat_ofNat_fltScore hrl, ← respField_zero]
    exact runCommand_of_fltReady_in_range hs hr (notFilterType_eq_false_iff.2 ht)

/-- After `FLT.CFG` the command completes with the candidate that `auto` selects. -/
theorem exec_fltAuto_of_fltReady {s : State} {best : FltCandidate} (hs : s.unlocked) (hr : s.status.fltReady = true)
    (hbest : fltSelect s.flt.dl s.flt.rl s.flt.line s.flt.prev = best) :
    exec .fltAuto s = .next (answered { s with flt := { s.flt with out := best.row } }
      (respField (BitVec.ofNat 3 best.type) 0 ||| respField (BitVec.ofNat 16 best.score) 32)) := by
  subst hbest
  exact runCommand_of_fltReady hs hr

/-- The response of a candidate of the types 0 to 4: the type and the score do not overlap. -/
theorem respField_type_or_score {t d rl : Nat} (ht : t ≤ 4) (hrl : rl ≤ 65536) (line prev : Memory Byte) :
    respField (BitVec.ofNat 3 (fltCandidate t d rl line prev).type) 0 |||
        respField (BitVec.ofNat 16 (fltCandidate t d rl line prev).score) 32 =
      BitVec.ofNat 64 (t + pairsThatDiffer rl (fltFilt t d rl line prev) * 2 ^ 32) := by
  rw [respField_pair _ _ (by decide) (by decide)]
  simp only [fltCandidate]
  rw [toNat_ofNat_fltScore hrl, BitVec.toNat_ofNat, Nat.mod_eq_of_lt (by omega)]

/-- Settles O48: the selected candidate is the first of smallest score, and the score of any filtered row of a type is that of its candidate. -/
theorem fltAutoPicksSmallestScore : Obligations.FltAutoPicksSmallestScore := by
  refine ⟨commandWords_of_row (op := Opcode.fltAuto) rfl, fun s hs => ⟨runCommand_of_not_fltReady hs, fun hr hrl => ?_⟩⟩
  obtain ⟨t, ht, hselect, hbest⟩ := isFirstBest_fltSelect (d := s.flt.dl) (rl := s.flt.rl) (line := s.flt.line) (prev := s.flt.prev)
  refine ⟨t, fltFilt t s.flt.dl s.flt.rl s.flt.line s.flt.prev, ht, isFilteredRow_fltFilt _ _ _ _ _,
    fun t' o' ht' ho' => ?_, ?_⟩
  · rw [pairsThatDiffer_eq_of_isFilteredRow ho' (isFilteredRow_fltFilt _ _ _ _ _)]
    simp only [hselect, fltCandidate, fltScore_eq_pairsThatDiffer] at hbest
    exact hbest t' ht'
  · rw [← respField_type_or_score ht hrl]
    exact exec_fltAuto_of_fltReady hs hr hselect

/-- Settles O49: the loops of R219 and R220 write the data bytes 1 to `FLT_ROWLEN` only. -/
theorem fltNextAndZprevSetPreviousRow : Obligations.FltNextAndZprevSetPreviousRow := by
  refine ⟨commandWords_of_row (op := Opcode.fltNext) rfl, commandWords_of_row (op := Opcode.fltZprev) rfl, fun s hs =>
    ⟨fun hr => ⟨runCommand_of_not_fltReady hs hr, runCommand_of_not_fltReady hs hr⟩, fun hr => ⟨?_, ?_⟩⟩⟩
  · refine ⟨fltCopyFrom s.flt.line s.flt.rl 1 s.flt.prev, fun i => ?_, runCommand_of_fltReady hs hr⟩
    simp only [fltCopyFrom_read, Nat.add_comm 1, Nat.lt_succ_iff]
  · refine ⟨fltZeroFrom s.flt.rl 1 s.flt.prev, fun i => ?_, runCommand_of_fltReady hs hr⟩
    simp only [fltZeroFrom_read, Nat.add_comm 1, Nat.lt_succ_iff]

/-! The predictor as a command (R221). -/

/-- Settles O50: one check of the packed operand; the response is the Paeth prediction of its three bytes, one field at bit 0. -/
theorem fltPaethAnswersPrediction : Obligations.FltPaethAnswersPrediction := by
  refine ⟨commandWords_of_row (op := Opcode.fltPaeth) rfl, fun s packed hs => ⟨fun hbad => ?_, fun hgood => ?_⟩⟩
  · exact runCommand_eq_errorEntry (e := .eRange) hs (by simp [notPacked_iff.2 hbad])
  · refine ⟨_, isPaeth_paeth _ _ _, ?_⟩
    rw [← respField_zero]
    exact runCommand_eq_answered hs (by simp [notPacked_eq_false_iff.2 hgood])

end Sys2Proof.Machine
end

section
/-! PROOFS. A command of A7 as the host sees it: the words of its row in the opcode map (30_encoding.md R80 to R86), and its error entry or its
response (60_exceptions.md R262 steps 4 to 7), for the commands of 44_adam7.md R245 to R248. -/

namespace Sys2Proof.Machine

/-! The two dimensions (R245, R246). -/

/-- Settles O53: neither command has a check, so each completes with its register written. -/
theorem a7SetsWriteOneDimension : Obligations.A7SetsWriteOneDimension :=
  ⟨commandWords_of_row (op := Opcode.a7Setw) rfl, commandWords_of_row (op := Opcode.a7Seth) rfl, fun _ _ hs =>
    ⟨runCommand_eq_answered (op := Opcode.a7Setw) hs firstError_nil, runCommand_eq_answered (op := Opcode.a7Seth) hs firstError_nil⟩⟩

/-! A command whose one check is the range of its pass. -/

theorem notPass_iff {a : FieldA} : notPass a = true ↔ 6 < a.toNat := by simp [notPass]

theorem notPass_eq_false_iff {a : FieldA} : notPass a = false ↔ a.toNat ≤ 6 := by simp [notPass]

section
variable {op : BitVec 8} {s t : State} {d : Word} {k : FieldA}

theorem runCommand_of_six_lt_pass (hs : s.unlocked) (hk : 6 < k.toNat) :
    runCommand op [(notPass k, .eRange)] s t d = .next (errorEntry s op 4#8) :=
  runCommand_eq_errorEntry (e := .eRange) hs (by simp [notPass_iff.2 hk])

theorem runCommand_of_pass_le_six (hs : s.unlocked) (hk : k.toNat ≤ 6) :
    runCommand op [(notPass k, .eRange)] s t d = .next (answered t d) :=
  runCommand_eq_answered hs (by simp [notPass_eq_false_iff.2 hk])

end

/-! The pattern (R247). -/

/-- The response that holds a pattern entry, one byte per number. -/
def A7Pass.response (p : A7Pass) : Word :=
  respField (BitVec.ofNat 8 p.bx) 0 ||| respField (BitVec.ofNat 8 p.byy) 8 ||| respField (BitVec.ofNat 8 p.ex) 16 |||
    respField (BitVec.ofNat 8 p.ey) 24

/-- For an existing pass `A7.DESC` completes with the response `d` of its pattern entry. -/
theorem exec_a7Desc_of_pass_le_six {s : State} {k : FieldA} {d : Word} (hs : s.unlocked) (hk : k.toNat ≤ 6)
    (hd : (a7Pattern k.toNat).response = d) : exec (.a7Desc k) s = .next (answered s d) := by
  subst hd
  exact runCommand_of_pass_le_six hs hk

/-- Settles O54: one check of the pass; the seven responses are the seven rows of the pattern table, evaluated. -/
theorem a7DescAnswersPattern : Obligations.A7DescAnswersPattern := by
  refine ⟨commandWords_of_row (op := Opcode.a7Desc) rfl, fun s k hs =>
    ⟨runCommand_of_six_lt_pass hs, ?_, ?_, ?_, ?_, ?_, ?_, ?_⟩⟩
  all_goals
    rintro rfl
    exact exec_a7Desc_of_pass_le_six hs (by decide) (by decide)

/-! The size of a sub-image (R248). -/

/-- A sub-image of a 32-bit extent has a 32-bit extent. -/
theorem toNat_ofNat_a7Sub (full : BitVec 32) (base e : Nat) :
    (BitVec.ofNat 32 (a7Sub full.toNat base e)).toNat = a7Sub full.toNat base e :=
  (BitVec.toNat_ofNat _ _).trans (Nat.mod_eq_of_lt ((a7Sub_le _ _ _).trans_lt full.isLt))

/-- Settles O55: one check of the pass; the two sizes fit their halves of the response, so they do not overlap. -/
theorem a7SizeAnswersSubImage : Obligations.A7SizeAnswersSubImage := by
  refine ⟨commandWords_of_row (op := Opcode.a7Size) rfl, lt_a7Sub_iff, fun s k hs =>
    ⟨runCommand_of_six_lt_pass hs, fun hk => ?_⟩⟩
  rw [← toNat_ofNat_a7Sub s.a7.w, ← toNat_ofNat_a7Sub s.a7.h, ← respField_pair _ _ (by decide) (by decide)]
  exact runCommand_of_pass_le_six hs hk

end Sys2Proof.Machine
end

section
/-! PROOFS. The locked block (60_exceptions.md R263): a word that decodes is the word of its command (30_encoding.md R81, R84), so the system
commands have no words but the three exact ones. -/

namespace Sys2Proof.Machine

/-! A decoded word is put together again. -/

/-- The command of a row is encoded under the row's opcode, with the operand fields the row does not use at 0 (R81, R84). -/
theorem encode_make_of_mem_opcodeMap {r : OpcodeRow} (hr : r ∈ opcodeMap) (a : FieldA) (b : FieldB) :
    encode (r.make a b) = enc r.op (if r.usesA then a else 0#16) (if r.usesB then b else 0#32) := by
  revert r
  simp [opcodeMap, systemRows, hufRows, winRows, fltRows, a7Rows, encode]

/-- The row of an opcode is a row of the map, under that opcode. -/
theorem opcodeRow_eq_some {op : BitVec 8} {r : OpcodeRow} (h : opcodeRow op = some r) : r ∈ opcodeMap ∧ r.op = op :=
  ⟨List.mem_of_find?_eq_some h, by simpa using List.find?_some h⟩

theorem decode_eq_ok {w : Word} {i : Instr} (h : decode w = .ok i) :
    ∃ r, opcodeRow (opField w) = some r ∧ r.reservedBad w = false ∧ r.make (aField w) (bField w) = i := by
  cases hr : opcodeRow (opField w) with
  | none => simp [decode_of_no_row hr] at h
  | some r =>
    cases hbad : r.reservedBad w with
    | true => simp [decode_of_reservedBad hr hbad] at h
    | false => exact ⟨r, rfl, hbad, by simpa [decode_of_row hr hbad] using h⟩

/-- The word of a decoded command is the word it was decoded from: the operand fields its row does not use are 0 in both. -/
theorem encode_eq_of_decode {w : Word} {i : Instr} (h : decode w = .ok i) : encode i = w := by
  obtain ⟨r, hr, hgood, rfl⟩ := decode_eq_ok h
  obtain ⟨hmem, hop⟩ := opcodeRow_eq_some hr
  obtain ⟨hrsv, hA, hB⟩ := reservedBad_eq_false_iff.1 hgood
  have hA' : (if r.usesA then aField w else 0#16) = aField w := ite_eq_left_iff.2 fun hu => (hA.resolve_left hu).symm
  have hB' : (if r.usesB then bField w else 0#32) = bField w := ite_eq_left_iff.2 fun hu => (hB.resolve_left hu).symm
  rw [encode_make_of_mem_opcodeMap hmem, hop, hA', hB', enc_fields w hrsv]

/-! What the lock refuses. -/

theorem isSystem_iff {i : Instr} : isSystem i = true ↔ i = .nop ∨ i = .reset ∨ i = .rdstat := by
  cases i <;> simp [isSystem]

/-- A command that is no system command is refused while the block is locked (R262, step 1). -/
theorem exec_of_locked {s : State} {i : Instr} (hs : s.locked) (hi : isSystem i = false) : exec i s = .next (turnedAway s) := by
  obtain ⟨cs, t, d, hform⟩ := exec_form i s hi
  exact hform.form.trans (runCommand_locked _ _ _ _ _ hs)

/-- A locked block refuses every word that is not the word of a system command. -/
theorem step_sending_of_locked {s : State} {w : Word} (hs : s.locked) (hw : ∀ i, isSystem i = true → w ≠ encode i) :
    step (sending s w) = .next (turnedAway s) := by
  cases hdec : decode w with
  | error why => exact step_sending_of_decode_error_locked hs hdec
  | ok i =>
    have hi : isSystem i = false := Bool.eq_false_iff.2 fun hi => hw i hi (encode_eq_of_decode hdec).symm
    exact (step_sending_of_decode hdec).trans (exec_of_locked hs hi)

/-- Settles O8: the three exact words decode to the system commands, and no other word is the word of one. -/
theorem lockedBlockExecutesOnlyThreeWords : Obligations.LockedBlockExecutesOnlyThreeWords := by
  refine fun s w hs => ⟨?_, ?_, ?_, fun hnop hreset hrdstat => step_sending_of_locked hs fun i hi => ?_⟩
  · rintro rfl
    exact step_sending_of_decode (by decide)
  · rintro rfl
    exact step_sending_of_decode (by decide)
  · rintro rfl
    exact step_sending_of_decode (by decide)
  · obtain rfl | rfl | rfl := isSystem_iff.1 hi
    · exact hnop
    · exact hreset
    · exact hrdstat

end Sys2Proof.Machine
end

section
/-! PROOFS. Decoding and encoding (30_encoding.md R80 to R86): each undoes the other, and the words that decode are the instances of the rows of
the opcode table. -/

namespace Sys2Proof.Machine

/-! Decoding the word of a command. -/

/-- Every command is encoded under a row of the opcode map that gives it back. -/
theorem encodedByRow : ∀ i : Instr, Laws.EncodedByRow.Statement i
  | .nop => Laws.EncodedByRow.nop
  | .reset => Laws.EncodedByRow.reset
  | .rdstat => Laws.EncodedByRow.rdstat
  | .hufClr => Laws.EncodedByRow.hufClr
  | .hufWrf sym freq => Laws.EncodedByRow.hufWrf sym freq
  | .hufRdf sym => Laws.EncodedByRow.hufRdf sym
  | .hufBuild => Laws.EncodedByRow.hufBuild
  | .hufRdc sym => Laws.EncodedByRow.hufRdc sym
  | .hufRds idx => Laws.EncodedByRow.hufRds idx
  | .hufRdl level => Laws.EncodedByRow.hufRdl level
  | .winInit exp => Laws.EncodedByRow.winInit exp
  | .winReg byte => Laws.EncodedByRow.winReg byte
  | .winLaclr => Laws.EncodedByRow.winLaclr
  | .winLaput byte => Laws.EncodedByRow.winLaput byte
  | .winMatch => Laws.EncodedByRow.winMatch
  | .winRdb dist => Laws.EncodedByRow.winRdb dist
  | .winRdn => Laws.EncodedByRow.winRdn
  | .fltCfg bpp width => Laws.EncodedByRow.fltCfg bpp width
  | .fltWrl byte idx => Laws.EncodedByRow.fltWrl byte idx
  | .fltRdl idx => Laws.EncodedByRow.fltRdl idx
  | .fltWrp byte idx => Laws.EncodedByRow.fltWrp byte idx
  | .fltRdp idx => Laws.EncodedByRow.fltRdp idx
  | .fltRdo idx => Laws.EncodedByRow.fltRdo idx
  | .fltDefilt => Laws.EncodedByRow.fltDefilt
  | .fltFilt type => Laws.EncodedByRow.fltFilt type
  | .fltAuto => Laws.EncodedByRow.fltAuto
  | .fltNext => Laws.EncodedByRow.fltNext
  | .fltZprev => Laws.EncodedByRow.fltZprev
  | .fltPaeth packed => Laws.EncodedByRow.fltPaeth packed
  | .a7Setw width => Laws.EncodedByRow.a7Setw width
  | .a7Seth height => Laws.EncodedByRow.a7Seth height
  | .a7Desc pass => Laws.EncodedByRow.a7Desc pass
  | .a7Size pass => Laws.EncodedByRow.a7Size pass

/-- The word of a row whose unused operands are 0 decodes to the row's command. -/
theorem decode_enc_of_row {r : OpcodeRow} {a : FieldA} {b : FieldB} (hr : opcodeRow r.op = some r)
    (ha : r.usesA = false → a = 0#16) (hb : r.usesB = false → b = 0#32) : decode (enc r.op a b) = .ok (r.make a b) := by
  have hgood : r.reservedBad (enc r.op a b) = false := by
    rw [reservedBad_eq_false_iff, rsvField_enc, aField_enc, bField_enc]
    refine ⟨rfl, ?_, ?_⟩
    · cases hu : r.usesA <;> simp [ha, hu]
    · cases hu : r.usesB <;> simp [hb, hu]
  rw [decode_of_row (by rwa [opField_enc]) hgood, aField_enc, bField_enc]

/-- Settles O3: every command is encoded under its row of the map, and the word of a row decodes by that row. -/
theorem decodeOfEncode : Obligations.DecodeOfEncode := by
  intro i
  obtain ⟨r, a, b, hr, henc, hmake, ha, hb⟩ := encodedByRow i
  rw [henc, decode_enc_of_row hr ha hb, hmake]

/-- Settles O4: the word of a decoded command has the opcode and the operands it was decoded from. -/
theorem encodeOfDecode : Obligations.EncodeOfDecode := fun _ _ => encode_eq_of_decode

end Sys2Proof.Machine

namespace Sys2Proof

/-! The rows of the opcode table as words. -/

/-- A word is determined by its four fields (R80). -/
theorem word_eq_iff_fields {u v : Word} :
    u = v ↔ opField u = opField v ∧ rsvField u = rsvField v ∧ aField u = aField v ∧ bField u = bField v := by
  refine ⟨by rintro rfl; simp, ?_⟩
  simp only [← BitVec.toNat_inj, opField_toNat, rsvField_toNat, aField_toNat, bField_toNat]
  omega

theorem opField_and (u v : Word) : opField (u &&& v) = opField u &&& opField v := BitVec.extractLsb'_and

theorem rsvField_and (u v : Word) : rsvField (u &&& v) = rsvField u &&& rsvField v := BitVec.extractLsb'_and

theorem aField_and (u v : Word) : aField (u &&& v) = aField u &&& aField v := BitVec.extractLsb'_and

theorem bField_and (u v : Word) : bField (u &&& v) = bField u &&& bField v := BitVec.extractLsb'_and

/-- The mask of a row: the bits of `OP`, of `RSV` and of the operand fields the row does not use. -/
def OpcodeRow.mask (r : OpcodeRow) : Word :=
  enc 0xFF#8 (if r.usesA then 0#16 else 0xFFFF#16) (if r.usesB then 0#32 else 0xFFFFFFFF#32) ||| 0x00FF000000000000#64

/-- The `match` and the `mask` of a row of the opcode map. -/
def OpcodeRow.tableRow (r : OpcodeRow) : Word × Word := (enc r.op 0#16 0#32, r.mask)

theorem fields_mask (r : OpcodeRow) :
    opField r.mask = BitVec.allOnes 8 ∧ rsvField r.mask = BitVec.allOnes 8 ∧
      aField r.mask = (if r.usesA then 0#16 else BitVec.allOnes 16) ∧
      bField r.mask = (if r.usesB then 0#32 else BitVec.allOnes 32) := by
  simp only [OpcodeRow.mask]
  cases r.usesA <;> cases r.usesB <;> decide

/-- An operand field under the mask: free when the row uses it, else all its bits count. -/
theorem and_ite_allOnes_eq_zero_iff {n : Nat} (c : Bool) (v : BitVec n) :
    (v &&& if c then 0#n else BitVec.allOnes n) = 0#n ↔ c = true ∨ v = 0#n := by
  cases c
  · rw [if_neg Bool.false_ne_true, BitVec.and_allOnes]
    simp
  · simp

/-- A word fits the row exactly when it has the row's opcode and no reserved field is set. -/
theorem and_mask_eq_iff {r : OpcodeRow} {w : Word} :
    w &&& r.mask = enc r.op 0#16 0#32 ↔ opField w = r.op ∧ r.reservedBad w = false := by
  obtain ⟨hop, hrsv, hA, hB⟩ := fields_mask r
  rw [word_eq_iff_fields, Machine.reservedBad_eq_false_iff, opField_and, rsvField_and, aField_and, bField_and, hop, hrsv, hA, hB,
    opField_enc, rsvField_enc, aField_enc, bField_enc, BitVec.and_allOnes, BitVec.and_allOnes, and_ite_allOnes_eq_zero_iff,
    and_ite_allOnes_eq_zero_iff]

end Sys2Proof

namespace Sys2Proof.Machine

/-! The words that decode. -/

theorem tableRows_eq_map : tableRows = opcodeMap.map OpcodeRow.tableRow := by decide

/-- No opcode has two rows. -/
theorem eq_of_mem_opcodeMap_of_op_eq {r r' : OpcodeRow} (hr : r ∈ opcodeMap) (hr' : r' ∈ opcodeMap) (h : r.op = r'.op) : r = r' :=
  List.inj_on_of_nodup_map (f := OpcodeRow.op) (by decide) hr hr' h

theorem opcodeRow_of_mem {r : OpcodeRow} (hr : r ∈ opcodeMap) : opcodeRow r.op = some r := by
  have hsome : (opcodeRow r.op).isSome := List.find?_isSome.2 ⟨r, hr, decide_eq_true rfl⟩
  obtain ⟨r', hr'⟩ := Option.isSome_iff_exists.1 hsome
  obtain ⟨hmem, hop⟩ := opcodeRow_eq_some hr'
  rw [← eq_of_mem_opcodeMap_of_op_eq hmem hr hop]
  exact hop ▸ hr'

/-- A word decodes exactly when it fits some row of the map. -/
theorem exists_decode_iff {w : Word} : (∃ i, decode w = .ok i) ↔ ∃ r ∈ opcodeMap, w &&& r.mask = enc r.op 0#16 0#32 := by
  constructor
  · rintro ⟨i, hi⟩
    obtain ⟨r, hr, hgood, -⟩ := decode_eq_ok hi
    obtain ⟨hmem, hop⟩ := opcodeRow_eq_some hr
    exact ⟨r, hmem, and_mask_eq_iff.2 ⟨hop.symm, hgood⟩⟩
  · rintro ⟨r, hmem, hw⟩
    obtain ⟨hop, hgood⟩ := and_mask_eq_iff.1 hw
    exact ⟨_, decode_of_row (hop ▸ opcodeRow_of_mem hmem) hgood⟩

/-- Settles O5: the table is the map with each row as a word and a mask; a word that fits has the row's opcode, and no opcode has two rows. -/
theorem decodedWordsAreTableRows : Obligations.DecodedWordsAreTableRows := by
  unfold Obligations.DecodedWordsAreTableRows
  rw [tableRows_eq_map]
  refine ⟨fun w => by simp [exists_decode_iff, OpcodeRow.tableRow], fun w r r' hr hr' hw hw' => ?_⟩
  obtain ⟨q, hq, rfl⟩ := List.mem_map.1 hr
  obtain ⟨q', hq', rfl⟩ := List.mem_map.1 hr'
  obtain ⟨hop, -⟩ := and_mask_eq_iff.1 hw
  obtain ⟨hop', -⟩ := and_mask_eq_iff.1 hw'
  rw [eq_of_mem_opcodeMap_of_op_eq hq hq' (hop.symm.trans hop')]

end Sys2Proof.Machine
end

section
/-! PROOFS. What `exec` and a step can do, said once (60_exceptions.md R262, R263): the checks of a command, the state it completes with and its
response; a run keeps what every step keeps. -/

namespace Sys2Proof.Machine

/-! The checks of a command, its completed state and its response, side by side for all commands. -/

/-- An operand is outside its range (60_exceptions.md R261, code 4). -/
def outOfRange (s : State) : Instr → Bool
  | .hufWrf sym _ => notSymbol sym
  | .hufRdf sym => notSymbol sym
  | .hufRdc sym => notSymbol sym
  | .hufRds idx => decide (s.huf.total.toNat ≤ idx.toNat)
  | .hufRdl level => notLevel level
  | .winInit exp => notExponent exp
  | .winReg byte => notByte byte
  | .winLaput byte => notByte byte
  | .winRdb dist => decide (dist.toNat < 1) || decide (min s.win.n.toNat (winCap s.win) < dist.toNat)
  | .fltCfg bpp width => notPixelSize bpp || decide (Config.fltRowMax < fltRowlenOf width.toNat bpp.toNat)
  | .fltWrl byte idx => decide (s.flt.rl < idx.toNat) || notByte byte
  | .fltRdl idx => decide (s.flt.rl < idx.toNat)
  | .fltWrp byte idx => decide (idx.toNat < 1) || decide (s.flt.rl < idx.toNat) || notByte byte
  | .fltRdp idx => decide (idx.toNat < 1) || decide (s.flt.rl < idx.toNat)
  | .fltRdo idx => decide (s.flt.rl < idx.toNat)
  | .fltFilt type => notFilterType type
  | .fltPaeth packed => notPacked packed
  | .a7Desc pass => notPass pass
  | .a7Size pass => notPass pass
  | _ => false

/-- There is no room left (60_exceptions.md R261, code 5). -/
def isFull (s : State) : Instr → Bool
  | .winReg _ => decide (s.win.n.toNat = Config.winPosMax)
  | .winLaput _ => decide (s.win.lalen.toNat = Config.winLaCap)
  | _ => false

/-- The checks of a command in the order of R262: the gate, the range, the room. -/
def commandChecks (s : State) (i : Instr) : List (Bool × ErrorCode) :=
  [(!gateOpen s.status i, .eState), (outOfRange s i, .eRange), (isFull s i, .eFull)]

/-- The state a command completes with, before its response. -/
def completed (s : State) : Instr → State
  | .reset => s.toReset
  | .hufClr => (s.withHuf { s.huf with freq := [] }).withStatus s.status.hufCleared
  | .hufWrf sym freq => (s.withHuf { s.huf with freq := s.huf.freq.write sym.toNat freq }).withStatus s.status.hufCleared
  | .hufBuild =>
    (s.withHuf (s.huf.withTable (hufBuild s.huf.freq))).withStatus
      (s.status.hufBuilt (hufBuild s.huf.freq).limited (hufBuild s.huf.freq).degen)
  | .winInit exp => (s.withWin (winEmpty s.win (exp.setWidth 4))).withStatus s.status.winOpened
  | .winReg byte => s.withWin (winRegister s.win (byteOf byte))
  | .winLaclr => s.withWin { s.win with lalen := 0#9 }
  | .winLaput byte => s.withWin (winLookPut s.win (byteOf byte))
  | .winMatch => s.withStatus (s.status.winMatched (winMatch s.win).isSome)
  | .fltCfg bpp width => (s.withFlt (fltConfig bpp width)).withStatus s.status.fltConfigured
  | .fltWrl byte idx => s.withFlt { s.flt with line := s.flt.line.write idx.toNat (byteOf byte) }
  | .fltWrp byte idx => s.withFlt { s.flt with prev := s.flt.prev.write idx.toNat (byteOf byte) }
  | .fltDefilt => s.withFlt { s.flt with line := fltDefilter s.flt.dl s.flt.rl s.flt.line s.flt.prev }
  | .fltFilt type => s.withFlt { s.flt with out := fltFilt type.toNat s.flt.dl s.flt.rl s.flt.line s.flt.prev }
  | .fltAuto => s.withFlt { s.flt with out := (fltSelect s.flt.dl s.flt.rl s.flt.line s.flt.prev).row }
  | .fltNext => s.withFlt { s.flt with prev := fltCopyFrom s.flt.line s.flt.rl 1 s.flt.prev }
  | .fltZprev => s.withFlt { s.flt with prev := fltZeroFrom s.flt.rl 1 s.flt.prev }
  | .a7Setw width => s.withA7 { s.a7 with w := width }
  | .a7Seth height => s.withA7 { s.a7 with h := height }
  | _ => s

/-- The data of the response of a command that completes. -/
def responseData (s : State) : Instr → Word
  | .rdstat => s.status.word
  | .hufRdf sym => respField (s.huf.freq.read sym.toNat) 0
  | .hufBuild => respField (hufBuild s.huf.freq).total 0 ||| respField (hufBuild s.huf.freq).depth 16
  | .hufRdc sym => respField (s.huf.cw.read sym.toNat).code 0 ||| respField (s.huf.cw.read sym.toNat).len 16
  | .hufRds idx => respField (s.huf.syms.read idx.toNat) 0
  | .hufRdl level => respField (s.huf.lcnt.read level.toNat) 0 ||| respField (s.huf.lbase.read level.toNat) 16
  | .winMatch => winMatchData (winMatch s.win)
  | .winRdb dist => respField (winByte s.win (s.win.n.toNat - dist.toNat)) 0
  | .winRdn => s.win.n
  | .fltCfg bpp width => respField (fltConfig bpp width).rowlen 0 ||| respField (fltConfig bpp width).delay 32
  | .fltRdl idx => respField (s.flt.line.read idx.toNat) 0
  | .fltRdp idx => respField (s.flt.prev.read idx.toNat) 0
  | .fltRdo idx => respField (s.flt.out.read idx.toNat) 0
  | .fltDefilt => respField ((fltDefilter s.flt.dl s.flt.rl s.flt.line s.flt.prev).read 0) 0
  | .fltFilt type =>
    respField (BitVec.ofNat 16 (fltScore s.flt.rl (fltFilt type.toNat s.flt.dl s.flt.rl s.flt.line s.flt.prev))) 0
  | .fltAuto =>
    respField (BitVec.ofNat 3 (fltSelect s.flt.dl s.flt.rl s.flt.line s.flt.prev).type) 0 |||
      respField (BitVec.ofNat 16 (fltSelect s.flt.dl s.flt.rl s.flt.line s.flt.prev).score) 32
  | .fltPaeth packed => respField (paeth (packedLeft packed) (packedAbove packed) (packedAboveLeft packed)) 0
  | .a7Desc pass => (a7Pattern pass.toNat).response
  | .a7Size pass =>
    respField (BitVec.ofNat 32 (a7SubWidth s.a7.w.toNat pass.toNat)) 0 |||
      respField (BitVec.ofNat 32 (a7SubHeight s.a7.h.toNat pass.toNat)) 32
  | _ => 0#64

/-! `exec` by these three. -/

theorem exec_of_isSystem {i : Instr} (hi : isSystem i = true) (s : State) :
    exec i s = .next (answered (completed s i) (responseData s i)) := by
  obtain rfl | rfl | rfl := isSystem_iff.1 hi <;> rfl

/-- Two range checks one after the other are one. -/
theorem runCommand_two_range_checks (op : BitVec 8) (b c : Bool) (s t : State) (d : Word) :
    runCommand op [(b, .eRange), (c, .eRange)] s t d = runCommand op [(b || c, .eRange)] s t d := by
  cases b <;> rfl

/-- Every command that is no system command runs its three checks; a check that always passes is left out by the model. -/
theorem exec_of_not_isSystem {i : Instr} (hi : isSystem i = false) (s : State) :
    exec i s = runCommand (opField (encode i)) (commandChecks s i) s (completed s i) (responseData s i) := by
  cases i
  case nop | reset | rdstat => cases hi
  case fltCfg bpp width =>
    rw [encode, opField_enc]
    exact runCommand_two_range_checks _ _ _ _ _ _
  all_goals
    rw [encode, opField_enc]
    rfl

/-- All checks of the command pass. -/
structure ChecksPass (s : State) (i : Instr) : Prop where
  gate : gateOpen s.status i = true
  range : outOfRange s i = false
  room : isFull s i = false

theorem firstError_commandChecks_eq_none {s : State} {i : Instr} (h : firstError (commandChecks s i) = none) : ChecksPass s i where
  gate := by simpa using firstError_eq_none.1 h (!gateOpen s.status i, .eState) (by simp [commandChecks])
  range := firstError_eq_none.1 h (outOfRange s i, .eRange) (by simp [commandChecks])
  room := firstError_eq_none.1 h (isFull s i, .eFull) (by simp [commandChecks])

/-- The three errors a command can raise (60_exceptions.md R265). -/
theorem firstError_commandChecks {s : State} {i : Instr} {e : ErrorCode} (h : firstError (commandChecks s i) = some e) :
    e = .eState ∨ e = .eRange ∨ e = .eFull := by
  have hmem := firstError_mem h
  simp only [commandChecks, List.mem_cons, Prod.mk.injEq, List.not_mem_nil, or_false] at hmem
  tauto

/-- What `exec` can make of the state `s`: a locked block refuses, a failed check raises, else the command completes. -/
inductive Executes (i : Instr) (s : State) : State → Prop
  | refused : s.locked → isSystem i = false → Executes i s (turnedAway s)
  | raised (e : ErrorCode) : s.unlocked → isSystem i = false → firstError (commandChecks s i) = some e →
      Executes i s (errorEntry s (opField (encode i)) (errorNumber e))
  | done : (isSystem i = true ∨ s.unlocked) → ChecksPass s i → Executes i s (answered (completed s i) (responseData s i))

/-- `exec` always answers a next state, and it is one of these. -/
theorem exec_executes (i : Instr) (s : State) : ∃ t, exec i s = .next t ∧ Executes i s t := by
  cases hi : isSystem i with
  | true => exact ⟨_, exec_of_isSystem hi s, .done (.inl hi) (by obtain rfl | rfl | rfl := isSystem_iff.1 hi <;> exact ⟨rfl, rfl, rfl⟩)⟩
  | false =>
    rw [exec_of_not_isSystem hi]
    cases hs : s.status.err with
    | true => exact ⟨_, runCommand_locked _ _ _ _ _ hs, .refused hs hi⟩
    | false =>
      cases hc : firstError (commandChecks s i) with
      | none => exact ⟨_, runCommand_eq_answered hs hc, .done (.inr hs) (firstError_commandChecks_eq_none hc)⟩
      | some e => exact ⟨_, runCommand_eq_errorEntry hs hc, .raised e hs hi hc⟩

theorem executes_of_exec {i : Instr} {s t : State} (h : exec i s = .next t) : Executes i s t := by
  obtain ⟨u, hu, hex⟩ := exec_executes i s
  cases hu.symm.trans h
  exact hex

/-! A completed command keeps the latch and the ports. -/

theorem completed_of_isSystem {i : Instr} (hi : isSystem i = true) (hr : i ≠ .reset) (s : State) : completed s i = s := by
  obtain rfl | rfl | rfl := isSystem_iff.1 hi
  · rfl
  · exact absurd rfl hr
  · rfl

theorem completed_latch {i : Instr} (hr : i ≠ .reset) (s : State) :
    (completed s i).status.err = s.status.err ∧ (completed s i).status.errCode = s.status.errCode ∧
      (completed s i).status.errOp = s.status.errOp := by
  cases i
  case reset => exact absurd rfl hr
  all_goals exact ⟨rfl, rfl, rfl⟩

theorem completed_unlocked {s : State} (hs : s.unlocked) (i : Instr) : (completed s i).unlocked := by
  by_cases hr : i = .reset
  · exact hr ▸ rfl
  · exact (completed_latch hr s).1.trans hs

theorem completed_ports (i : Instr) (s : State) : (completed s i).inbox = s.inbox ∧ (completed s i).outbox = s.outbox := by
  cases i <;> exact ⟨rfl, rfl⟩

/-! A step always answers a next state. -/

theorem step_next (s : State) : ∃ t, step s = .next t := by
  obtain ⟨-, hstep⟩ | ⟨rest, -, hstep⟩ | ⟨w, rest, i, -, -, hstep⟩ | ⟨w, rest, why, -, -, hstep⟩ := step_cases s
  · exact ⟨_, hstep⟩
  · exact ⟨_, hstep⟩
  · obtain ⟨t, ht, -⟩ := exec_executes i { s with inbox := rest }
    exact ⟨t, hstep.trans ht⟩
  · exact ⟨_, hstep.trans (rejectWord_eq _ _ _)⟩

theorem run_succ_of_step {s t : State} (h : step s = .next t) (k : Nat) :
    Host.Core.run core (k + 1) s = Host.Core.run core k t := by
  have hcore : core.step s = .next t := h
  simp only [Host.Core.run, hcore]

/-! What every step keeps. -/

section
variable {P : State → Prop}

/-- A property of the state apart from the ports that reset has, that the latch of an error keeps and that every completed command keeps, is
kept by every step. -/
theorem step_keeps (hports : ∀ s inbox outbox, P s → P { s with inbox := inbox, outbox := outbox }) (hreset : P State.reset)
    (hlatch : ∀ s op e, P s → P (s.withStatus (s.status.latch op e)))
    (hcompleted : ∀ s i, i ≠ .reset → ChecksPass s i → P s → P (completed s i)) {s t : State} (hs : P s) (h : step s = .next t) :
    P t := by
  obtain ⟨-, hstep⟩ | ⟨rest, -, hstep⟩ | ⟨w, rest, i, -, -, hstep⟩ | ⟨w, rest, why, -, -, hstep⟩ := step_cases s
  · cases hstep.symm.trans h
    exact hs
  · cases hstep.symm.trans h
    exact hports _ _ _ hreset
  · have hs' := hports s rest s.outbox hs
    cases executes_of_exec (hstep.symm.trans h) with
    | refused => exact hports _ _ _ hs'
    | raised e => exact hports _ _ _ (hlatch _ (opField (encode i)) e hs')
    | done _ hpass =>
      by_cases hr : i = .reset
      · subst hr
        exact hports State.reset _ _ hreset
      · exact hports _ _ _ (hcompleted _ i hr hpass hs')
  · have hs' := hports s rest s.outbox hs
    rw [hstep, rejectWord_eq] at h
    cases h
    split_ifs
    · exact hports _ _ _ hs'
    · exact hports _ _ _ (hlatch _ (opField w) (decodeErrorCode why) hs')

/-- What every step keeps, a run keeps. -/
theorem run_keeps (hstep : ∀ s t, P s → step s = .next t → P t) {k : Nat} {s t : State} (hs : P s)
    (h : Host.Core.run core k s = .next t) : P t := by
  induction k generalizing s with
  | zero =>
    cases h
    exact hs
  | succ k ih =>
    obtain ⟨s', hs'⟩ := step_next s
    exact ih (hstep s s' hs hs') ((run_succ_of_step hs' k).symm.trans h)

end

end Sys2Proof.Machine
end

section
/-! PROOFS. One response per word, precise errors, the gate before the range, the lock and reset (30_encoding.md R82; 60_exceptions.md R261 to
R267; 70_reset_and_hazards.md R290 to R292, R297). -/

namespace Sys2Proof.Machine

/-! One response per word. -/

/-- Settles O1: with a word waiting the step decodes it, with none it is idle. -/
theorem stepRunsDecodedCommand : Obligations.StepRunsDecodedCommand :=
  ⟨fun _ _ _ => step_sending_of_decode, fun s hs => by simp [step, fetch, hs, idle]⟩

theorem exec_answers_once (i : Instr) (s : State) :
    ∃ (t : State) (r : Response), exec i s = .next t ∧ t.outbox = s.outbox ++ [r] ∧ t.inbox = s.inbox := by
  obtain ⟨t, ht, hex⟩ := exec_executes i s
  refine ⟨t, ?_⟩
  cases hex with
  | refused => exact ⟨_, ht, rfl, rfl⟩
  | raised => exact ⟨_, ht, rfl, rfl⟩
  | done =>
    obtain ⟨hin, hout⟩ := completed_ports i s
    exact ⟨_, ht, congrArg (· ++ _) hout, hin⟩

theorem rejectWord_answers_once (w : Word) (why : DecodeError) (s : State) :
    ∃ (t : State) (r : Response), rejectWord w why s = .next t ∧ t.outbox = s.outbox ++ [r] ∧ t.inbox = s.inbox := by
  rw [rejectWord_eq]
  split_ifs
  · exact ⟨_, _, rfl, rfl, rfl⟩
  · exact ⟨_, _, rfl, rfl, rfl⟩

/-- Settles O2: a word is executed or rejected, and either answers once. -/
theorem everyWordGetsOneResponse : Obligations.EveryWordGetsOneResponse := by
  refine ⟨fun s w => ?_, exec_answers_once, step_next⟩
  cases hdec : decode w with
  | ok i => exact step_sending_of_decode hdec ▸ exec_answers_once i s
  | error why => exact step_sending_eq_rejectWord hdec ▸ rejectWord_answers_once w why s

/-! The gate, then the range. -/

theorem gateOpen_of_isSystem {i : Instr} (hi : isSystem i = true) (st : Status) : gateOpen st i = true := by
  obtain rfl | rfl | rfl := isSystem_iff.1 hi <;> rfl

/-- Settles O9: the gate is the first check of every command. -/
theorem closedGateRaisesStateError : Obligations.ClosedGateRaisesStateError := by
  intro s i hs hgate
  have hi : isSystem i = false := Bool.eq_false_iff.2 fun hi => by simp [gateOpen_of_isSystem hi] at hgate
  rw [exec_of_not_isSystem hi]
  exact runCommand_eq_errorEntry (e := .eState) hs (by simp [commandChecks, hgate])

/-- A table holds at most 288 entries, so its total is a number and fits its register. -/
theorem toNat_total_hufBuild_le (freq : Memory (BitVec 32)) : (hufBuild freq).total.toNat ≤ 288 := by
  have ⟨hle, _⟩ := hufLevels_bound freq
  exact (BitVec.toNat_ofNat _ _).trans_le ((Nat.mod_le _ _).trans hle)

/-- In a state that meets the invariant and with the gate open, the range a command checks lies in the range of R83 and its own rule. -/
theorem outOfRange_of_not_wellFormed {s : State} {i : Instr} (hinv : s.Inv) (hgate : gateOpen s.status i = true)
    (hi : i.WellFormed = false) : outOfRange s i = true := by
  have htotal (hv : s.status.hufValid = true) : s.huf.total.toNat ≤ 288 := by
    obtain ⟨htable, -⟩ := hinv.huf hv
    rw [htable]
    exact toNat_total_hufBuild_le _
  have hcap := winCap_le s.win
  have hrow (hr : s.status.fltReady = true) : s.flt.rl ≤ 65536 := by
    obtain ⟨-, -, -, -, hrow⟩ := hinv.flt hr
    exact hrow
  cases i <;> simp only [Instr.WellFormed, reduceCtorEq] at hi <;>
    simp only [outOfRange, gateOpen, notSymbol, notLevel, notExponent, notByte, notFilterType, notPass, notPixelSize, notPacked,
      FieldA.isSymbol, FieldA.isLevel, FieldA.isExponent, FieldA.isByte, FieldA.isFilterType, FieldA.isPass, isRowFormat,
      Bool.and_eq_false_iff, Bool.or_eq_true, decide_eq_true_eq, decide_eq_false_iff_not, fltRowlenOf,
      Config.hufNsym, Config.hufMaxLen, Config.winExpMin, Config.winExpMax, Config.fltBppMax, Config.fltRowMax, Config.a7Passes] at hi hgate ⊢
  case hufRds => have := htotal hgate; omega
  case fltWrl | fltRdl | fltWrp | fltRdp | fltRdo => have := hrow hgate; omega
  all_goals omega

/-- Settles O10: the gate passes and the range check, which is next, fails. -/
theorem illFormedCommandRaisesRangeError : Obligations.IllFormedCommandRaisesRangeError := by
  intro s i hinv hs hgate hwf
  have hrange := outOfRange_of_not_wellFormed hinv hgate hwf
  have hi : isSystem i = false := Bool.eq_false_iff.2 fun hi => by
    obtain rfl | rfl | rfl := isSystem_iff.1 hi <;> cases hwf
  rw [exec_of_not_isSystem hi]
  exact runCommand_eq_errorEntry (e := .eRange) hs (by simp [commandChecks, hgate, hrange])

/-! Errors are precise. -/

/-- Settles O11: the unlocked block refuses nothing; a raised error is one of three, a completed command leaves the latch open. -/
theorem commandCompletesOrChangesOnlyLatch : Obligations.CommandCompletesOrChangesOnlyLatch := by
  intro s t i hs h
  cases executes_of_exec h with
  | refused hl => exact absurd hl (by simp [hs])
  | raised e _ _ he =>
    refine .inl ⟨errorNumber e, ?_, rfl⟩
    obtain rfl | rfl | rfl := firstError_commandChecks he
    · exact .inl rfl
    · exact .inr (.inl rfl)
    · exact .inr (.inr rfl)
  | done =>
    obtain ⟨-, hout⟩ := completed_ports i s
    exact .inr ⟨completed_unlocked hs i, _, congrArg (· ++ _) hout⟩

/-! Only reset unlocks. -/

/-- The items with a reset value have it (10_state.md R31). -/
theorem toReset_values (s : State) :
    s.toReset.status.word = 0#64 ∧ (∀ i, s.toReset.huf.freq.read i = 0#32) ∧ s.toReset.a7.w = 0#32 ∧ s.toReset.a7.h = 0#32 :=
  ⟨show Status.reset.word = 0#64 by decide, fun _ => rfl, rfl, rfl⟩

/-- Settles O12: a locked block executes system commands only, of which `RESET` alone changes `STATUS`, and its word is the word of `RESET`. -/
theorem onlyResetUnlocks : Obligations.OnlyResetUnlocks := by
  intro s t hs h
  obtain ⟨-, hstep⟩ | ⟨rest, hin, hstep⟩ | ⟨w, rest, i, hin, hdec, hstep⟩ | ⟨w, rest, why, -, -, hstep⟩ := step_cases s
  · cases hstep.symm.trans h
    exact .inl rfl
  · cases hstep.symm.trans h
    exact .inr ⟨⟨rest, .inl hin⟩, toReset_values _⟩
  · cases executes_of_exec (hstep.symm.trans h) with
    | refused => exact .inl rfl
    | raised e hu => exact absurd hs (by simpa using hu)
    | done hrun =>
      have hi : isSystem i = true := hrun.resolve_right fun hu => absurd hs (by simpa using hu)
      by_cases hr : i = .reset
      · subst hr
        refine .inr ⟨⟨rest, .inr ?_⟩, toReset_values { s with inbox := rest }⟩
        rw [hin, ← encode_eq_of_decode hdec]
        rfl
      · rw [completed_of_isSystem hi hr]
        exact .inl rfl
  · rw [hstep, rejectWord_eq, if_pos hs] at h
    cases h
    exact .inl rfl

/-! A run without a failed response. -/

/-- The block is unlocked or has given a failed response. -/
def UnlockedOrFailed (s : State) : Prop := s.unlocked ∨ ∃ r ∈ s.outbox, r.ok = false

theorem unlockedOrFailed_of_failed {s : State} {l : List Response} (h : s.outbox = l ++ [⟨false, 0#64⟩]) : UnlockedOrFailed s :=
  .inr ⟨⟨false, 0#64⟩, by simp [h], rfl⟩

/-- A step that locks the block gives a failed response, and no step takes a response back. -/
theorem step_keeps_unlockedOrFailed {s t : State} (hs : UnlockedOrFailed s) (h : step s = .next t) : UnlockedOrFailed t := by
  obtain ⟨-, hstep⟩ | ⟨rest, -, hstep⟩ | ⟨w, rest, i, -, -, hstep⟩ | ⟨w, rest, why, -, -, hstep⟩ := step_cases s
  · cases hstep.symm.trans h
    exact hs
  · cases hstep.symm.trans h
    exact .inl rfl
  · cases executes_of_exec (hstep.symm.trans h) with
    | refused => exact unlockedOrFailed_of_failed rfl
    | raised => exact unlockedOrFailed_of_failed rfl
    | done =>
      refine hs.imp (fun hu => completed_unlocked (s := { s with inbox := rest }) hu i) fun ⟨r, hr, hfail⟩ => ⟨r, ?_, hfail⟩
      obtain ⟨-, hout⟩ := completed_ports i { s with inbox := rest }
      exact List.mem_append_left _ (by rwa [hout])
  · rw [hstep, rejectWord_eq] at h
    cases h
    split_ifs
    · exact unlockedOrFailed_of_failed rfl
    · exact unlockedOrFailed_of_failed rfl

/-- Settles O14: every step keeps that the block is unlocked or has given a failed response. -/
theorem safeRunLeavesBlockUnlocked : Obligations.SafeRunLeavesBlockUnlocked := by
  intro k s t hs h hsafe
  have ht : UnlockedOrFailed t := run_keeps (fun _ _ => step_keeps_unlockedOrFailed) (.inl hs) h
  exact ht.resolve_right fun ⟨r, hr, hfail⟩ => by simp [hsafe r hr] at hfail

/-! The responses already given are never read. -/

/-- The state with the responses `l` given before its own. -/
def State.after (l : List Response) (s : State) : State := { s with outbox := l ++ s.outbox }

theorem answer_after (l : List Response) (s : State) (ok : Bool) (data : Word) :
    (s.after l).answer ok data = (s.answer ok data).after l := by
  simp [State.after, State.answer, List.append_assoc]

theorem runCommand_after {op : BitVec 8} {cs : List (Bool × ErrorCode)} {s t u : State} {d : Word} (l : List Response)
    (h : runCommand op cs s t d = .next u) : runCommand op cs (s.after l) (t.after l) d = .next (u.after l) := by
  have herr : (s.after l).status.err = s.status.err := rfl
  obtain ⟨hs, rfl⟩ | ⟨hs, e, he, rfl⟩ | ⟨hs, hc, rfl⟩ := runCommand_cases h
  · rw [runCommand_locked _ _ _ _ _ (herr.trans hs)]
    exact congrArg _ (answer_after l s false 0#64)
  · rw [runCommand_error _ _ _ _ _ (herr.trans hs) he]
    exact congrArg _ (answer_after l (s.withStatus (s.status.latch op e)) false 0#64)
  · rw [runCommand_ok _ _ _ _ _ (herr.trans hs) hc, answer_after]

theorem completed_after (l : List Response) (s : State) (i : Instr) : completed (s.after l) i = (completed s i).after l := by
  cases i <;> rfl

theorem responseData_after (l : List Response) (s : State) (i : Instr) : responseData (s.after l) i = responseData s i := by
  cases i <;> rfl

theorem exec_after {i : Instr} {s t : State} (l : List Response) (h : exec i s = .next t) :
    exec i (s.after l) = .next (t.after l) := by
  have hchecks : commandChecks (s.after l) i = commandChecks s i := by cases i <;> rfl
  cases hi : isSystem i with
  | true =>
    rw [exec_of_isSystem hi] at h ⊢
    cases h
    rw [completed_after, responseData_after]
    exact congrArg _ (answer_after l _ true _)
  | false =>
    rw [exec_of_not_isSystem hi] at h ⊢
    rw [hchecks, completed_after, responseData_after]
    exact runCommand_after l h

theorem step_after {s t : State} (l : List Response) (h : step s = .next t) : step (s.after l) = .next (t.after l) := by
  obtain ⟨hin, hstep⟩ | ⟨rest, hin, hstep⟩ | ⟨w, rest, i, hin, hdec, hstep⟩ | ⟨w, rest, why, hin, hdec, hstep⟩ := step_cases s
  · cases hstep.symm.trans h
    simp [step, fetch, State.after, hin, idle]
  · cases hstep.symm.trans h
    simp [step, fetch, State.after, hin, hardReset, State.toReset]
  · have hafter : step (s.after l) = exec i (State.after l { s with inbox := rest }) := by
      simp [step, fetch, State.after, hin, hdec]
    exact hafter.trans (exec_after l (hstep.symm.trans h))
  · have hafter : step (s.after l) = rejectWord w why (State.after l { s with inbox := rest }) := by
      simp [step, fetch, State.after, hin, hdec]
    rw [hstep, rejectWord_eq] at h
    cases h
    rw [hafter, rejectWord_eq]
    change Host.Outcome.next (if s.status.err = true then _ else _) = .next (State.after l (if s.status.err = true then _ else _))
    split_ifs
    · exact congrArg _ (answer_after l _ false 0#64)
    · exact congrArg _ (answer_after l (State.withStatus { s with inbox := rest } _) false 0#64)

theorem run_after {k : Nat} {s t : State} (l : List Response) (h : Host.Core.run core k s = .next t) :
    Host.Core.run core k (s.after l) = .next (t.after l) := by
  induction k generalizing s with
  | zero =>
    cases h
    rfl
  | succ k ih =>
    obtain ⟨s', hs'⟩ := step_next s
    rw [run_succ_of_step hs'] at h
    rw [run_succ_of_step (step_after l hs')]
    exact ih h

theorem run_next (k : Nat) (s : State) : ∃ t, Host.Core.run core k s = .next t := by
  induction k generalizing s with
  | zero => exact ⟨s, rfl⟩
  | succ k ih =>
    obtain ⟨s', hs'⟩ := step_next s
    rw [run_succ_of_step hs']
    exact ih s'

/-! Reset. -/

/-- The block right after reset, with its inputs still to come and its responses since then. -/
def resetWith (inbox : List HostInput) (outbox : List Response) : State := { State.reset with inbox := inbox, outbox := outbox }

/-- After the reset input the block is the reset block, with the responses of before in front: one more for `RESET`, none for hard reset. -/
theorem step_of_reset_input {first : HostInput} (hfirst : first = .hardReset ∨ first = .command 0x0100000000000000#64) :
    ∃ out : List Response, ∀ (s : State) (rest : List HostInput), s.inbox = first :: rest →
      step s = .next ((resetWith rest out).after s.outbox) := by
  obtain rfl | rfl := hfirst
  · refine ⟨[], fun s rest hin => ?_⟩
    simp [step, fetch, hin, hardReset, State.toReset, resetWith, State.after]
  · refine ⟨[⟨true, 0#64⟩], fun s rest hin => ?_⟩
    have hdec : decode 0x0100000000000000#64 = .ok .reset := by decide
    simp only [step, fetch, hin, hdec]
    rfl

/-- Settles O15: both blocks run on from the same reset block, and the responses of before stay in front without being read. -/
theorem nothingBeforeResetIsSeenAfter : Obligations.NothingBeforeResetIsSeenAfter := by
  intro k s s' t t' rest first hfirst hs hs' h h'
  obtain ⟨out, hstep⟩ := step_of_reset_input hfirst
  obtain ⟨u, hu⟩ := run_next k (resetWith rest out)
  rw [run_succ_of_step (hstep s rest hs), run_after _ hu] at h
  rw [run_succ_of_step (hstep s' rest hs'), run_after _ hu] at h'
  cases h
  cases h'
  simp [State.after]

/-- Settles O18: the exact word runs `RESET`, which leaves what the hard reset input leaves and one response more. -/
theorem resetCommandEqualsHardReset : Obligations.ResetCommandEqualsHardReset := by
  refine ⟨systemWords_of_row (op := Opcode.reset) rfl rfl rfl, by decide, fun s => ⟨s.toReset, rfl, rfl, ?_⟩⟩
  obtain ⟨hword, hfreq, hw, hh⟩ := toReset_values s
  exact ⟨hword, hfreq, hw, hh, rfl, rfl⟩

/-- At reset every gate is closed, so a gated command raises `E_STATE`. -/
theorem exec_reset_of_gated {i : Instr} {op : BitVec 8} (hgate : gateOpen Status.reset i = false) (hop : opField (encode i) = op) :
    exec i State.reset = .next (errorEntry State.reset op 3#8) :=
  hop ▸ closedGateRaisesStateError State.reset i rfl hgate

/-- Settles O19: the values by evaluation, the commands by their closed gates. -/
theorem resetStateIsAsSpecified : Obligations.ResetStateIsAsSpecified := by
  refine ⟨by decide, fun _ => rfl, rfl, rfl, rfl, fun a b => ?_⟩
  refine ⟨?_, ?_, ?_, ?_, ?_, ?_, ?_, ?_, ?_, ?_, ?_, ?_, ?_, ?_, ?_, ?_, ?_, ?_, ?_⟩
  all_goals exact exec_reset_of_gated rfl (opField_enc _ _ _)

/-- Settles O57: at reset every gating flag is 0, every memory empty and the latch open. -/
theorem invariantHoldsAtReset : Obligations.InvariantHoldsAtReset where
  latch := ⟨by decide, by decide⟩
  gates := ⟨by decide, by decide, by decide⟩
  huf := fun h => absurd h (by decide)
  flt := fun h => absurd h (by decide)
  memories := by decide
  win := fun h => absurd h (by decide)

end Sys2Proof.Machine
end

section
/-! PROOFS. What a command keeps: the units that are not its own and the flags it does not write (10_state.md R23, R27, R28), and with every step the
latch, the gating flags, the table and the geometry (R32). -/

namespace Sys2Proof.Machine

/-! Frames of a completed command. -/

section
variable {i : Instr} (hr : i ≠ .reset) (s : State)
include hr

theorem completed_huf_of_unit_ne (h : (opField (encode i)).toNat / 16 ≠ 1) : (completed s i).huf = s.huf := by
  cases i
  case reset => exact absurd rfl hr
  case hufClr | hufWrf | hufBuild => exact absurd (by rw [encode, opField_enc]; rfl) h
  all_goals rfl

theorem completed_win_of_unit_ne (h : (opField (encode i)).toNat / 16 ≠ 2) : (completed s i).win = s.win := by
  cases i
  case reset => exact absurd rfl hr
  case winInit | winReg | winLaclr | winLaput => exact absurd (by rw [encode, opField_enc]; rfl) h
  all_goals rfl

theorem completed_flt_of_unit_ne (h : (opField (encode i)).toNat / 16 ≠ 3) : (completed s i).flt = s.flt := by
  cases i
  case reset => exact absurd rfl hr
  case fltCfg | fltWrl | fltWrp | fltDefilt | fltFilt | fltAuto | fltNext | fltZprev =>
    exact absurd (by rw [encode, opField_enc]; rfl) h
  all_goals rfl

theorem completed_a7_of_unit_ne (h : (opField (encode i)).toNat / 16 ≠ 4) : (completed s i).a7 = s.a7 := by
  cases i
  case reset => exact absurd rfl hr
  case a7Setw | a7Seth => exact absurd (by rw [encode, opField_enc]; rfl) h
  all_goals rfl

theorem completed_hufFlags (hclr : i ≠ .hufClr) (hwrf : ∀ sym freq, i ≠ .hufWrf sym freq) (hbuild : i ≠ .hufBuild) :
    (completed s i).status.hufValid = s.status.hufValid ∧ (completed s i).status.hufLimited = s.status.hufLimited ∧
      (completed s i).status.hufDegen = s.status.hufDegen := by
  cases i
  case reset => exact absurd rfl hr
  case hufClr => exact absurd rfl hclr
  case hufWrf sym freq => exact absurd rfl (hwrf sym freq)
  case hufBuild => exact absurd rfl hbuild
  all_goals exact ⟨rfl, rfl, rfl⟩

theorem completed_winFlags (hinit : ∀ exp, i ≠ .winInit exp) :
    (completed s i).status.winReady = s.status.winReady ∧
      (i ≠ .winMatch → (completed s i).status.winFound = s.status.winFound) := by
  cases i
  case reset => exact absurd rfl hr
  case winInit exp => exact absurd rfl (hinit exp)
  case winMatch => exact ⟨rfl, fun hmatch => absurd rfl hmatch⟩
  all_goals exact ⟨rfl, fun _ => rfl⟩

theorem completed_fltReady (hcfg : ∀ bpp width, i ≠ .fltCfg bpp width) :
    (completed s i).status.fltReady = s.status.fltReady := by
  cases i
  case reset => exact absurd rfl hr
  case fltCfg bpp width => exact absurd rfl (hcfg bpp width)
  all_goals rfl

end

/-- A command that writes a flag belongs to the unit of the flag. -/
theorem ne_of_unit_ne {i j : Instr} {n : Nat} (h : (opField (encode i)).toNat / 16 ≠ n) (hj : (opField (encode j)).toNat / 16 = n) :
    i ≠ j :=
  fun hij => h (hij ▸ hj)

/-- Settles O13: a refused command and an error change no unit and no flag but the latch; for a completed command the frames above, of which
those on flags also cover the flags of the other units. -/
theorem unitsShareOnlyTheLatch : Obligations.UnitsShareOnlyTheLatch := by
  intro s t i hr h
  cases executes_of_exec h
  case refused | raised =>
    exact ⟨fun _ => ⟨rfl, rfl, rfl, rfl⟩, fun _ => ⟨rfl, rfl, rfl⟩, fun _ => ⟨rfl, rfl⟩, fun _ => rfl,
      fun _ _ _ => ⟨rfl, rfl, rfl⟩, fun _ => ⟨rfl, fun _ => rfl⟩, fun _ => rfl⟩
  case done =>
    refine ⟨fun hu => ⟨completed_huf_of_unit_ne hr s hu, completed_hufFlags hr s ?_ ?_ ?_⟩, fun hu => ?_, fun hu => ?_,
      completed_a7_of_unit_ne hr s, completed_hufFlags hr s, completed_winFlags hr s, completed_fltReady hr s⟩
    · exact ne_of_unit_ne hu (by rw [encode, opField_enc]; rfl)
    · exact fun _ _ => ne_of_unit_ne hu (by rw [encode, opField_enc]; rfl)
    · exact ne_of_unit_ne hu (by rw [encode, opField_enc]; rfl)
    · obtain ⟨hready, hfound⟩ := completed_winFlags hr s fun _ => ne_of_unit_ne hu (by rw [encode, opField_enc]; rfl)
      exact ⟨completed_win_of_unit_ne hr s hu, hready, hfound (ne_of_unit_ne hu (by rw [encode, opField_enc]; rfl))⟩
    · exact ⟨completed_flt_of_unit_ne hr s hu,
        completed_fltReady hr s fun _ _ => ne_of_unit_ne hu (by rw [encode, opField_enc]; rfl)⟩

/-! The latch, the gating flags, the table and the geometry, kept one by one. -/

theorem errorNumber_ne_zero (e : ErrorCode) : errorNumber e ≠ 0#8 := by cases e <;> decide

theorem latchOk_latch (st : Status) (op : BitVec 8) (e : ErrorCode) : LatchOk (st.latch op e) where
  code := by simp [errorNumber_ne_zero]
  op := by simp

theorem step_keeps_latchOk {s t : State} (hs : LatchOk s.status) (h : step s = .next t) : LatchOk t.status := by
  refine step_keeps (P := fun s => LatchOk s.status) (fun _ _ _ hs => hs) ⟨by decide, by decide⟩
    (fun s op e _ => latchOk_latch s.status op e) (fun s i hr _ hs => ?_) hs h
  obtain ⟨herr, hcode, hop⟩ := completed_latch hr s
  exact ⟨by rw [herr, hcode]; exact hs.code, by rw [herr, hop]; exact hs.op⟩

theorem gatesOk_completed {s : State} {i : Instr} (hr : i ≠ .reset) (hgate : gateOpen s.status i = true)
    (hs : GatesOk s.status) : GatesOk (completed s i).status := by
  cases i
  case reset => exact absurd rfl hr
  case hufClr | hufWrf => exact ⟨fun h => h, fun h => h, hs.found⟩
  case hufBuild => exact ⟨fun _ => rfl, fun _ => rfl, hs.found⟩
  case winInit => exact ⟨hs.limited, hs.degen, fun _ => rfl⟩
  case winMatch => exact ⟨hs.limited, hs.degen, fun _ => hgate⟩
  all_goals exact ⟨hs.limited, hs.degen, hs.found⟩

theorem step_keeps_gatesOk {s t : State} (hs : GatesOk s.status) (h : step s = .next t) : GatesOk t.status :=
  step_keeps (P := fun s => GatesOk s.status) (fun _ _ _ hs => hs) ⟨by decide, by decide, by decide⟩
    (fun _ _ _ hs => ⟨hs.limited, hs.degen, hs.found⟩) (fun _ _ hr hpass => gatesOk_completed hr hpass.gate) hs h

/-- `HUF.CLR` and `HUF.WRF` close the gate, `HUF.BUILD` stores the table of the present `FREQ`. -/
theorem hufOk_completed {s : State} {i : Instr} (hr : i ≠ .reset) (hs : HufOk s) : HufOk (completed s i) := by
  cases i
  case reset => exact absurd rfl hr
  case hufClr | hufWrf => exact fun h => absurd h Bool.false_ne_true
  case hufBuild => exact fun _ => ⟨rfl, rfl, rfl⟩
  all_goals exact hs

theorem step_keeps_hufOk {s t : State} (hs : HufOk s) (h : step s = .next t) : HufOk t :=
  step_keeps (P := HufOk) (fun _ _ _ hs => hs) (fun h => absurd h Bool.false_ne_true) (fun _ _ _ hs => hs)
    (fun _ _ hr _ => hufOk_completed hr) hs h

/-- The registers of an accepted configuration hold the numbers of R201, R206. -/
theorem fltConfig_values {bpp : FieldA} {width : FieldB} (h64 : bpp.toNat ≤ 64)
    (hrow : (width.toNat * bpp.toNat + 7) / 8 ≤ 65536) :
    (fltConfig bpp width).bpp.toNat = bpp.toNat ∧ (fltConfig bpp width).delay.toNat = (bpp.toNat + 7) / 8 ∧
      (fltConfig bpp width).rowlen.toNat = (width.toNat * bpp.toNat + 7) / 8 := by
  refine ⟨(BitVec.toNat_setWidth _ _).trans (Nat.mod_eq_of_lt ?_), (BitVec.toNat_ofNat _ _).trans (Nat.mod_eq_of_lt ?_),
    (BitVec.toNat_ofNat _ _).trans (Nat.mod_eq_of_lt ?_)⟩
  · omega
  · show (bpp.toNat + 7) / 8 < 2 ^ 4
    omega
  · exact hrow.trans_lt (by decide)

theorem fltOk_fltConfig {s : State} {bpp : FieldA} {width : FieldB} (h : outOfRange s (.fltCfg bpp width) = false) :
    FltOk (completed s (.fltCfg bpp width)) := by
  rw [outOfRange, Bool.or_eq_false_iff, notPixelSize_eq_false_iff, decide_eq_false_iff_not, not_lt] at h
  obtain ⟨⟨h1, h64⟩, hrow⟩ := h
  obtain ⟨hbpp, hdelay, hrowlen⟩ := fltConfig_values h64 hrow
  have hflt : (completed s (.fltCfg bpp width)).flt = fltConfig bpp width := rfl
  have hwidth : (fltConfig bpp width).width = width := rfl
  rintro -
  rw [hflt, hbpp, hdelay, hrowlen, hwidth]
  exact ⟨h1, h64, rfl, rfl, hrow⟩

theorem fltOk_completed {s : State} {i : Instr} (hr : i ≠ .reset) (hpass : ChecksPass s i) (hs : FltOk s) :
    FltOk (completed s i) := by
  cases i
  case reset => exact absurd rfl hr
  case fltCfg => exact fltOk_fltConfig hpass.range
  all_goals exact hs

theorem step_keeps_fltOk {s t : State} (hs : FltOk s) (h : step s = .next t) : FltOk t :=
  step_keeps (P := FltOk) (fun _ _ _ hs => hs) (fun h => absurd h Bool.false_ne_true) (fun _ _ _ hs => hs)
    (fun _ _ => fltOk_completed) hs h

/-- Settles O60: each of the four holds at reset, under the latch of an error and after every completed command. -/
theorem stepKeepsLatchTableAndGeometry : Obligations.StepKeepsLatchTableAndGeometry := fun _ _ hlatch hgates hhuf hflt h =>
  ⟨step_keeps_latchOk hlatch h, step_keeps_gatesOk hgates h, step_keeps_hufOk hhuf h, step_keeps_fltOk hflt h⟩

end Sys2Proof.Machine
end

section
/-! PROOFS. The memories stay canonical and within their index ranges (20_memory.md R60, R61), unit by unit. -/

namespace Sys2Proof.Machine

/-! A canonical memory within a range of indices, and the writes that keep it so. -/

section
variable {α : Type} [Inhabited α] [DecidableEq α] {m : Memory α} {lo hi : Nat}

/-- The memory is canonical and lists only indices `lo` to `hi`. -/
def Memory.Ok (lo hi : Nat) (m : Memory α) : Prop := m.wf = true ∧ m.within lo hi = true

theorem memoryOk_nil : Memory.Ok lo hi ([] : Memory α) := ⟨rfl, rfl⟩

theorem memoryOk_write (h : m.Ok lo hi) {i : Nat} (h1 : lo ≤ i) (h2 : i ≤ hi) (v : α) : (m.write i v).Ok lo hi :=
  ⟨wf_write h.1 i v, within_write h.2 h1 h2 v⟩

theorem memoryOk_ofList (l : List α) {i : Nat} (h1 : lo ≤ i) (h2 : i + l.length ≤ hi + 1) : (Memory.ofList i l).Ok lo hi :=
  ⟨wf_ofList l i, within_ofList l h1 h2⟩

end

theorem hufMemoriesOk_iff {h : HufState} :
    h.memoriesOk = true ↔ h.freq.Ok 0 287 ∧ h.lcnt.Ok 1 15 ∧ h.lbase.Ok 1 15 ∧ h.syms.Ok 0 287 ∧ h.cw.Ok 0 287 := by
  simp [HufState.memoriesOk, Memory.Ok, and_assoc]

theorem winMemoriesOk_iff {w : WinState} :
    w.memoriesOk = true ↔ w.ring.Ok 0 (winCap w - 1) ∧ w.next.Ok 0 (winCap w - 1) ∧ w.head.Ok 0 (2 ^ 24 - 1) ∧ w.la.Ok 0 257 ∧
      w.lalen.toNat ≤ 258 := by
  simp [WinState.memoriesOk, Memory.Ok, and_assoc]

theorem fltMemoriesOk_iff {f : FltState} :
    f.memoriesOk = true ↔ f.line.Ok 0 f.rl ∧ f.prev.Ok 1 f.rl ∧ f.out.Ok 0 f.rl := by
  simp [FltState.memoriesOk, Memory.Ok, and_assoc]

/-! HUF. -/

/-- Each entry of an assigned code is a symbol of its level (R131). -/
theorem map_fst_hufAssign (l code : Nat) (levels : List (List Nat)) :
    (hufAssign l code levels).map Prod.fst = levels.flatten := by
  induction levels generalizing l code with
  | nil => rfl
  | cons level rest ih =>
    simp only [hufAssign, List.map_append, ih, List.map_map, List.flatten_cons]
    congr 1
    exact List.zipIdx_map_fst code level

theorem memoryOk_hufCodewords {assigned : List (Nat × Nat × Nat)} (h : ∀ e ∈ assigned, e.1 ≤ 287) :
    (hufCodewords assigned).Ok 0 287 := by
  have hfold (cw : Memory Codeword) (hcw : cw.Ok 0 287) :
      (assigned.foldl (fun cw e => cw.write e.1 { code := BitVec.ofNat 15 e.2.1, len := BitVec.ofNat 4 e.2.2 }) cw).Ok 0 287 := by
    induction assigned generalizing cw with
    | nil => exact hcw
    | cons e assigned ih =>
      obtain ⟨he, hrest⟩ := List.forall_mem_cons.1 h
      exact ih hrest _ (memoryOk_write hcw (Nat.zero_le _) he _)
  exact hfold [] memoryOk_nil

/-- A level of each length 1 to 15 (R130). -/
theorem length_hufCut (cs l : List Nat) : (hufCut cs l).length = cs.length := by
  induction cs generalizing l with
  | nil => rfl
  | cons c cs ih => simp [hufCut, ih]

theorem length_hufLevels (freq : Memory (BitVec 32)) : (hufLevels 288 15 .symbol freq).levels.length = 15 := by
  unfold hufLevels
  dsimp only
  split_ifs
  · simp
  · simp [length_hufCut, hufLevelCounts]

theorem length_hufBases (base : Nat) (cs : List Nat) : (hufBases base cs).length = cs.length := by
  induction cs generalizing base with
  | nil => rfl
  | cons c cs ih => simp [hufBases, ih]

theorem hufBuild_eq_hufOutputs (freq : Memory (BitVec 32)) : hufBuild freq = hufOutputs (hufLevels 288 15 .symbol freq) := rfl

/-- The four memories of a table. -/
theorem memoryOk_hufBuild (freq : Memory (BitVec 32)) :
    (hufBuild freq).lcnt.Ok 1 15 ∧ (hufBuild freq).lbase.Ok 1 15 ∧ (hufBuild freq).syms.Ok 0 287 ∧ (hufBuild freq).cw.Ok 0 287 := by
  obtain ⟨hcount, hsymbol⟩ := hufLevels_bound freq
  have hlevels := length_hufLevels freq
  rw [hufBuild_eq_hufOutputs]
  refine ⟨memoryOk_ofList _ le_rfl ?_, memoryOk_ofList _ le_rfl ?_, memoryOk_ofList _ le_rfl ?_, memoryOk_hufCodewords ?_⟩
  · simp only [List.length_map]
    omega
  · simp only [List.length_map, length_hufBases]
    omega
  · rw [List.length_map]
    omega
  · intro e he
    have hmem : e.1 ∈ (hufLevels 288 15 .symbol freq).levels.flatten :=
      map_fst_hufAssign 1 0 _ ▸ List.mem_map_of_mem (f := Prod.fst) he
    have := hsymbol e.1 hmem
    omega

theorem hufMemoriesOk_completed {s : State} {i : Instr} (hr : i ≠ .reset) (hpass : ChecksPass s i)
    (hs : s.huf.memoriesOk = true) : (completed s i).huf.memoriesOk = true := by
  cases i
  case reset => exact absurd rfl hr
  case hufClr =>
    obtain ⟨-, hrest⟩ := hufMemoriesOk_iff.1 hs
    exact hufMemoriesOk_iff.2 ⟨memoryOk_nil, hrest⟩
  case hufWrf sym freq =>
    obtain ⟨hfreq, hrest⟩ := hufMemoriesOk_iff.1 hs
    have hsym : sym.toNat < 288 := notSymbol_eq_false_iff.1 hpass.range
    exact hufMemoriesOk_iff.2 ⟨memoryOk_write hfreq (Nat.zero_le _) (by omega) _, hrest⟩
  case hufBuild =>
    obtain ⟨hfreq, -⟩ := hufMemoriesOk_iff.1 hs
    exact hufMemoriesOk_iff.2 ⟨hfreq, memoryOk_hufBuild _⟩
  all_goals exact hs

/-! WIN. -/

theorem winSlot_le (w : WinState) (p : Nat) : winSlot w p ≤ winCap w - 1 :=
  Nat.le_pred_of_lt (Nat.mod_lt _ (winCap_pos w))

/-- A key has 24 bits (R163). -/
theorem winKey_le (b0 b1 b2 : Byte) : winKey b0 b1 b2 ≤ 2 ^ 24 - 1 := by
  have := b0.isLt
  have := b1.isLt
  have := b2.isLt
  unfold winKey
  omega

theorem winMemoriesOk_winEvict {w : WinState} (h : w.memoriesOk = true) : (winEvict w).memoriesOk = true := by
  unfold winEvict
  dsimp only
  split_ifs
  · obtain ⟨hring, hnext, hhead, hrest⟩ := winMemoriesOk_iff.1 h
    refine winMemoriesOk_iff.2 ⟨hring, hnext, ?_, hrest⟩
    exact memoryOk_write hhead (Nat.zero_le _) (winKey_le _ _ _) none
  · exact h
  · exact h

theorem winMemoriesOk_winAppend {w : WinState} (h : w.memoriesOk = true) (byte : Byte) :
    (winAppend w byte).memoriesOk = true := by
  obtain ⟨hring, hrest⟩ := winMemoriesOk_iff.1 h
  exact winMemoriesOk_iff.2 ⟨memoryOk_write hring (Nat.zero_le _) (winSlot_le w _) _, hrest⟩

theorem winMemoriesOk_winLink {w : WinState} (h : w.memoriesOk = true) (p : Nat) : (winLink w p).memoriesOk = true := by
  obtain ⟨hring, hnext, hhead, hrest⟩ := winMemoriesOk_iff.1 h
  have hslot := winSlot_le w p
  unfold winLink
  dsimp only
  split_ifs
  · exact winMemoriesOk_iff.2 ⟨hring, memoryOk_write hnext (Nat.zero_le _) hslot (w.head.read (winKeyAt w p)),
      memoryOk_write hhead (Nat.zero_le _) (winKey_le _ _ _) (some (BitVec.ofNat 64 p)), hrest⟩
  · exact winMemoriesOk_iff.2 ⟨hring, memoryOk_write hnext (Nat.zero_le _) hslot none, hhead, hrest⟩

/-- The lookahead has room for one byte more. -/
theorem winMemoriesOk_winLookPut {w : WinState} (h : w.memoriesOk = true) (hroom : w.lalen.toNat ≠ 258) (byte : Byte) :
    (winLookPut w byte).memoriesOk = true := by
  obtain ⟨hring, hnext, hhead, hla, hlen⟩ := winMemoriesOk_iff.1 h
  refine winMemoriesOk_iff.2 ⟨hring, hnext, hhead, memoryOk_write hla (Nat.zero_le _) (by omega) _, ?_⟩
  exact (BitVec.toNat_ofNat _ _).trans_le ((Nat.mod_le _ _).trans (by omega))

theorem winMemoriesOk_completed {s : State} {i : Instr} (hr : i ≠ .reset) (hpass : ChecksPass s i)
    (hs : s.win.memoriesOk = true) : (completed s i).win.memoriesOk = true := by
  cases i
  case reset => exact absurd rfl hr
  case winInit =>
    obtain ⟨-, -, -, hla, -⟩ := winMemoriesOk_iff.1 hs
    exact winMemoriesOk_iff.2 ⟨memoryOk_nil, memoryOk_nil, memoryOk_nil, hla, Nat.zero_le _⟩
  case winReg byte => exact winMemoriesOk_winLink (winMemoriesOk_winAppend (winMemoriesOk_winEvict hs) _) _
  case winLaclr =>
    obtain ⟨hring, hnext, hhead, hla, -⟩ := winMemoriesOk_iff.1 hs
    exact winMemoriesOk_iff.2 ⟨hring, hnext, hhead, hla, Nat.zero_le _⟩
  case winLaput byte => exact winMemoriesOk_winLookPut hs (of_decide_eq_false hpass.room) _
  all_goals exact hs

/-! FLT. -/

section
variable {lo hi : Nat}

theorem memoryOk_fltDefilterFrom (t d : Nat) (prev : Memory Byte) {k i : Nat} {line : Memory Byte} (hline : line.Ok lo hi)
    (h1 : lo ≤ i) (h2 : i + k ≤ hi + 1) : (fltDefilterFrom t d prev k i line).Ok lo hi := by
  induction k generalizing i line with
  | zero => exact hline
  | succ k ih => exact ih (memoryOk_write hline h1 (by omega) _) (by omega) (by omega)

theorem memoryOk_fltFiltFrom (t d : Nat) (line prev : Memory Byte) {k i : Nat} {o : Memory Byte} (ho : o.Ok lo hi) (h1 : lo ≤ i)
    (h2 : i + k ≤ hi + 1) : (fltFiltFrom t d line prev k i o).Ok lo hi := by
  induction k generalizing i o with
  | zero => exact ho
  | succ k ih => exact ih (memoryOk_write ho h1 (by omega) _) (by omega) (by omega)

theorem memoryOk_fltCopyFrom (line : Memory Byte) {k i : Nat} {prev : Memory Byte} (hprev : prev.Ok lo hi) (h1 : lo ≤ i)
    (h2 : i + k ≤ hi + 1) : (fltCopyFrom line k i prev).Ok lo hi := by
  induction k generalizing i prev with
  | zero => exact hprev
  | succ k ih => exact ih (memoryOk_write hprev h1 (by omega) _) (by omega) (by omega)

theorem memoryOk_fltZeroFrom {k i : Nat} {prev : Memory Byte} (hprev : prev.Ok lo hi) (h1 : lo ≤ i) (h2 : i + k ≤ hi + 1) :
    (fltZeroFrom k i prev).Ok lo hi := by
  induction k generalizing i prev with
  | zero => exact hprev
  | succ k ih => exact ih (memoryOk_write hprev h1 (by omega) _) (by omega) (by omega)

end

theorem memoryOk_fltDefilter (d rl : Nat) {line : Memory Byte} (prev : Memory Byte) (hline : line.Ok 0 rl) :
    (fltDefilter d rl line prev).Ok 0 rl := by
  unfold fltDefilter
  split_ifs
  · exact hline
  · exact memoryOk_fltDefilterFrom _ _ _ hline (Nat.zero_le _) (by omega)

theorem memoryOk_fltFilt (t d rl : Nat) (line prev : Memory Byte) : (fltFilt t d rl line prev).Ok 0 rl :=
  memoryOk_fltFiltFrom _ _ _ _ (memoryOk_write memoryOk_nil le_rfl (Nat.zero_le _) _) (Nat.zero_le _) (by omega)

theorem memoryOk_row_fltSelect (d rl : Nat) (line prev : Memory Byte) : (fltSelect d rl line prev).row.Ok 0 rl := by
  obtain ⟨t, -, hselect, -⟩ := isFirstBest_fltSelect (d := d) (rl := rl) (line := line) (prev := prev)
  rw [hselect]
  exact memoryOk_fltFilt t d rl line prev

theorem fltMemoriesOk_completed {s : State} {i : Instr} (hr : i ≠ .reset) (hpass : ChecksPass s i)
    (hs : s.flt.memoriesOk = true) : (completed s i).flt.memoriesOk = true := by
  obtain ⟨hline, hprev, hout⟩ := fltMemoriesOk_iff.1 hs
  have hrange := hpass.range
  cases i
  case reset => exact absurd rfl hr
  case fltCfg => exact fltMemoriesOk_iff.2 ⟨memoryOk_nil, memoryOk_nil, memoryOk_nil⟩
  case fltWrl byte idx =>
    simp only [outOfRange, Bool.or_eq_false_iff, decide_eq_false_iff_not, not_lt] at hrange
    obtain ⟨hidx, -⟩ := hrange
    exact fltMemoriesOk_iff.2 ⟨memoryOk_write hline (Nat.zero_le _) hidx _, hprev, hout⟩
  case fltWrp byte idx =>
    simp only [outOfRange, Bool.or_eq_false_iff, decide_eq_false_iff_not, not_lt] at hrange
    obtain ⟨⟨h1, hidx⟩, -⟩ := hrange
    exact fltMemoriesOk_iff.2 ⟨hline, memoryOk_write hprev h1 hidx _, hout⟩
  case fltDefilt => exact fltMemoriesOk_iff.2 ⟨memoryOk_fltDefilter _ _ _ hline, hprev, hout⟩
  case fltFilt => exact fltMemoriesOk_iff.2 ⟨hline, hprev, memoryOk_fltFilt _ _ _ _ _⟩
  case fltAuto => exact fltMemoriesOk_iff.2 ⟨hline, hprev, memoryOk_row_fltSelect _ _ _ _⟩
  case fltNext => exact fltMemoriesOk_iff.2 ⟨hline, memoryOk_fltCopyFrom _ hprev le_rfl (Nat.add_comm _ _).le, hout⟩
  case fltZprev => exact fltMemoriesOk_iff.2 ⟨hline, memoryOk_fltZeroFrom hprev le_rfl (Nat.add_comm _ _).le, hout⟩
  all_goals exact hs

/-! All twelve memories. -/

theorem memoriesOk_iff {s : State} :
    s.memoriesOk = true ↔ s.huf.memoriesOk = true ∧ s.win.memoriesOk = true ∧ s.flt.memoriesOk = true := by
  simp [State.memoriesOk, and_assoc]

/-- Settles O58: the reset memories are empty, an error writes none, and a completed command writes inside the ranges it has checked. -/
theorem stepKeepsMemoriesCanonical : Obligations.StepKeepsMemoriesCanonical := by
  intro s t hs h
  refine step_keeps (P := fun s => s.memoriesOk = true) (fun _ _ _ hs => hs) (by decide) (fun _ _ _ hs => hs)
    (fun s i hr hpass hs => ?_) hs h
  obtain ⟨hhuf, hwin, hflt⟩ := memoriesOk_iff.1 hs
  exact memoriesOk_iff.2 ⟨hufMemoriesOk_completed hr hpass hhuf, winMemoriesOk_completed hr hpass hwin,
    fltMemoriesOk_completed hr hpass hflt⟩

end Sys2Proof.Machine
end

section
/-! PROOFS. The index of the window (42_window.md R164): what `register` (R165) does to the occurrences that lie in the window whole and to `HEAD`
and `NEXT`, so that every step keeps the index right. -/

namespace Sys2Proof.Machine

/-! The occurrences after `register`. -/

section
variable (w : WinState) (b : Byte)

theorem winCap_winRegister : winCap (winRegister w b) = winCap w := by
  obtain ⟨hexp, -⟩ := winRegister_fields w b
  simp only [winCap, hexp]

theorem winSlot_winRegister (p : Nat) : winSlot (winRegister w b) p = winSlot w p := by
  simp only [winSlot, winCap_winRegister]

variable {w} in
theorem n_winRegister (hn : w.n.toNat + 1 < 2 ^ 64) : (winRegister w b).n.toNat = w.n.toNat + 1 := by
  obtain ⟨-, hcount, -⟩ := winRegister_fields w b
  rw [hcount, BitVec.toNat_ofNat, Nat.mod_eq_of_lt hn]

variable {w} in
/-- Two different positions less than `W` apart have different slots. -/
theorem winSlot_ne {p q : Nat} (h1 : q < p) (h2 : p < q + winCap w) : winSlot w q ≠ winSlot w p := fun h => by
  have := eq_add_winCap_of_winSlot_eq h2.le h1 h
  omega

variable {w} in
/-- The bytes that stay in the window stay as they are. -/
theorem winByte_winRegister_of_inside {q : Nat} (h1 : q < w.n.toNat) (h2 : w.n.toNat < q + winCap w) :
    winByte (winRegister w b) q = winByte w q := by
  rw [winByte_winRegister, if_neg (winSlot_ne h1 h2)]

variable {w} in
/-- The occurrences in the window after `register`: the new one at its end, and of the old ones all but the one that starts at the byte that has
left. -/
theorem winOccurs_winRegister_iff (hcap : 3 ≤ winCap w) (hn : w.n.toNat + 1 < 2 ^ 64) {k q : Nat} :
    winOccurs (winRegister w b) k q ↔
      (q = w.n.toNat ∧ 2 ≤ w.n.toNat ∧ k = winKeyAt (winRegister w b) w.n.toNat) ∨
      (winOccurs w k q ∧ w.n.toNat + 3 ≤ q + winCap w) := by
  have hkey (h2 : 2 ≤ q) (hq : q < w.n.toNat) (hleft : w.n.toNat + 3 ≤ q + winCap w) :
      winKeyAt (winRegister w b) q = winKeyAt w q := by
    unfold winKeyAt
    rw [winByte_winRegister_of_inside b (by omega) (by omega), winByte_winRegister_of_inside b (by omega) (by omega),
      winByte_winRegister_of_inside b hq (by omega)]
  unfold winOccurs
  rw [n_winRegister b hn, winCap_winRegister]
  constructor
  · rintro ⟨h2, hq, hleft, rfl⟩
    obtain rfl | hq := Nat.eq_or_lt_of_le (Nat.le_of_lt_succ hq)
    · exact .inl ⟨rfl, h2, rfl⟩
    · exact .inr ⟨⟨h2, hq, by omega, (hkey h2 hq (by omega)).symm⟩, by omega⟩
  · rintro (⟨rfl, h2, rfl⟩ | ⟨⟨h2, hq, -, rfl⟩, hleft⟩)
    · exact ⟨h2, by omega, by omega, rfl⟩
    · exact ⟨h2, by omega, by omega, hkey h2 hq hleft⟩

variable {w} in
/-- The link of the byte just registered is what `HEAD` held after the eviction; the links of the other bytes in the window stay. -/
theorem next_winRegister_last (h2 : 2 ≤ w.n.toNat) :
    (winRegister w b).next.read (winSlot (winRegister w b) w.n.toNat) =
      (winEvict w).head.read (winKeyAt (winRegister w b) w.n.toNat) := by
  rw [winSlot_winRegister, winRegister_next, if_pos rfl, if_pos h2]

variable {w} in
theorem next_winRegister_of_inside {p : Nat} (h1 : p < w.n.toNat) (h2 : w.n.toNat < p + winCap w) :
    (winRegister w b).next.read (winSlot (winRegister w b) p) = w.next.read (winSlot w p) := by
  rw [winSlot_winRegister, winRegister_next, if_neg (winSlot_ne h1 h2)]

end

/-! `HEAD` after the eviction. -/

section
variable {w : WinState} (hw : WinIndexOk w)
include hw

theorem WinIndexOk.winCap_ge : 256 ≤ winCap w :=
  Nat.pow_le_pow_right (n := 2) (by decide) hw.exponent

/-- The eviction keeps of `HEAD` what stays in the window when the next byte enters. -/
theorem WinIndexOk.head_winEvict_eq_some_iff {k : Nat} {q : BitVec 64} :
    (winEvict w).head.read k = some q ↔ w.head.read k = some q ∧ w.n.toNat + 3 ≤ q.toNat + winCap w := by
  have hcap := hw.winCap_ge
  have hn := w.n.isLt
  rw [winEvict_head]
  split_ifs with hevict
  · obtain ⟨hfull, -, hhead⟩ := hevict
    have hold : (BitVec.ofNat 64 (w.n.toNat - winCap w + 2)).toNat = w.n.toNat - winCap w + 2 := by
      rw [BitVec.toNat_ofNat, Nat.mod_eq_of_lt (by omega)]
    refine iff_of_false nofun fun ⟨hq, hleft⟩ => ?_
    obtain rfl := Option.some.inj (hhead.symm.trans hq)
    omega
  · refine (and_iff_left_of_imp fun hq => ?_).symm
    obtain ⟨⟨h2, -, hwhole, hkey⟩, -⟩ := hw.headSome k q hq
    by_contra hleft
    have hq2 : q.toNat = w.n.toNat - winCap w + 2 := by omega
    refine hevict ⟨by omega, ?_, by rw [hq, ← hq2, BitVec.ofNat_toNat, BitVec.setWidth_eq]⟩
    rw [← hkey, winKeyAt, hq2, winByte_sub_winCap w w.n.toNat (by omega)]
    rfl

/-- Where the eviction leaves `HEAD` empty, no occurrence stays in the window. -/
theorem WinIndexOk.not_occurs_of_head_winEvict_eq_none {k q : Nat} (hnone : (winEvict w).head.read k = none)
    (hq : winOccurs w k q) : q + winCap w < w.n.toNat + 3 := by
  cases hhead : w.head.read k with
  | none => exact absurd hq (hw.headNone k hhead q)
  | some q₀ =>
    obtain ⟨-, hlast⟩ := hw.headSome k q₀ hhead
    have hle := hlast q hq
    by_contra hleft
    have hsome := hw.head_winEvict_eq_some_iff.2 ⟨hhead, (by omega : w.n.toNat + 3 ≤ q₀.toNat + winCap w)⟩
    rw [hnone] at hsome
    exact absurd hsome nofun

/-! `register` keeps the index right. -/

variable (b : Byte) (hn : w.n.toNat + 1 < 2 ^ 64)
include hn

theorem winIndexOk_winRegister : WinIndexOk (winRegister w b) := by
  have hcap := hw.winCap_ge
  have hoccurs {k q : Nat} := winOccurs_winRegister_iff (w := w) b (k := k) (q := q) (by omega) hn
  obtain ⟨hexp, -, -, -, hlalen⟩ := winRegister_fields w b
  constructor
  case exponent => exact hexp ▸ hw.exponent
  case lookahead => exact hlalen ▸ hw.lookahead
  case headSome =>
    intro k q hq
    rw [winRegister_head] at hq
    split_ifs at hq with hnew
    · obtain ⟨h2, rfl⟩ := hnew
      obtain rfl := Option.some.inj hq
      have hp : (BitVec.ofNat 64 w.n.toNat).toNat = w.n.toNat := by simp
      rw [hp]
      refine ⟨hoccurs.2 (.inl ⟨rfl, h2, rfl⟩), fun q' hq' => ?_⟩
      obtain ⟨rfl, -⟩ | ⟨⟨-, hlt, -⟩, -⟩ := hoccurs.1 hq'
      · exact le_rfl
      · exact hlt.le
    · obtain ⟨hhead, hleft⟩ := hw.head_winEvict_eq_some_iff.1 hq
      obtain ⟨hocc, hlast⟩ := hw.headSome k q hhead
      refine ⟨hoccurs.2 (.inr ⟨hocc, hleft⟩), fun q' hq' => ?_⟩
      obtain ⟨-, h2, hk⟩ | ⟨hq', -⟩ := hoccurs.1 hq'
      · exact absurd ⟨h2, hk⟩ hnew
      · exact hlast q' hq'
  case headNone =>
    intro k hnone q hq
    rw [winRegister_head] at hnone
    split_ifs at hnone with hnew
    obtain ⟨-, h2, hk⟩ | ⟨hq, hleft⟩ := hoccurs.1 hq
    · exact hnew ⟨h2, hk⟩
    · have := hw.not_occurs_of_head_winEvict_eq_none hnone hq
      omega
  case nextBack =>
    rintro p q' ⟨hlt, hinside⟩ hq'
    rw [n_winRegister b hn] at hlt hinside
    rw [winCap_winRegister] at hinside
    obtain rfl | hlt := Nat.eq_or_lt_of_le (Nat.le_of_lt_succ hlt)
    · rw [winSlot_winRegister, winRegister_next, if_pos rfl] at hq'
      split_ifs at hq'
      obtain ⟨hhead, -⟩ := hw.head_winEvict_eq_some_iff.1 hq'
      obtain ⟨⟨-, hlt, -⟩, -⟩ := hw.headSome _ _ hhead
      exact hlt
    · rw [next_winRegister_of_inside b hlt (by omega)] at hq'
      exact hw.nextBack p q' ⟨hlt, by omega⟩ hq'
  case nextSome =>
    intro k q q' hq hq'
    rw [n_winRegister b hn, winCap_winRegister]
    obtain ⟨rfl, h2, rfl⟩ | ⟨hold, hleft⟩ := hoccurs.1 hq
    · rw [next_winRegister_last b h2] at hq'
      obtain ⟨hhead, hleft⟩ := hw.head_winEvict_eq_some_iff.1 hq'
      obtain ⟨hocc, hlast⟩ := hw.headSome _ _ hhead
      refine ⟨.inl (hoccurs.2 (.inr ⟨hocc, hleft⟩)), fun q₀ hq₀ hlt => ?_⟩
      obtain ⟨rfl, -⟩ | ⟨hq₀, -⟩ := hoccurs.1 hq₀
      · exact absurd hlt (lt_irrefl _)
      · exact hlast q₀ hq₀
    · have ⟨_, hlt, _⟩ := hold
      rw [next_winRegister_of_inside b hlt (by omega)] at hq'
      obtain ⟨hlink, hbefore⟩ := hw.nextSome k q q' hold hq'
      refine ⟨?_, fun q₀ hq₀ hlt₀ => ?_⟩
      · rcases hlink with hocc | hgone
        · by_cases hstays : w.n.toNat + 3 ≤ q'.toNat + winCap w
          · exact .inl (hoccurs.2 (.inr ⟨hocc, hstays⟩))
          · exact .inr (by omega)
        · exact .inr (by omega)
      · obtain ⟨rfl, -⟩ | ⟨hq₀, -⟩ := hoccurs.1 hq₀
        · omega
        · exact hbefore q₀ hq₀ hlt₀
  case nextNone =>
    intro k q hq hnone q₀ hq₀
    obtain ⟨rfl, h2, rfl⟩ | ⟨hold, hleft⟩ := hoccurs.1 hq
    · rw [next_winRegister_last b h2] at hnone
      obtain ⟨rfl, -⟩ | ⟨hq₀, hleft₀⟩ := hoccurs.1 hq₀
      · exact le_rfl
      · have := hw.not_occurs_of_head_winEvict_eq_none hnone hq₀
        omega
    · have ⟨_, hlt, _⟩ := hold
      rw [next_winRegister_of_inside b hlt (by omega)] at hnone
      obtain ⟨rfl, -⟩ | ⟨hq₀, -⟩ := hoccurs.1 hq₀
      · exact hlt.le
      · exact hw.nextNone k q hold hnone q₀ hq₀

end

/-! Every step. -/

/-- Another lookahead, of at most 258 bytes, is no matter of the index. -/
theorem WinIndexOk.of_lookahead {w : WinState} (hw : WinIndexOk w) (la : Memory Byte) {lalen : BitVec 9} (h : lalen.toNat ≤ 258) :
    WinIndexOk { w with la := la, lalen := lalen } where
  exponent := hw.exponent
  lookahead := h
  headSome := hw.headSome
  headNone := hw.headNone
  nextBack := hw.nextBack
  nextSome := hw.nextSome
  nextNone := hw.nextNone

/-- An empty window has no occurrence and no link. -/
theorem winIndexOk_winEmpty (w : WinState) {exp : BitVec 4} (h : 8 ≤ exp.toNat) : WinIndexOk (winEmpty w exp) where
  exponent := h
  lookahead := Nat.zero_le _
  headSome := nofun
  headNone := fun _ _ _ ⟨_, hlt, _⟩ => Nat.not_lt_zero _ hlt
  nextBack := nofun
  nextSome := nofun
  nextNone := fun _ _ ⟨_, hlt, _⟩ => absurd hlt (Nat.not_lt_zero _)

theorem winOk_completed {s : State} {i : Instr} (hr : i ≠ .reset) (hpass : ChecksPass s i) (hs : WinOk s) :
    WinOk (completed s i) := by
  have hgate := hpass.gate
  have hroom := hpass.room
  cases i
  case reset => exact absurd rfl hr
  case winInit exp =>
    obtain ⟨h8, h15⟩ := notExponent_eq_false_iff.1 hpass.range
    refine fun _ => winIndexOk_winEmpty s.win ?_
    rw [BitVec.toNat_setWidth, Nat.mod_eq_of_lt (by omega)]
    exact h8
  case winReg byte =>
    have hn : s.win.n.toNat ≠ 2 ^ 64 - 1 := of_decide_eq_false hroom
    exact fun _ => winIndexOk_winRegister (hs hgate) (byteOf byte) (by omega)
  case winLaclr => exact fun _ => (hs hgate).of_lookahead s.win.la (Nat.zero_le _)
  case winLaput byte =>
    have hw := hs hgate
    have hlook := hw.lookahead
    have hlen : s.win.lalen.toNat ≠ 258 := of_decide_eq_false hroom
    refine fun _ => hw.of_lookahead _ ?_
    rw [BitVec.toNat_ofNat, Nat.mod_eq_of_lt (by omega)]
    omega
  all_goals exact hs

/-- Settles O59: `register` keeps the index right, `WIN.INIT` opens an empty window, and the other commands write at most the lookahead. -/
theorem stepKeepsWindowIndex : Obligations.StepKeepsWindowIndex := fun _ _ hs h =>
  step_keeps (P := WinOk) (fun _ _ _ hs => hs) (fun h => absurd h Bool.false_ne_true) (fun _ _ _ hs => hs)
    (fun _ _ => winOk_completed) hs h

end Sys2Proof.Machine
end

section
/-! PROOFS. The walk of the index finds the best match (42_window.md R169, R170), so every match is valid and maximal (R175). -/

namespace Sys2Proof.Machine

/-! The best candidate so far. -/

/-- `best` is the best of the candidates at the distances below `c`: it has 3 bytes only if it is one of them, and none of them that has 3 bytes is
longer, or as long and nearer. -/
structure BestBelow (w : WinState) (c : Nat) (best : WinMatch) : Prop where
  length : 2 ≤ best.len
  isCandidate : 3 ≤ best.len → winReaches w best.dist ∧ best.dist < c ∧ best.len = winExtend w best.dist
  isBest : ∀ d, d < c → winReaches w d → 3 ≤ winExtend w d →
    winExtend w d ≤ best.len ∧ (winExtend w d = best.len → best.dist ≤ d)

section
variable {w : WinState} {c d : Nat} {best : WinMatch}

theorem bestBelow_start : BestBelow w 1 { len := 2, dist := 0 } where
  length := le_rfl
  isCandidate := fun h => absurd h (by decide)
  isBest := fun _ hlt ⟨h1, _⟩ _ => absurd h1 hlt.not_ge

/-- Candidates of fewer than 3 bytes do not count. -/
theorem BestBelow.extend {c' : Nat} (h : BestBelow w c best) (hc : c ≤ c')
    (hshort : ∀ d, c ≤ d → d < c' → winReaches w d → winExtend w d < 3) : BestBelow w c' best where
  length := h.length
  isCandidate := fun h3 =>
    have ⟨hreach, hlt, hlen⟩ := h.isCandidate h3
    ⟨hreach, hlt.trans_le hc, hlen⟩
  isBest := fun d hd hreach h3 =>
    (Nat.lt_or_ge d c).elim (fun hlt => h.isBest d hlt hreach h3) fun hge => absurd h3 (hshort d hge hd hreach).not_ge

theorem BestBelow.winTry (h : BestBelow w d best) (hd : winReaches w d) : BestBelow w (d + 1) (winTry w d best) := by
  have hlen := h.length
  unfold Machine.winTry
  dsimp only
  split_ifs with hlonger
  · refine ⟨by dsimp only; omega, fun _ => ⟨hd, Nat.lt_succ_self d, rfl⟩, fun d' hd' hreach h3 => ?_⟩
    obtain rfl | hlt := Nat.eq_or_lt_of_le (Nat.le_of_lt_succ hd')
    · exact ⟨le_rfl, fun _ => le_rfl⟩
    · have ⟨hle, _⟩ := h.isBest d' hlt hreach h3
      dsimp only
      omega
  · refine ⟨hlen, fun h3 => ?_, fun d' hd' hreach h3 => ?_⟩
    · obtain ⟨hreach, hlt, heq⟩ := h.isCandidate h3
      exact ⟨hreach, hlt.trans (Nat.lt_succ_self d), heq⟩
    · obtain rfl | hlt := Nat.eq_or_lt_of_le (Nat.le_of_lt_succ hd')
      · refine ⟨not_lt.1 hlonger, fun heq => ?_⟩
        have ⟨_, hlt, _⟩ := h.isCandidate (heq ▸ h3)
        exact hlt.le
      · exact h.isBest d' hlt hreach h3

/-- Distance `d` is tried when as many bytes are registered (R169). -/
theorem BestBelow.winTry_if_registered (h : BestBelow w d best) (h1 : 1 ≤ d) (hcap : d ≤ winCap w) :
    BestBelow w (d + 1) (if d ≤ w.n.toNat then Machine.winTry w d best else best) := by
  split_ifs with hn
  · exact h.winTry ⟨h1, hn, hcap⟩
  · refine h.extend (Nat.le_succ d) fun d' hge _ ⟨_, hle, _⟩ => ?_
    omega

end

/-! The chain of the lookahead's first three bytes. -/

/-- The key of the lookahead's first three bytes. -/
def winLookKey (w : WinState) : Nat := winKey (w.la.read 0) (w.la.read 1) (w.la.read 2)

/-- A candidate of 3 bytes at a distance of at least 3 is an occurrence of the lookahead's key. -/
theorem winOccurs_of_three_le_winExtend {w : WinState} {d : Nat} (hd : 3 ≤ d) (hreach : winReaches w d) (h3 : 3 ≤ winExtend w d) :
    winOccurs w (winLookKey w) (w.n.toNat + 2 - d) := by
  obtain ⟨-, hn, hcap⟩ := hreach
  have hbyte (i : Nat) (hi : i < 3) : w.la.read i = winByte w (w.n.toNat - d + i) := by
    rw [read_la_of_lt_winExtend (hi.trans_le h3), winSrc, if_pos (hi.trans_le hd)]
  refine ⟨by omega, by omega, by omega, ?_⟩
  rw [winLookKey, winKeyAt, hbyte 0 (by decide), hbyte 1 (by decide), hbyte 2 (by decide)]
  congr 2 <;> omega

/-- The link `o` leads to all occurrences of the key `k` at distances of at least `c`. -/
structure LinkCovers (w : WinState) (k c : Nat) (o : Option (BitVec 64)) : Prop where
  covers : ∀ q₀, winOccurs w k q₀ → c + q₀ ≤ w.n.toNat + 2 → ∃ q, o = some q ∧ q₀ ≤ q.toNat
  occurs : ∀ q, o = some q → winOccurs w k q.toNat ∨ q.toNat + winCap w < w.n.toNat + 2
  far : ∀ q, o = some q → c + q.toNat ≤ w.n.toNat + 2

/-- A link that has left the window ends the walk: no occurrence at a distance of at least `c` is left. -/
theorem BestBelow.of_link_left {w : WinState} {c : Nat} {o : Option (BitVec 64)} {best : WinMatch} (hc : 3 ≤ c)
    (hbest : BestBelow w c best) (hlink : LinkCovers w (winLookKey w) c o)
    (hleft : ∀ q, o = some q → q.toNat + winCap w < w.n.toNat + 2) : ∃ c', winCap w < c' ∧ BestBelow w c' best := by
  refine ⟨max c (winCap w + 1), by omega, hbest.extend (le_max_left _ _) fun d hd _ hreach => ?_⟩
  by_contra h3
  have hocc := winOccurs_of_three_le_winExtend (hc.trans hd) hreach (not_lt.1 h3)
  have ⟨_, hn, _⟩ := hreach
  obtain ⟨q, rfl, hle⟩ := hlink.covers _ hocc (by omega)
  have := hleft q rfl
  have ⟨_, _, hwhole, _⟩ := hocc
  omega

section
variable {w : WinState} (hw : WinIndexOk w)
include hw

theorem WinIndexOk.linkCovers_head (k : Nat) : LinkCovers w k 3 (w.head.read k) where
  covers := fun q₀ hq₀ _ => by
    cases hhead : w.head.read k with
    | none => exact absurd hq₀ (hw.headNone k hhead q₀)
    | some q => exact ⟨q, rfl, (hw.headSome k q hhead).2 q₀ hq₀⟩
  occurs := fun q hq => .inl (hw.headSome k q hq).1
  far := fun q hq => by
    have ⟨⟨_, hlt, _⟩, _⟩ := hw.headSome k q hq
    omega

theorem WinIndexOk.linkCovers_next {k q : Nat} (hq : winOccurs w k q) :
    LinkCovers w k (w.n.toNat + 2 - q + 1) (w.next.read (winSlot w q)) where
  covers := fun q₀ hq₀ hfar => by
    have ⟨_, hlt, _⟩ := hq
    cases hnext : w.next.read (winSlot w q) with
    | none =>
      have := hw.nextNone k q hq hnext q₀ hq₀
      omega
    | some q' => exact ⟨q', rfl, (hw.nextSome k q q' hq hnext).2 q₀ hq₀ (by omega)⟩
  occurs := fun q' hq' => (hw.nextSome k q q' hq hq').1
  far := fun q' hq' => by
    have ⟨_, hlt, hwhole, _⟩ := hq
    have := hw.nextBack q q' ⟨hlt, by omega⟩ hq'
    omega

/-- The walk tries every occurrence of the lookahead's key in the window, at rising distances; every step leaves fewer distances in the window. -/
theorem WinIndexOk.bestBelow_winWalk {k c : Nat} {o : Option (BitVec 64)} {best : WinMatch} (hc : 3 ≤ c)
    (hfuel : winCap w < c + k) (hlink : LinkCovers w (winLookKey w) c o) (hbest : BestBelow w c best) :
    ∃ c', winCap w < c' ∧ BestBelow w c' (winWalk w k o best) := by
  induction k generalizing c o best with
  | zero => exact ⟨c, hfuel, hbest⟩
  | succ k ih =>
    cases o with
    | none => exact hbest.of_link_left hc hlink nofun
    | some q =>
      have hfar := hlink.far q rfl
      simp only [winWalk]
      split_ifs with hleft
      · refine hbest.of_link_left hc hlink fun q' hq' => ?_
        obtain rfl := Option.some.inj hq'
        omega
      · have hocc := (hlink.occurs q rfl).resolve_right (by omega)
        have ⟨h2, hlt, _⟩ := hocc
        have hbefore : BestBelow w (w.n.toNat + 2 - q.toNat) best := by
          refine hbest.extend (by omega) fun d hd hdq hreach => ?_
          by_contra h3
          have ⟨_, hn, _⟩ := hreach
          obtain ⟨q', hq', hle⟩ := hlink.covers _ (winOccurs_of_three_le_winExtend (hc.trans hd) hreach (not_lt.1 h3)) (by omega)
          obtain rfl := Option.some.inj hq'
          omega
        exact ih (by omega) (by omega) (hw.linkCovers_next hocc) (hbefore.winTry ⟨by omega, by omega, by omega⟩)

/-- Distance 1, distance 2 and the chain together are all distances in the window. -/
theorem WinIndexOk.bestBelow_winBest : ∃ c, winCap w < c ∧ BestBelow w c (winBest w) := by
  have hcap := hw.winCap_ge
  have h1 := (bestBelow_start (w := w)).winTry_if_registered le_rfl (by omega)
  have h2 := h1.winTry_if_registered (by decide) (by omega)
  exact hw.bestBelow_winWalk le_rfl (by omega) (hw.linkCovers_head (winLookKey w)) h2

end

/-! The match. -/

/-- Settles O41: the walk leaves the best candidate over all distances in the window; one of fewer than 3 bytes is none. -/
theorem matchWalkFindsBestMatch : Obligations.MatchWalkFindsBestMatch := by
  intro w hw
  obtain ⟨c, hc, hbest⟩ := hw.bestBelow_winBest
  have hbelow {d : Nat} (hreach : winReaches w d) : d < c := by
    have ⟨_, _, hcap⟩ := hreach
    omega
  unfold winMatch
  dsimp only
  split_ifs with hla h3
  · exact .inl hla
  · obtain ⟨hreach, -, hlen⟩ := hbest.isCandidate h3
    refine ⟨not_lt.1 hla, hreach, hlen, h3, fun d hd => ?_⟩
    by_cases hd3 : 3 ≤ winExtend w d
    · exact hbest.isBest d (hbelow hd) hd hd3
    · have h3' : 3 ≤ (winBest w).len := h3
      omega
  · refine .inr fun d hd => ?_
    by_contra hd3
    have ⟨hle, _⟩ := hbest.isBest d (hbelow hd) hd (not_lt.1 hd3)
    exact h3 ((not_lt.1 hd3).trans hle)

/-- Settles O42: a match is the best candidate of its window (R170), and a candidate is as long as it can be (R168). -/
theorem matchesAreValid : Obligations.MatchesAreValid := by
  intro w m hw hm
  have hbest : winIsBest w (some m) := hm ▸ matchWalkFindsBestMatch w hw
  obtain ⟨-, ⟨h1, hn, hcap⟩, hlen, h3, hlongest⟩ := hbest
  obtain ⟨hmax, hla, hagree, -⟩ := candidateExtensionIsLargest w m.dist h1 hn hcap
  rw [hlen]
  refine ⟨hlen ▸ h3, hmax, hla, h1, hn, hcap, hagree, fun d l hd1 hdn hdcap hl258 hlla hdl => ?_, fun hlt hltla => ?_⟩
  · obtain ⟨-, -, -, hlargest⟩ := candidateExtensionIsLargest w d hd1 hdn hdcap
    obtain ⟨hle, hnear⟩ := hlongest d ⟨hd1, hdn, hdcap⟩
    have := hlargest l hl258 hlla hdl
    exact ⟨by omega, fun hl => hnear (by omega)⟩
  · exact read_la_winExtend_ne hlt hltla

end Sys2Proof.Machine
end

section
/-! PROOFS. Reversing a filtered row (43_filter.md R222), and the seven passes as a partition of the image (44_adam7.md R249). -/

namespace Sys2Proof.Machine

/-! Reversing a filtered row. -/

/-- Settles O52: by induction on the index, the reversed row has the raw bytes to the left, so the prediction taken away is added again. -/
theorem defilterUndoesFilter : Obligations.DefilterUndoesFilter := by
  intro t d rl line prev ht hd
  obtain ⟨htag, hdata⟩ := isFilteredRow_fltFilt t d rl line prev
  have ht8 : ((fltFilt t d rl line prev).read 0).toNat = t := by
    rw [htag, BitVec.toNat_ofNat, Nat.mod_eq_of_lt (by omega)]
  refine ⟨(read_fltDefilter_zero rl _ prev hd).trans htag, fun i => ?_⟩
  induction i using Nat.strong_induction_on with
  | _ i ih =>
    intro h1 hi
    have hleft : leftOf (fltDefilter d rl (fltFilt t d rl line prev) prev) d i = leftOf line d i := by
      unfold leftOf
      split_ifs with hdi
      · exact ih (i - d) (by omega) (by omega) (by omega)
      · rfl
    rw [read_fltDefilter prev hd (by omega), if_pos ⟨h1, hi⟩, ht8, hleft, hdata i h1 hi, BitVec.sub_add_cancel]

/-! The pass of a pixel. -/

/-- The pixel `(x, y)` lies on the grid of pass `k`. -/
def onPassGrid (k x y : Nat) : Prop :=
  x % 2 ^ (a7Pattern k).ex = (a7Pattern k).bx ∧ y % 2 ^ (a7Pattern k).ey = (a7Pattern k).byy

/-- The base of a pass is smaller than its step (R241). -/
theorem a7Pattern_base_lt {k : Nat} (hk : k < 7) :
    (a7Pattern k).bx < 2 ^ (a7Pattern k).ex ∧ (a7Pattern k).byy < 2 ^ (a7Pattern k).ey := by
  revert k
  decide

/-- Base and step, as remainder and quotient. -/
theorem eq_base_add_mul_iff {x b c i : Nat} (hb : b < c) : x = b + i * c ↔ x % c = b ∧ i = x / c := by
  constructor
  · rintro rfl
    rw [Nat.add_mul_mod_self_right, Nat.mod_eq_of_lt hb, Nat.add_mul_div_right _ _ (by omega), Nat.div_eq_of_lt hb, Nat.zero_add]
    exact ⟨rfl, rfl⟩
  · rintro ⟨rfl, rfl⟩
    exact (Nat.mod_add_div' x c).symm

/-- The pixels of a pass are those of its grid inside the image, and the place in the sub-image is the quotient by the step. -/
theorem isPassPixel_iff {W H k i j x y : Nat} :
    isPassPixel W H k i j x y ↔
      k < 7 ∧ x < W ∧ y < H ∧ onPassGrid k x y ∧ i = x / 2 ^ (a7Pattern k).ex ∧ j = y / 2 ^ (a7Pattern k).ey := by
  unfold isPassPixel onPassGrid a7SubWidth a7SubHeight a7Column a7Row
  rw [lt_a7Sub_iff, lt_a7Sub_iff]
  refine and_congr_right fun hk => ?_
  obtain ⟨hbx, hby⟩ := a7Pattern_base_lt hk
  constructor
  · rintro ⟨hi, hj, hx, hy⟩
    have ⟨hxmod, hxdiv⟩ := (eq_base_add_mul_iff hbx).1 hx
    have ⟨hymod, hydiv⟩ := (eq_base_add_mul_iff hby).1 hy
    exact ⟨hx ▸ hi, hy ▸ hj, ⟨hxmod, hymod⟩, hxdiv, hydiv⟩
  · rintro ⟨hx, hy, ⟨hxmod, hymod⟩, hxdiv, hydiv⟩
    have hcol := (eq_base_add_mul_iff hbx).2 ⟨hxmod, hxdiv⟩
    have hrow := (eq_base_add_mul_iff hby).2 ⟨hymod, hydiv⟩
    exact ⟨hcol ▸ hx, hrow ▸ hy, hcol, hrow⟩

/-- All steps divide 8, so the grids repeat every 8 columns and rows. -/
theorem onPassGrid_mod_eight {k : Nat} (hk : k < 7) (x y : Nat) : onPassGrid k x y ↔ onPassGrid k (x % 8) (y % 8) := by
  have hdvd : 2 ^ (a7Pattern k).ex ∣ 8 ∧ 2 ^ (a7Pattern k).ey ∣ 8 := by
    revert k
    decide
  unfold onPassGrid
  rw [Nat.mod_mod_of_dvd x hdvd.1, Nat.mod_mod_of_dvd y hdvd.2]

/-- Of the 64 pixels of the pattern each lies on the grid of exactly one pass (R241). -/
theorem pattern_partition : ∀ x < 8, ∀ y < 8, ∃ k < 7, onPassGrid k x y ∧ ∀ k' < 7, onPassGrid k' x y → k' = k := by
  unfold onPassGrid
  decide

/-- Every pixel lies on the grid of exactly one pass. -/
theorem exists_unique_pass (x y : Nat) : ∃ k < 7, onPassGrid k x y ∧ ∀ k' < 7, onPassGrid k' x y → k' = k := by
  obtain ⟨k, hk, hgrid, honly⟩ := pattern_partition (x % 8) (Nat.mod_lt _ (by decide)) (y % 8) (Nat.mod_lt _ (by decide))
  exact ⟨k, hk, (onPassGrid_mod_eight hk x y).2 hgrid, fun k' hk' h => honly k' hk' ((onPassGrid_mod_eight hk' x y).1 h)⟩

/-! The pixel counts. -/

/-- Two interleaved grids of one step make the grid of half the step. -/
theorem a7Sub_halves (full : Nat) :
    a7Sub full 0 3 + a7Sub full 4 3 = a7Sub full 0 2 ∧ a7Sub full 0 2 + a7Sub full 2 2 = a7Sub full 0 1 ∧
      a7Sub full 0 1 + a7Sub full 1 1 = full := by
  unfold a7Sub
  split_ifs <;> omega

/-- The counts of the passes add up (R249): the passes from the first on fill the coarser grids, one direction after the other. -/
theorem sum_passPixels (W H : Nat) : ((List.range 7).map fun k => a7SubWidth W k * a7SubHeight H k).sum = W * H := by
  obtain ⟨hW3, hW2, hW1⟩ := a7Sub_halves W
  obtain ⟨hH3, hH2, hH1⟩ := a7Sub_halves H
  calc ((List.range 7).map fun k => a7SubWidth W k * a7SubHeight H k).sum
      = a7Sub W 0 3 * a7Sub H 0 3 + a7Sub W 4 3 * a7Sub H 0 3 + a7Sub W 0 2 * a7Sub H 4 3 + a7Sub W 2 2 * a7Sub H 0 2 +
          a7Sub W 0 1 * a7Sub H 2 2 + a7Sub W 1 1 * a7Sub H 0 1 + a7Sub W 0 0 * a7Sub H 1 1 := by
        rw [← List.sum_toFinset _ List.nodup_range, List.toFinset_range, Finset.sum_range_succ, Finset.sum_range_succ,
          Finset.sum_range_succ, Finset.sum_range_succ, Finset.sum_range_succ, Finset.sum_range_succ, Finset.sum_range_one]
        rfl
    _ = a7Sub W 0 2 * a7Sub H 0 2 + a7Sub W 2 2 * a7Sub H 0 2 + a7Sub W 0 1 * a7Sub H 2 2 + a7Sub W 1 1 * a7Sub H 0 1 +
          W * a7Sub H 1 1 := by
        have hW0 : a7Sub W 0 0 = W := by
          unfold a7Sub
          split_ifs <;> omega
        rw [hW0, ← Nat.add_mul, hW3, ← Nat.mul_add, hH3]
    _ = W * H := by rw [← Nat.add_mul, hW2, ← Nat.mul_add, hH2, ← Nat.add_mul, hW1, ← Nat.mul_add, hH1]

/-- Settles O56: a pixel is a pixel of the pass whose grid it lies on, which is one and only one; the counts add up grid by grid. -/
theorem a7PassesPartitionImage : Obligations.A7PassesPartitionImage := by
  refine fun W H => ⟨fun x y hx hy => ?_, fun k i j k' i' j' x y h h' => ?_, fun k i j x y h => ?_, sum_passPixels W H⟩
  · obtain ⟨k, hk, hgrid, -⟩ := exists_unique_pass x y
    exact ⟨k, _, _, isPassPixel_iff.2 ⟨hk, hx, hy, hgrid, rfl, rfl⟩⟩
  · obtain ⟨hk, -, -, hgrid, rfl, rfl⟩ := isPassPixel_iff.1 h
    obtain ⟨hk', -, -, hgrid', rfl, rfl⟩ := isPassPixel_iff.1 h'
    obtain ⟨k₀, -, -, honly⟩ := exists_unique_pass x y
    obtain rfl := (honly k hk hgrid).trans (honly k' hk' hgrid').symm
    exact ⟨rfl, rfl, rfl⟩
  · obtain ⟨-, hx, hy, -⟩ := isPassPixel_iff.1 h
    exact ⟨hx, hy⟩

end Sys2Proof.Machine
end

section
/-! PROOFS. The merge loop (41_huffman.md R126, R127) and the leaf counts of a full binary tree (R128): Kraft sums over levels, the passes of the loop,
and the vector it ends with. -/

namespace Sys2Proof.Machine

/-! Leaf counts by level, as functions of the level. -/

/-- The Kraft sum of the counts down to level `n`, in units of `2^-n`. -/
def hufKraftSum (f : Nat → Nat) (n : Nat) : Nat := ∑ d ∈ Finset.range (n + 1), f d * 2 ^ (n - d)

theorem hufKraftSum_zero (f : Nat → Nat) : hufKraftSum f 0 = f 0 := by simp [hufKraftSum]

theorem hufKraftSum_succ (f : Nat → Nat) (n : Nat) : hufKraftSum f (n + 1) = 2 * hufKraftSum f n + f (n + 1) := by
  unfold hufKraftSum
  rw [Finset.sum_range_succ, Finset.mul_sum, Nat.sub_self, pow_zero, mul_one]
  congr 1
  refine Finset.sum_congr rfl fun d hd => ?_
  rw [Nat.succ_sub (Nat.le_of_lt_succ (Finset.mem_range.1 hd)), pow_succ]
  ring

/-- One level more at the root. -/
theorem hufKraftSum_root (f : Nat → Nat) (n : Nat) : hufKraftSum f (n + 1) = f 0 * 2 ^ (n + 1) + hufKraftSum (fun d => f (d + 1)) n := by
  unfold hufKraftSum
  rw [Finset.sum_range_succ', add_comm, Nat.sub_zero]
  simp only [Nat.add_sub_add_right]

theorem hufKraftSum_add (f g : Nat → Nat) (n : Nat) : hufKraftSum (fun d => f d + g d) n = hufKraftSum f n + hufKraftSum g n := by
  simp only [hufKraftSum, add_mul, Finset.sum_add_distrib]

/-- Levels without leaves only change the unit. -/
theorem hufKraftSum_of_empty_below {f : Nat → Nat} {n : Nat} (hf : ∀ d, n < d → f d = 0) (k : Nat) :
    hufKraftSum f (n + k) = hufKraftSum f n * 2 ^ k := by
  induction k with
  | zero => simp
  | succ k ih =>
    rw [← Nat.add_assoc, hufKraftSum_succ, ih, hf (n + k + 1) (by omega), pow_succ]
    ring

/-- The counts are those of a full binary tree no deeper than `n`: no leaf is deeper, and the Kraft sum is 1. -/
structure HufFull (f : Nat → Nat) (n : Nat) : Prop where
  below : ∀ d, n < d → f d = 0
  kraft : hufKraftSum f n = 2 ^ n

theorem HufFull.kraft_of_le {f : Nat → Nat} {n n' : Nat} (h : HufFull f n) (hn : n ≤ n') : hufKraftSum f n' = 2 ^ n' := by
  obtain ⟨k, rfl⟩ := Nat.exists_eq_add_of_le hn
  rw [hufKraftSum_of_empty_below h.below, h.kraft, pow_add]

theorem HufFull.of_le {f : Nat → Nat} {n n' : Nat} (hf : ∀ d, n < d → f d = 0) (hn : n ≤ n')
    (hkraft : hufKraftSum f n' = 2 ^ n') : HufFull f n := by
  obtain ⟨k, rfl⟩ := Nat.exists_eq_add_of_le hn
  rw [hufKraftSum_of_empty_below hf, pow_add] at hkraft
  exact ⟨hf, Nat.eq_of_mul_eq_mul_right (by positivity) hkraft⟩

/-- The counts of a full tree no deeper than `n` are those of one no deeper than `n'`, if no leaf is. -/
theorem HufFull.change {f : Nat → Nat} {n n' : Nat} (h : HufFull f n) (hf : ∀ d, n' < d → f d = 0) : HufFull f n' := by
  rcases Nat.le_total n n' with hn | hn
  · exact ⟨hf, h.kraft_of_le hn⟩
  · exact .of_le hf hn h.kraft

theorem list_sum_map_range (f : Nat → Nat) (n : Nat) : ((List.range n).map f).sum = ∑ d ∈ Finset.range n, f d := rfl

theorem list_sum_eq_sum_range (v : List Nat) : v.sum = ∑ d ∈ Finset.range v.length, v.getD d 0 := by
  induction v with
  | nil => rfl
  | cons a v ih => rw [List.sum_cons, List.length_cons, Finset.sum_range_succ', ih, add_comm]; rfl

theorem getD_of_length_le {v : List Nat} {d : Nat} (h : v.length ≤ d) : v.getD d 0 = 0 := List.getD_eq_default _ _ h

/-! The vector of a node. -/

/-- The vector counts the leaves of a full binary tree: its last entry is no padding, it is no longer than the leaves are many, and only a tree of
one leaf has a leaf at its root. -/
structure IsHufTreeVec (v : List Nat) : Prop where
  full : HufFull (fun d => v.getD d 0) (v.length - 1)
  deepest : 1 ≤ v.getD (v.length - 1) 0
  short : v.length ≤ v.sum
  root : v = [1] ∨ (v.getD 0 0 = 0 ∧ 2 ≤ v.length)

theorem isHufTreeVec_leaf : IsHufTreeVec [1] where
  full := ⟨fun d hd => getD_of_length_le hd, by decide⟩
  deepest := by decide
  short := by decide
  root := .inl rfl

theorem sum_hufAddVec (u v : List Nat) : (hufAddVec u v).sum = u.sum + v.sum := by
  induction u generalizing v with
  | nil => simp [hufAddVec]
  | cons a u ih =>
    cases v with
    | nil => simp [hufAddVec]
    | cons b v => simp [hufAddVec, ih, add_add_add_comm]

theorem IsHufTreeVec.length_pos {v : List Nat} (h : IsHufTreeVec v) : 1 ≤ v.length := by
  by_contra hlen
  have := h.deepest
  rw [getD_of_length_le (by omega)] at this
  omega

/-- The combined vector (R127): both trees below a new root. -/
theorem IsHufTreeVec.combine {u v : List Nat} (hu : IsHufTreeVec u) (hv : IsHufTreeVec v) : IsHufTreeVec (0 :: hufAddVec u v) := by
  obtain ⟨hlen, hget⟩ := hufAddVec_spec u v
  have hu1 := hu.length_pos
  have hv1 := hv.length_pos
  have hdeep : max u.length v.length = (max u.length v.length - 1) + 1 := by omega
  refine ⟨⟨fun d hd => getD_of_length_le ?_, ?_⟩, ?_, ?_, .inr ⟨rfl, ?_⟩⟩
  · rw [List.length_cons] at hd ⊢
    omega
  · rw [List.length_cons, Nat.add_sub_cancel, hlen, hdeep, hufKraftSum_root]
    simp only [List.getD_cons_zero, List.getD_cons_succ, hget]
    rw [hufKraftSum_add, hu.full.kraft_of_le (by omega), hv.full.kraft_of_le (by omega), pow_succ]
    ring
  · rw [List.length_cons, Nat.add_sub_cancel, hlen, hdeep, List.getD_cons_succ, hget]
    have hu0 := hu.deepest
    have hv0 := hv.deepest
    rcases le_total u.length v.length with h | h
    · rw [max_eq_right h]
      omega
    · rw [max_eq_left h]
      omega
  · rw [List.length_cons, List.sum_cons, hlen, sum_hufAddVec]
    have := hu.short
    have := hv.short
    omega
  · rw [List.length_cons, hlen]
    omega

/-! The merge loop. -/

theorem hufLeavesFirst_of_perm {x : HufNode} {q q' : List HufNode} (hq : q.Perm q') (h : hufLeavesFirst x q) : hufLeavesFirst x q' :=
  fun y hy => h y (hq.mem_iff.2 hy)

/-- A pass on a queue of two or more nodes combines the two that leave first. -/
theorem hufMergeStep_spec (serial : Nat) {q : List HufNode} (h : 2 ≤ q.length) :
    ∃ x y rest, q.Perm (x :: y :: rest) ∧ hufLeavesFirst x (y :: rest) ∧ hufLeavesFirst y rest ∧
      hufMergeStep serial q = hufCombine x y serial :: rest := by
  obtain - | ⟨a, q⟩ := q
  · simp at h
  have hfirst := hufRemoveMin_perm a q
  have hlen := hfirst.length_eq
  have hmin := hufLeavesFirst_hufRemoveMin_rest a q
  cases hrest : (hufRemoveMin a q).2 with
  | nil =>
    simp only [hrest, List.length_cons, List.length_nil] at hlen h
    omega
  | cons z q' =>
    rw [hrest] at hfirst hmin
    have hsecond := hufRemoveMin_perm z q'
    refine ⟨_, _, _, hfirst.symm.trans (hsecond.symm.cons _), hufLeavesFirst_of_perm hsecond.symm hmin,
      hufLeavesFirst_hufRemoveMin_rest z q', ?_⟩
    simp only [hufMergeStep, hrest]

/-- The leaves below all nodes of the queue. -/
def hufQueueLeaves (q : List HufNode) : Nat := (q.map fun n => n.vec.sum).sum

/-- The loop on a queue of tree vectors ends with one node, whose vector is a tree vector of the same leaves. -/
theorem hufMergeLoop_spec {k : Nat} : ∀ {serial : Nat} {q : List HufNode}, q.length = k + 1 → (∀ n ∈ q, IsHufTreeVec n.vec) →
    ∃ t, hufMergeLoop k serial q = [t] ∧ HufTreeOf serial q t.vec ∧ IsHufTreeVec t.vec ∧ t.vec.sum = hufQueueLeaves q := by
  induction k with
  | zero =>
    intro serial q hlen hq
    obtain ⟨t, rfl⟩ := List.length_eq_one_iff.1 hlen
    exact ⟨t, rfl, .done serial t, hq t (by simp), by simp [hufQueueLeaves]⟩
  | succ k ih =>
    intro serial q hlen hq
    obtain ⟨x, y, rest, hperm, hx, hy, hstep⟩ := hufMergeStep_spec serial (q := q) (by omega)
    have hxyr : ∀ n ∈ x :: y :: rest, IsHufTreeVec n.vec := fun n hn => hq n (hperm.mem_iff.2 hn)
    simp only [List.forall_mem_cons] at hxyr
    obtain ⟨hxv, hyv, hrest⟩ := hxyr
    have hlen' := hperm.length_eq
    obtain ⟨t, ht, htree, hvec, hsum⟩ := ih (serial := serial + 1) (q := hufCombine x y serial :: rest)
      (by simp only [List.length_cons] at hlen' ⊢; omega) (List.forall_mem_cons.2 ⟨hxv.combine hyv, hrest⟩)
    refine ⟨t, by rw [hufMergeLoop, hstep, ht], .pass serial q rest x y _ _ hperm hx hy (hufCombine_combines x y serial) htree, hvec,
      hsum.trans ?_⟩
    rw [hufQueueLeaves, hufQueueLeaves, (hperm.map _).sum_eq]
    simp [hufCombine, sum_hufAddVec, add_assoc]

/-! The tree of the sorted symbols. -/

theorem hufLeaves_eq_map_range (sorted : List (Nat × Nat)) :
    hufLeaves sorted = (List.range sorted.length).map fun i => { weight := (sorted.getD i (0, 0)).2, serial := i, vec := [1] } := by
  refine List.ext_getElem (by simp [hufLeaves]) fun i h _ => ?_
  have hi : i < sorted.length := by simpa [hufLeaves] using h
  simp [hufLeaves, List.getElem?_eq_getElem hi]

theorem vec_of_mem_hufLeaves {sorted : List (Nat × Nat)} {n : HufNode} (h : n ∈ hufLeaves sorted) : n.vec = [1] := by
  obtain ⟨e, -, rfl⟩ := List.mem_map.1 h
  rfl

theorem hufQueueLeaves_hufLeaves (sorted : List (Nat × Nat)) : hufQueueLeaves (hufLeaves sorted) = sorted.length := by
  simp [hufQueueLeaves, hufLeaves, Function.comp_def]

/-- The vector of the tree (R127) of at least one leaf. -/
theorem hufTreeVec_spec {sorted : List (Nat × Nat)} (h : 1 ≤ sorted.length) :
    HufTreeOf sorted.length (hufLeaves sorted) (hufTreeVec sorted) ∧ IsHufTreeVec (hufTreeVec sorted) ∧
      (hufTreeVec sorted).sum = sorted.length := by
  obtain ⟨t, ht, htree, hvec, hsum⟩ := hufMergeLoop_spec (k := sorted.length - 1) (serial := sorted.length)
    (q := hufLeaves sorted) (by simp only [hufLeaves, List.length_map, List.length_zipIdx]; omega)
    fun n hn => vec_of_mem_hufLeaves hn ▸ isHufTreeVec_leaf
  have heq : hufTreeVec sorted = t.vec := by simp [hufTreeVec, ht]
  rw [heq]
  exact ⟨htree, hvec, hsum.trans (hufQueueLeaves_hufLeaves sorted)⟩

/-- A Kraft sum as a sum over the list of levels. -/
theorem hufKraftSum_eq_list_sum (f : Nat → Nat) {n : Nat} (hn : 1 ≤ n) :
    hufKraftSum f (n - 1) = ((List.range n).map fun d => f d * 2 ^ (n - 1 - d)).sum := by
  rw [hufKraftSum, Nat.sub_add_cancel hn, list_sum_map_range]

/-- Settles O28: the loop follows R127 pass by pass, and each pass keeps that the vectors count the leaves of full binary trees. -/
theorem hufTreeVectorIsFull : Obligations.HufTreeVectorIsFull := by
  intro sorted hlen
  obtain ⟨htree, hvec, hsum⟩ := hufTreeVec_spec (sorted := sorted) (by omega)
  obtain ⟨hroot, hdeep⟩ := hvec.root.resolve_left fun h => by
    rw [h] at hsum
    simp at hsum
    omega
  refine ⟨hufLeaves_eq_map_range sorted ▸ htree, hroot, hsum, hdeep, hsum ▸ hvec.short, ?_⟩
  rw [← hufKraftSum_eq_list_sum _ (by omega)]
  exact hvec.full.kraft

end Sys2Proof.Machine
end

section
/-! PROOFS. Height limiting (41_huffman.md R129): the passes of the loop on the counts, what every pass keeps, and the counts it ends with. -/

namespace Sys2Proof.Machine

/-! Writing a count. -/

section
variable {cnt : List Nat} {d k : Nat} (hd : d < cnt.length)
include hd

theorem hufCount_set (x e : Nat) : hufCount (cnt.set d x) e = if e = d then x else hufCount cnt e := by
  unfold hufCount
  by_cases he : e = d
  · subst he
    rw [if_pos rfl, List.getD_eq_getElem _ _ (by simpa using hd), List.getElem_set_self]
  · rw [if_neg he, List.getD_eq_getElem?_getD, List.getElem?_set_ne (Ne.symm he), ← List.getD_eq_getElem?_getD]

/-- A weighted sum over the levels after writing a count. -/
theorem sum_hufCount_set (g : Nat → Nat) (x : Nat) :
    ∑ e ∈ Finset.range cnt.length, hufCount (cnt.set d x) e * g e + hufCount cnt d * g d =
      ∑ e ∈ Finset.range cnt.length, hufCount cnt e * g e + x * g d := by
  have hmem := Finset.mem_range.2 hd
  have hrest : ∑ e ∈ (Finset.range cnt.length).erase d, hufCount (cnt.set d x) e * g e =
      ∑ e ∈ (Finset.range cnt.length).erase d, hufCount cnt e * g e :=
    Finset.sum_congr rfl fun e he => by rw [hufCount_set hd, if_neg (Finset.ne_of_mem_erase he)]
  rw [← Finset.add_sum_erase _ _ hmem, ← Finset.add_sum_erase _ (fun e => hufCount cnt e * g e) hmem, hrest, hufCount_set hd,
    if_pos rfl]
  omega

theorem sum_hufCountAdd (g : Nat → Nat) :
    ∑ e ∈ Finset.range cnt.length, hufCount (hufCountAdd cnt d k) e * g e =
      ∑ e ∈ Finset.range cnt.length, hufCount cnt e * g e + k * g d := by
  have := sum_hufCount_set hd g (hufCount cnt d + k)
  rw [add_mul] at this
  unfold hufCountAdd
  omega

theorem sum_hufCountSub (g : Nat → Nat) (hk : k ≤ hufCount cnt d) :
    ∑ e ∈ Finset.range cnt.length, hufCount (hufCountSub cnt d k) e * g e + k * g d =
      ∑ e ∈ Finset.range cnt.length, hufCount cnt e * g e := by
  have := sum_hufCount_set hd g (hufCount cnt d - k)
  obtain ⟨c, hc⟩ := Nat.exists_eq_add_of_le hk
  rw [hc, Nat.add_sub_cancel_left, add_mul] at this
  rw [hufCountSub, hc, Nat.add_sub_cancel_left]
  omega

end

/-! The levels a pass looks for. -/

/-- The level found is the deepest down to `b` that holds a leaf, or 0. -/
theorem hufDeepest_spec (cnt : List Nat) (b : Nat) :
    hufDeepest cnt b ≤ b ∧ (hufDeepest cnt b ≠ 0 → hufCount cnt (hufDeepest cnt b) ≠ 0) ∧
      ∀ c, hufDeepest cnt b < c → c ≤ b → hufCount cnt c = 0 := by
  induction b with
  | zero => exact ⟨le_rfl, fun h => absurd rfl h, fun c h h' => by simp only [hufDeepest] at h; omega⟩
  | succ b ih =>
    obtain ⟨hle, hne, habove⟩ := ih
    rw [hufDeepest]
    split_ifs with hempty
    · refine ⟨hle.trans (Nat.le_succ b), hne, fun c hlt hc => ?_⟩
      obtain rfl | hc := Nat.eq_or_lt_of_le hc
      · exact hempty
      · exact habove c hlt (Nat.le_of_lt_succ hc)
    · exact ⟨le_rfl, fun _ => hempty, fun c hlt hc => absurd hc hlt.not_ge⟩

/-- The depth after a pass: lowered past the empty levels, not below `L`. -/
theorem hufTrim_spec {maxLen d : Nat} (cnt : List Nat) (hd : maxLen ≤ d) :
    maxLen ≤ hufTrim maxLen cnt d ∧ hufTrim maxLen cnt d ≤ d ∧
      (∀ c, hufTrim maxLen cnt d < c → c ≤ d → hufCount cnt c = 0) ∧
      (hufTrim maxLen cnt d = maxLen ∨ hufCount cnt (hufTrim maxLen cnt d) ≠ 0) := by
  induction d with
  | zero => exact ⟨hd, le_rfl, fun c h h' => absurd h' h.not_ge, .inl (Nat.le_zero.1 hd).symm⟩
  | succ d ih =>
    rw [hufTrim]
    split_ifs with h
    · obtain ⟨hlt, hempty⟩ := h
      obtain ⟨hge, hle, habove, hend⟩ := ih (Nat.le_of_lt_succ hlt)
      refine ⟨hge, hle.trans (Nat.le_succ d), fun c hc hcd => ?_, hend⟩
      obtain rfl | hcd := Nat.eq_or_lt_of_le hcd
      · exact hempty
      · exact habove c hc (Nat.le_of_lt_succ hcd)
    · exact ⟨hd, le_rfl, fun c hlt hc => absurd hc hlt.not_ge, by omega⟩

/-! What every pass keeps. -/

/-- The counts during the loop, at the depth `D`: those of a full binary tree of `m` leaves and no leaf at the root, and above 15 a leaf at `D`. -/
structure HufLimiting (m D : Nat) (cnt : List Nat) : Prop where
  length : D < cnt.length
  root : hufCount cnt 0 = 0
  full : HufFull (hufCount cnt) D
  leaves : ∑ d ∈ Finset.range cnt.length, hufCount cnt d = m
  deepest : 15 < D → hufCount cnt D ≠ 0

section
variable {m D : Nat} {cnt : List Nat} (h : HufLimiting m D cnt) (hD : 15 < D)
include h hD

/-- Leaves at the deepest level come in pairs. -/
theorem HufLimiting.two_le_deepest : 2 ≤ hufCount cnt D := by
  have hne := h.deepest hD
  have hkraft := h.full.kraft
  obtain ⟨D, rfl⟩ := Nat.exists_eq_add_of_lt (show 0 < D by omega)
  rw [hufKraftSum_succ, pow_succ] at hkraft
  omega

/-- At most 288 leaves cannot all be at the levels from 15 on. -/
theorem HufLimiting.exists_leaf_above (hm : m ≤ 288) : ∃ d, 1 ≤ d ∧ d ≤ 14 ∧ hufCount cnt d ≠ 0 := by
  by_contra! hnone
  have hempty : ∀ d, d ≤ 14 → hufCount cnt d = 0 := fun d hd =>
    (Nat.eq_zero_or_pos d).elim (fun h0 => h0 ▸ h.root) fun hpos => hnone d hpos hd
  have hbound : hufKraftSum (hufCount cnt) D ≤ m * 2 ^ (D - 15) := by
    calc hufKraftSum (hufCount cnt) D ≤ ∑ d ∈ Finset.range (D + 1), hufCount cnt d * 2 ^ (D - 15) := by
          refine Finset.sum_le_sum fun d _ => ?_
          by_cases hd : d ≤ 14
          · simp [hempty d hd]
          · exact Nat.mul_le_mul_left _ (Nat.pow_le_pow_right (by decide) (by omega))
      _ ≤ m * 2 ^ (D - 15) := by
          rw [← Finset.sum_mul, ← h.leaves]
          exact Nat.mul_le_mul_right _ (Finset.sum_le_sum_of_subset (Finset.range_subset_range.2 h.length))
  have hunit : 2 ^ D = 2 ^ 15 * 2 ^ (D - 15) := by rw [← pow_add]; congr 1; omega
  rw [h.full.kraft, hunit] at hbound
  have := Nat.le_of_mul_le_mul_right hbound (by positivity)
  omega

theorem HufLimiting.hufCount_hufPromote (d : Nat) :
    hufCount (hufPromote D cnt) d =
      if d = D then hufCount cnt D - 2 else if d = D - 1 then hufCount cnt (D - 1) + 1 else hufCount cnt d := by
  have hlen := h.length
  rw [hufPromote, hufCountAdd, hufCount_set (by rw [hufCountSub, List.length_set]; omega), hufCountSub, hufCount_set hlen,
    hufCount_set hlen]
  split_ifs <;> omega

/-- The level a pass splits (R129). -/
def hufSplitLevel (D : Nat) (cnt : List Nat) : Nat := hufDeepest (hufPromote D cnt) 14

omit h hD in
theorem hufLimitStep_eq : hufLimitStep 15 D cnt = hufReinsert (hufSplitLevel D cnt) (hufPromote D cnt) := rfl

theorem HufLimiting.hufSplitLevel_spec (hm : m ≤ 288) :
    1 ≤ hufSplitLevel D cnt ∧ hufSplitLevel D cnt ≤ 14 ∧ 1 ≤ hufCount (hufPromote D cnt) (hufSplitLevel D cnt) ∧
      ∀ c, hufSplitLevel D cnt < c → c ≤ 14 → hufCount (hufPromote D cnt) c = 0 := by
  obtain ⟨hle, hne, habove⟩ := hufDeepest_spec (hufPromote D cnt) 14
  obtain ⟨d, h1, h14, hd⟩ := h.exists_leaf_above hD hm
  have hsame : hufCount (hufPromote D cnt) d = hufCount cnt d := by
    rw [h.hufCount_hufPromote hD, if_neg (by omega), if_neg (by omega)]
  have hpos : 1 ≤ hufSplitLevel D cnt := by
    by_contra h0
    exact hd (hsame ▸ habove d (by unfold hufSplitLevel at h0; omega) h14)
  exact ⟨hpos, hle, Nat.one_le_iff_ne_zero.2 (hne (by unfold hufSplitLevel at hpos; omega)), habove⟩

omit h hD in
theorem length_hufLimitStep : (hufLimitStep 15 D cnt).length = cnt.length := by
  simp [hufLimitStep, hufReinsert, hufPromote, hufCountAdd, hufCountSub]

theorem HufLimiting.hufCount_hufLimitStep (hm : m ≤ 288) (d : Nat) :
    hufCount (hufLimitStep 15 D cnt) d =
      if d = hufSplitLevel D cnt then hufCount (hufPromote D cnt) (hufSplitLevel D cnt) - 1
      else if d = hufSplitLevel D cnt + 1 then hufCount (hufPromote D cnt) (hufSplitLevel D cnt + 1) + 2
      else hufCount (hufPromote D cnt) d := by
  have hlen := h.length
  obtain ⟨-, h14, -⟩ := h.hufSplitLevel_spec hD hm
  have hlen' : (hufPromote D cnt).length = cnt.length := by simp [hufPromote, hufCountAdd, hufCountSub]
  rw [hufLimitStep_eq, hufReinsert, hufCountAdd, hufCount_set (by rw [hufCountSub, List.length_set]; omega), hufCountSub,
    hufCount_set (by omega), hufCount_set (by omega)]
  split_ifs <;> omega

/-- A weighted sum over the levels after a pass: two leaves of level `D` and one of level `b` went, one of level `D - 1` and two of level `b + 1`
came. -/
theorem HufLimiting.sum_hufLimitStep (hm : m ≤ 288) (g : Nat → Nat) :
    ∑ d ∈ Finset.range cnt.length, hufCount (hufLimitStep 15 D cnt) d * g d + 2 * g D + g (hufSplitLevel D cnt) =
      ∑ d ∈ Finset.range cnt.length, hufCount cnt d * g d + g (D - 1) + 2 * g (hufSplitLevel D cnt + 1) := by
  have hlen := h.length
  obtain ⟨-, h14, hleaf, -⟩ := h.hufSplitLevel_spec hD hm
  have hpull := sum_hufCountSub (k := 2) hlen g (h.two_le_deepest hD)
  have hlen1 : (hufCountSub cnt D 2).length = cnt.length := List.length_set
  have hpromote := sum_hufCountAdd (cnt := hufCountSub cnt D 2) (d := D - 1) (k := 1) (by omega) g
  have hlen2 : (hufPromote D cnt).length = cnt.length := by simp [hufPromote, hufCountAdd, hufCountSub]
  have hsplit := sum_hufCountSub (cnt := hufPromote D cnt) (d := hufSplitLevel D cnt) (k := 1) (by omega) g hleaf
  have hlen3 : (hufCountSub (hufPromote D cnt) (hufSplitLevel D cnt) 1).length = cnt.length := List.length_set.trans hlen2
  have hreinsert := sum_hufCountAdd (cnt := hufCountSub (hufPromote D cnt) (hufSplitLevel D cnt) 1) (d := hufSplitLevel D cnt + 1)
    (k := 2) (by omega) g
  rw [hlen1] at hpromote
  rw [hlen2] at hsplit
  rw [hlen3] at hreinsert
  rw [hufLimitStep_eq, hufReinsert, hreinsert]
  rw [← hufPromote] at hpromote
  omega

/-- A pass keeps the leaves and the full tree. -/
theorem HufLimiting.step (hm : m ≤ 288) :
    HufLimiting m (hufTrim 15 (hufLimitStep 15 D cnt) D) (hufLimitStep 15 D cnt) := by
  have hlen := h.length
  obtain ⟨h1, h14, -, -⟩ := h.hufSplitLevel_spec hD hm
  obtain ⟨hge, hle, habove, hend⟩ := hufTrim_spec (hufLimitStep 15 D cnt) hD.le
  have hcount := h.hufCount_hufLimitStep hD hm
  have hpromote := h.hufCount_hufPromote hD
  have hbelow : ∀ d, hufTrim 15 (hufLimitStep 15 D cnt) D < d → hufCount (hufLimitStep 15 D cnt) d = 0 := by
    intro d hd
    by_cases hdD : d ≤ D
    · exact habove d hd hdD
    · rw [hcount, if_neg (by omega), if_neg (by omega), hpromote, if_neg (by omega), if_neg (by omega)]
      exact h.full.below d (by omega)
  refine ⟨by rw [length_hufLimitStep]; omega, ?_, .of_le hbelow (n' := cnt.length - 1) (by omega) ?_, ?_, fun hlt => ?_⟩
  · rw [hcount, if_neg (by omega), if_neg (by omega), hpromote, if_neg (by omega), if_neg (by omega), h.root]
  · have hsum := h.sum_hufLimitStep hD hm fun d => 2 ^ (cnt.length - 1 - d)
    have hkraft := h.full.kraft_of_le (n' := cnt.length - 1) (by omega)
    have hD1 : cnt.length - 1 - (D - 1) = (cnt.length - 1 - D) + 1 := by omega
    have hb : cnt.length - 1 - hufSplitLevel D cnt = (cnt.length - 1 - (hufSplitLevel D cnt + 1)) + 1 := by omega
    unfold hufKraftSum at hkraft ⊢
    rw [Nat.sub_add_cancel (by omega)] at hkraft ⊢
    rw [hkraft, hD1, hb, pow_succ, pow_succ] at hsum
    omega
  · have hsum := h.sum_hufLimitStep hD hm fun _ => 1
    simp only [mul_one, h.leaves] at hsum
    rw [length_hufLimitStep]
    omega
  · exact hend.resolve_left (by omega)

/-- A pass leaves fewer leaves below level 15. -/
theorem HufLimiting.fewer_deep_leaves (hm : m ≤ 288) :
    ∑ d ∈ Finset.range cnt.length, hufCount (hufLimitStep 15 D cnt) d * (if 15 < d then 1 else 0) <
      ∑ d ∈ Finset.range cnt.length, hufCount cnt d * (if 15 < d then 1 else 0) := by
  obtain ⟨h1, h14, -, -⟩ := h.hufSplitLevel_spec hD hm
  have hsum := h.sum_hufLimitStep hD hm fun d => if 15 < d then 1 else 0
  rw [if_pos hD, if_neg (by omega : ¬ 15 < hufSplitLevel D cnt), if_neg (by omega : ¬ 15 < hufSplitLevel D cnt + 1)] at hsum
  split_ifs at hsum <;> omega

/-- The pass as R129 has it. -/
theorem HufLimiting.limitsTo (hm : m ≤ 288) {final : Nat → Nat}
    (hfinal : HufLimitsTo (hufTrim 15 (hufLimitStep 15 D cnt) D) (hufCount (hufLimitStep 15 D cnt)) final) :
    HufLimitsTo D (hufCount cnt) final := by
  obtain ⟨h1, h14, hleaf, hnone⟩ := h.hufSplitLevel_spec hD hm
  obtain ⟨hge, hle, habove, hend⟩ := hufTrim_spec (hufLimitStep 15 D cnt) hD.le
  exact .pass D (hufSplitLevel D cnt) _ _ (hufCount (hufPromote D cnt)) _ _ hD (h.two_le_deepest hD) (h.hufCount_hufPromote hD) h1 h14
    hleaf hnone (h.hufCount_hufLimitStep hD hm) hge hle habove hend hfinal

end

/-- The loop, with as many passes allowed as there are leaves below level 15, ends at a depth of at most 15. -/
theorem hufLimitLoop_spec {m k : Nat} (hm : m ≤ 288) : ∀ {D : Nat} {cnt : List Nat}, HufLimiting m D cnt →
    ∑ d ∈ Finset.range cnt.length, hufCount cnt d * (if 15 < d then 1 else 0) ≤ k →
    HufLimitsTo D (hufCount cnt) (hufCount (hufLimitLoop 15 k D cnt)) ∧ ∃ D' ≤ 15, HufLimiting m D' (hufLimitLoop 15 k D cnt) := by
  induction k with
  | zero =>
    intro D cnt h hk
    have hD : D ≤ 15 := by
      by_contra! hD
      exact absurd (h.fewer_deep_leaves hD hm) (by omega)
    exact ⟨.done D _ hD, D, hD, h⟩
  | succ k ih =>
    intro D cnt h hk
    rw [hufLimitLoop]
    split_ifs with hD
    · have hfewer := h.fewer_deep_leaves hD hm
      obtain ⟨hlimits, hend⟩ := ih (h.step hD hm) (by rw [length_hufLimitStep]; omega)
      exact ⟨h.limitsTo hD hm hlimits, hend⟩
    · exact ⟨.done D _ (by omega), D, by omega, h⟩

/-! The level counts. -/

/-- A vector that counts the leaves of a full binary tree of at most 288 leaves, none at the root, some at its last entry. -/
structure HufCountable (vec : List Nat) : Prop where
  length : 2 ≤ vec.length
  root : vec.getD 0 0 = 0
  leaves : vec.sum ≤ 288
  deepest : 1 ≤ vec.getD (vec.length - 1) 0
  full : HufFull (fun d => vec.getD d 0) (vec.length - 1)

/-- The Kraft sum over the levels 1 to 15. -/
theorem HufFull.sum_levels {f : Nat → Nat} (h : HufFull f 15) (hroot : f 0 = 0) :
    ((List.range 15).map fun i => f (i + 1) * 2 ^ (14 - i)).sum = 2 ^ 15 := by
  have hkraft := h.kraft
  rwa [hufKraftSum_root, hroot, zero_mul, zero_add] at hkraft

/-- The counts the loop of R129 ends with. -/
def hufLimited (vec : List Nat) : Nat → Nat := hufCount (hufLimitLoop 15 vec.sum (vec.length - 1) vec)

theorem hufLevelCounts_eq (vec : List Nat) : hufLevelCounts 15 vec = (List.range 15).map fun l => hufLimited vec (l + 1) := rfl

theorem getD_hufLevelCounts (vec : List Nat) {l : Nat} (h : l < 15) : (hufLevelCounts 15 vec).getD l 0 = hufLimited vec (l + 1) := by
  rw [hufLevelCounts_eq, List.getD_eq_getElem _ _ (by simpa using h)]
  simp

section
variable {vec : List Nat} (h : HufCountable vec)
include h

theorem HufCountable.limiting : HufLimiting vec.sum (vec.length - 1) vec where
  length := Nat.sub_lt (by have := h.length; omega) (by decide)
  root := h.root
  full := h.full
  leaves := (list_sum_eq_sum_range vec).symm
  deepest := fun _ => Nat.one_le_iff_ne_zero.1 h.deepest

theorem HufCountable.limited_spec :
    HufLimitsTo (vec.length - 1) (fun d => vec.getD d 0) (hufLimited vec) ∧ hufLimited vec 0 = 0 ∧ HufFull (hufLimited vec) 15 ∧
      ∑ d ∈ Finset.range 16, hufLimited vec d = vec.sum := by
  have hdeep : ∑ d ∈ Finset.range vec.length, hufCount vec d * (if 15 < d then 1 else 0) ≤ vec.sum := by
    rw [list_sum_eq_sum_range]
    exact Finset.sum_le_sum fun d _ => mul_le_of_le_one_right (Nat.zero_le _) (by split_ifs <;> decide)
  obtain ⟨hlimits, D', hD', hend⟩ := hufLimitLoop_spec h.leaves h.limiting hdeep
  have hzero : ∀ d, 15 < d → hufLimited vec d = 0 := fun d hd => hend.full.below d (by omega)
  refine ⟨hlimits, hend.root, hend.full.change hzero, ?_⟩
  have hsum := hend.leaves
  have hlong : ∀ d, (hufLimitLoop 15 vec.sum (vec.length - 1) vec).length ≤ d → hufLimited vec d = 0 := fun d => getD_of_length_le
  rcases Nat.le_total 16 (hufLimitLoop 15 vec.sum (vec.length - 1) vec).length with hle | hle
  · rw [← Finset.eventually_constant_sum (fun d hd => hzero d hd) hle]
    exact hsum
  · rw [Finset.eventually_constant_sum hlong hle]
    exact hsum

theorem HufCountable.sum_hufLevelCounts : (hufLevelCounts 15 vec).sum = vec.sum := by
  obtain ⟨-, hroot, -, hsum⟩ := h.limited_spec
  rw [hufLevelCounts_eq, list_sum_map_range, ← hsum, Finset.sum_range_succ' _ 15, hroot, add_zero]

theorem HufCountable.kraft_hufLevelCounts :
    ((List.range 15).map fun i => (hufLevelCounts 15 vec).getD i 0 * 2 ^ (14 - i)).sum = 2 ^ 15 := by
  obtain ⟨-, hroot, hfull, -⟩ := h.limited_spec
  rw [← hfull.sum_levels hroot]
  refine congrArg List.sum (List.map_congr_left fun i hi => ?_)
  rw [getD_hufLevelCounts vec (List.mem_range.1 hi)]

end

/-- Settles O29: every pass of the loop is one of R129 and keeps the leaves and the Kraft sum; each leaves fewer leaves below level 15. -/
theorem hufLimitingKeepsLeavesAndKraft : Obligations.HufLimitingKeepsLeavesAndKraft := by
  intro vec hlen hroot hsum hdeepest hkraft
  have h : HufCountable vec := ⟨hlen, hroot, hsum, hdeepest, fun d hd => getD_of_length_le (by omega),
    by rw [hufKraftSum_eq_list_sum _ (by omega), hkraft]⟩
  obtain ⟨hlimits, -⟩ := h.limited_spec
  refine ⟨⟨hufLimited vec, hlimits, fun l h1 h15 => ?_⟩, by simp [hufLevelCounts], h.sum_hufLevelCounts, h.kraft_hufLevelCounts⟩
  rw [getD_hufLevelCounts vec (by omega), Nat.sub_add_cancel h1]

end Sys2Proof.Machine
end

section
/-! PROOFS. The outputs of `HufBuild` from its levels (41_huffman.md R130 to R132): counts, bases, symbols, the canonical codes and the depth of any
levels that hold distinct symbols and fill a binary tree. -/

namespace Sys2Proof.Machine

/-! Levels, their sizes, bases and first codes. -/

/-- Level `l`; there is no level 0 and none below the last. -/
def hufLevelAt (levels : List (List Nat)) : Nat → List Nat
  | 0 => []
  | l + 1 => levels.getD l []

/-- The number of symbols of level `l` (R128). -/
def hufSize (levels : List (List Nat)) (l : Nat) : Nat := (hufLevelAt levels l).length

/-- The number of symbols above level `l` (R130). -/
def hufBase (n : Nat → Nat) (l : Nat) : Nat := ∑ j ∈ Finset.range l, n j

/-- The first code of level `l` (R131): twice the code after the level before. -/
def hufFirst (n : Nat → Nat) : Nat → Nat
  | 0 => 0
  | l + 1 => (hufFirst n l + n l) * 2

theorem hufBase_succ (n : Nat → Nat) (l : Nat) : hufBase n (l + 1) = hufBase n l + n l := Finset.sum_range_succ _ _

theorem hufBase_mono (n : Nat → Nat) {l l' : Nat} (h : l ≤ l') : hufBase n l ≤ hufBase n l' :=
  Finset.sum_le_sum_of_subset (Finset.range_subset_range.2 h)

/-- Every place above level `L` lies in one level. -/
theorem exists_level_of_lt_hufBase {n : Nat → Nat} {L j : Nat} (h : j < hufBase n L) :
    ∃ l < L, hufBase n l ≤ j ∧ j < hufBase n l + n l := by
  induction L with
  | zero => exact absurd h (Nat.not_lt_zero j)
  | succ L ih =>
    rcases Nat.lt_or_ge j (hufBase n L) with hlt | hge
    · obtain ⟨l, hl, hj⟩ := ih hlt
      exact ⟨l, hl.trans (Nat.lt_succ_self L), hj⟩
    · exact ⟨L, Nat.lt_succ_self L, hge, hufBase_succ n L ▸ h⟩

/-- The code after a level is the Kraft sum down to the level. -/
theorem hufFirst_add (n : Nat → Nat) (l : Nat) : hufFirst n l + n l = hufKraftSum n l := by
  induction l with
  | zero => rw [hufKraftSum_zero, hufFirst, Nat.zero_add]
  | succ l ih => rw [hufKraftSum_succ, hufFirst, ih, Nat.mul_comm]

theorem hufKraftSum_mul_le (n : Nat → Nat) (l k : Nat) : hufKraftSum n l * 2 ^ k ≤ hufKraftSum n (l + k) := by
  induction k with
  | zero => simp
  | succ k ih =>
    rw [← Nat.add_assoc, hufKraftSum_succ, pow_succ, ← mul_assoc]
    omega

/-- The codes of a level come after those of the levels above, continued to its length. -/
theorem hufFirst_add_mul_le (n : Nat → Nat) {l l' : Nat} (h : l < l') : (hufFirst n l + n l) * 2 ^ (l' - l) ≤ hufFirst n l' := by
  obtain ⟨k, rfl⟩ := Nat.exists_eq_add_of_lt h
  have := hufKraftSum_mul_le n l k
  rw [hufFirst, hufFirst_add, hufFirst_add, show l + k + 1 - l = k + 1 by omega, pow_succ, ← mul_assoc]
  exact Nat.mul_le_mul_right 2 this

/-- In a full tree the codes of a level fit its length. -/
theorem HufFull.hufFirst_add_le {n : Nat → Nat} {L l : Nat} (h : HufFull n L) (hl : l ≤ L) : hufFirst n l + n l ≤ 2 ^ l := by
  obtain ⟨k, rfl⟩ := Nat.exists_eq_add_of_le hl
  have hle := hufKraftSum_mul_le n l k
  rw [h.kraft, pow_add] at hle
  rw [hufFirst_add]
  exact Nat.le_of_mul_le_mul_right hle (by positivity)

/-! The symbols in the order of the levels. -/

theorem hufBase_hufSize_cons (level : List Nat) (rest : List (List Nat)) (l : Nat) :
    hufBase (hufSize (level :: rest)) (l + 2) = level.length + hufBase (hufSize rest) (l + 1) := by
  unfold hufBase
  rw [Finset.sum_range_succ', Finset.sum_range_succ', Finset.sum_range_succ' _ l]
  simp only [hufSize, hufLevelAt, List.getD_cons_succ, List.getD_cons_zero, List.length_nil]
  omega

theorem mem_flatten_iff_exists_mem_hufLevelAt {levels : List (List Nat)} {s : Nat} :
    s ∈ levels.flatten ↔ ∃ l, s ∈ hufLevelAt levels l := by
  rw [List.mem_flatten]
  constructor
  · rintro ⟨level, hmem, hs⟩
    obtain ⟨l, hl, rfl⟩ := List.getElem_of_mem hmem
    exact ⟨l + 1, by rwa [hufLevelAt, List.getD_eq_getElem _ _ hl]⟩
  · rintro ⟨- | l, hs⟩
    · exact absurd hs List.not_mem_nil
    · by_cases hl : l < levels.length
      · rw [hufLevelAt, List.getD_eq_getElem _ _ hl] at hs
        exact ⟨_, List.getElem_mem hl, hs⟩
      · rw [hufLevelAt, List.getD_eq_default _ _ (not_lt.1 hl)] at hs
        exact absurd hs List.not_mem_nil

theorem length_flatten_eq_hufBase (levels : List (List Nat)) :
    levels.flatten.length = hufBase (hufSize levels) (levels.length + 1) := by
  induction levels with
  | nil => rfl
  | cons level rest ih => rw [List.flatten_cons, List.length_append, ih, List.length_cons, hufBase_hufSize_cons]

/-- The symbols of a level stand in the list of all symbols from the level's base on (R132). -/
theorem getD_flatten_hufBase {levels : List (List Nat)} {l i : Nat} (hi : i < hufSize levels l) :
    levels.flatten.getD (hufBase (hufSize levels) l + i) 0 = (hufLevelAt levels l).getD i 0 := by
  induction levels generalizing l with
  | nil => cases l <;> exact absurd hi (Nat.not_lt_zero i)
  | cons level rest ih =>
    obtain - | - | l := l
    · exact absurd hi (Nat.not_lt_zero i)
    · have hbase : hufBase (hufSize (level :: rest)) 1 = 0 := rfl
      rw [hbase, Nat.zero_add, List.flatten_cons]
      exact List.getD_append level rest.flatten 0 i hi
    · rw [hufBase_hufSize_cons, List.flatten_cons, Nat.add_assoc, List.getD_append_right _ _ _ _ (Nat.le_add_right _ _),
        Nat.add_sub_cancel_left]
      exact ih hi

/-! The assignment of codes (R131). -/

/-- Each symbol of each level is assigned the code at its place. -/
theorem mem_hufAssign {n : Nat → Nat} {levels : List (List Nat)} {l : Nat}
    (hn : ∀ j, j < levels.length → (levels.getD j []).length = n (l + j)) {j i : Nat} (hi : i < (levels.getD j []).length) :
    ((levels.getD j []).getD i 0, hufFirst n (l + j) + i, l + j) ∈ hufAssign l (hufFirst n l) levels := by
  induction levels generalizing l j with
  | nil => exact absurd hi (Nat.not_lt_zero i)
  | cons level rest ih =>
    rw [hufAssign, List.mem_append]
    cases j with
    | zero =>
      refine .inl (List.mem_map.2 ⟨(level.getD i 0, hufFirst n l + i), ?_, rfl⟩)
      rw [List.mk_mem_zipIdx_iff_le_and_getElem?_sub]
      refine ⟨Nat.le_add_right _ _, ?_⟩
      have hi : i < level.length := hi
      rw [Nat.add_sub_cancel_left, List.getD_eq_getElem _ _ hi, List.getElem?_eq_getElem hi]
    | succ j =>
      have hhead : level.length = n l := hn 0 (Nat.succ_pos _)
      have hrest := ih (l := l + 1) (fun j hj => by
        rw [Nat.add_right_comm]
        exact hn (j + 1) (Nat.succ_lt_succ hj)) hi
      rw [hhead, List.getD_cons_succ, show l + (j + 1) = l + 1 + j by omega]
      exact .inr hrest

/-- What the codewords written one after the other read as, over the codewords before. -/
theorem read_foldl_write {assigned : List (Nat × Nat × Nat)} (hnodup : (assigned.map Prod.fst).Nodup) (cw : Memory Codeword) :
    (∀ s, s ∉ assigned.map Prod.fst →
      (assigned.foldl (fun cw e => cw.write e.1 { code := BitVec.ofNat 15 e.2.1, len := BitVec.ofNat 4 e.2.2 }) cw).read s =
        cw.read s) ∧
    ∀ e ∈ assigned,
      (assigned.foldl (fun cw e => cw.write e.1 { code := BitVec.ofNat 15 e.2.1, len := BitVec.ofNat 4 e.2.2 }) cw).read e.1 =
        { code := BitVec.ofNat 15 e.2.1, len := BitVec.ofNat 4 e.2.2 } := by
  induction assigned generalizing cw with
  | nil => exact ⟨fun _ _ => rfl, fun e he => absurd he List.not_mem_nil⟩
  | cons a assigned ih =>
    rw [List.map_cons, List.nodup_cons] at hnodup
    obtain ⟨hfresh, hnodup⟩ := hnodup
    obtain ⟨hother, hsame⟩ := ih hnodup (cw.write a.1 { code := BitVec.ofNat 15 a.2.1, len := BitVec.ofNat 4 a.2.2 })
    refine ⟨fun s hs => ?_, fun e he => ?_⟩
    · rw [List.map_cons, List.mem_cons, not_or] at hs
      rw [List.foldl_cons, hother s hs.2, read_write_ne _ _ hs.1]
    · obtain rfl | he := List.mem_cons.1 he
      · rw [List.foldl_cons, hother _ hfresh, read_write_same]
      · exact hsame e he

/-! The outputs. -/

/-- The levels hold distinct symbols, each level in ascending order, and their sizes are the leaf counts of a full binary tree (R128). -/
structure HufLevelsOk (levels : List (List Nat)) : Prop where
  length : levels.length = 15
  nodup : levels.flatten.Nodup
  symbols : ∀ s ∈ levels.flatten, s < 288
  ascending : ∀ l, (hufLevelAt levels l).Pairwise (· < ·)
  full : HufFull (hufSize levels) 15

section
variable {t : HufLevels} (h : HufLevelsOk t.levels)
include h

theorem HufLevelsOk.total_le : t.levels.flatten.length ≤ 288 := by
  have hsub : t.levels.flatten ⊆ List.range 288 := fun s hs => List.mem_range.2 (h.symbols s hs)
  have hle := (List.subperm_of_subset h.nodup hsub).length_le
  rwa [List.length_range] at hle

theorem HufLevelsOk.hufBase_sixteen : hufBase (hufSize t.levels) 16 = t.levels.flatten.length := by
  rw [length_flatten_eq_hufBase, h.length]

theorem HufLevelsOk.hufBase_le {l : Nat} (hl : l ≤ 16) : hufBase (hufSize t.levels) l ≤ 288 :=
  (hufBase_mono _ hl).trans (h.hufBase_sixteen ▸ h.total_le)

theorem HufLevelsOk.hufSize_le (l : Nat) : hufSize t.levels l ≤ 288 := by
  by_cases hl : l ≤ 15
  · have := h.hufBase_le (Nat.succ_le_succ hl)
    rw [hufBase_succ] at this
    omega
  · rw [h.full.below l (not_le.1 hl)]
    exact Nat.zero_le _

theorem HufLevelsOk.le_of_mem {l s : Nat} (hs : s ∈ hufLevelAt t.levels l) : 1 ≤ l ∧ l ≤ 15 := by
  refine ⟨Nat.one_le_iff_ne_zero.2 fun h0 => ?_, ?_⟩
  · rw [h0] at hs
    exact absurd hs List.not_mem_nil
  · by_contra! hl
    have hnil : hufLevelAt t.levels l = [] := List.eq_nil_of_length_eq_zero (h.full.below l hl)
    rw [hnil] at hs
    exact absurd hs List.not_mem_nil

theorem HufLevelsOk.toNat_total : (hufOutputs t).total.toNat = hufBase (hufSize t.levels) 16 := by
  rw [h.hufBase_sixteen]
  exact (BitVec.toNat_ofNat _ _).trans (Nat.mod_eq_of_lt (h.total_le.trans_lt (by decide)))

theorem HufLevelsOk.toNat_lcnt (l : Nat) : ((hufOutputs t).lcnt.read l).toNat = hufSize t.levels l := by
  have hsize := h.hufSize_le l
  have hread : (hufOutputs t).lcnt.read l = BitVec.ofNat 9 (hufSize t.levels l) := by
    simp only [hufOutputs, read_ofList]
    cases l with
    | zero => rfl
    | succ l =>
      rw [if_pos (by omega), Nat.add_sub_cancel]
      exact List.getD_map t.levels [] fun level => BitVec.ofNat 9 level.length
  rw [hread, BitVec.toNat_ofNat, Nat.mod_eq_of_lt (by omega)]

omit h in
/-- The bases add up the sizes (R130). -/
theorem getD_hufBases (b : Nat) (levels : List (List Nat)) {l : Nat} (hl : l < levels.length) :
    (hufBases b (levels.map List.length)).getD l 0 = b + hufBase (hufSize levels) (l + 1) := by
  induction levels generalizing b l with
  | nil => exact absurd hl (Nat.not_lt_zero l)
  | cons level rest ih =>
    rw [List.map_cons, hufBases]
    cases l with
    | zero => rfl
    | succ l => rw [List.getD_cons_succ, ih _ (Nat.lt_of_succ_lt_succ hl), hufBase_hufSize_cons, Nat.add_assoc]

theorem HufLevelsOk.toNat_lbase {l : Nat} (h1 : 1 ≤ l) (h15 : l ≤ 15) :
    ((hufOutputs t).lbase.read l).toNat = hufBase (hufSize t.levels) l := by
  have hbase := h.hufBase_le (l := l) (by omega)
  have hlt : l - 1 < t.levels.length := by rw [h.length]; omega
  have hread : (hufOutputs t).lbase.read l = BitVec.ofNat 9 (hufBase (hufSize t.levels) l) := by
    have hget := getD_hufBases 0 t.levels hlt
    have hlen : l - 1 < (hufBases 0 (t.levels.map List.length)).length := by rwa [length_hufBases, List.length_map]
    rw [List.getD_eq_getElem _ _ hlen, Nat.zero_add, Nat.sub_add_cancel h1] at hget
    simp only [hufOutputs, read_ofList]
    rw [if_pos h1, List.getD_eq_getElem _ _ (by rwa [List.length_map]), List.getElem_map, hget]
  rw [hread, BitVec.toNat_ofNat, Nat.mod_eq_of_lt (by omega)]

theorem HufLevelsOk.toNat_syms {j : Nat} (hj : j < t.levels.flatten.length) :
    ((hufOutputs t).syms.read j).toNat = t.levels.flatten.getD j 0 := by
  have hlt := h.symbols _ (List.getElem_mem hj)
  simp only [hufOutputs, read_ofList]
  rw [if_pos (Nat.zero_le j), Nat.sub_zero, List.getD_eq_getElem _ _ (by rwa [List.length_map]), List.getElem_map,
    List.getD_eq_getElem _ _ hj, BitVec.toNat_ofNat, Nat.mod_eq_of_lt (by omega)]

/-- The symbol at place `i` of level `l` (R132). -/
theorem HufLevelsOk.toNat_syms_at {l i : Nat} (h15 : l ≤ 15) (hi : i < hufSize t.levels l) :
    ((hufOutputs t).syms.read (hufBase (hufSize t.levels) l + i)).toNat = (hufLevelAt t.levels l).getD i 0 := by
  have hle := hufBase_mono (hufSize t.levels) (Nat.succ_le_succ h15)
  rw [h.hufBase_sixteen, hufBase_succ] at hle
  rw [h.toNat_syms (by omega), getD_flatten_hufBase hi]

theorem HufLevelsOk.nodup_assigned : ((hufAssign 1 0 t.levels).map Prod.fst).Nodup := by
  rw [map_fst_hufAssign]
  exact h.nodup

/-- The codeword of the symbol at place `i` of level `l` (R131). -/
theorem HufLevelsOk.read_cw_at {l i : Nat} (hi : i < hufSize t.levels l) :
    (hufOutputs t).cw.read ((hufLevelAt t.levels l).getD i 0) =
      { code := BitVec.ofNat 15 (hufFirst (hufSize t.levels) l + i), len := BitVec.ofNat 4 l } := by
  obtain ⟨-, hassigned⟩ := read_foldl_write h.nodup_assigned []
  cases l with
  | zero => exact absurd hi (Nat.not_lt_zero i)
  | succ l =>
    have hmem := mem_hufAssign (n := hufSize t.levels) (levels := t.levels) (l := 1)
      (fun j _ => by rw [Nat.add_comm 1 j]; rfl) (j := l) hi
    rw [Nat.add_comm 1 l] at hmem
    exact hassigned _ hmem

/-- A symbol in no level has the codeword `(0, 0)` (R131). -/
theorem HufLevelsOk.read_cw_of_not_mem {s : Nat} (hs : s ∉ t.levels.flatten) :
    (hufOutputs t).cw.read s = { code := 0#15, len := 0#4 } := by
  obtain ⟨hother, -⟩ := read_foldl_write h.nodup_assigned []
  exact hother s (by rwa [map_fst_hufAssign])

/-- The code of a place, in its 15 bits, fits the length of the level. -/
theorem HufLevelsOk.code_lt {l i : Nat} (h15 : l ≤ 15) (hi : i < hufSize t.levels l) :
    hufFirst (hufSize t.levels) l + i < 2 ^ l ∧
      (BitVec.ofNat 15 (hufFirst (hufSize t.levels) l + i)).toNat = hufFirst (hufSize t.levels) l + i := by
  have hle := h.full.hufFirst_add_le h15
  have hpow : 2 ^ l ≤ 2 ^ 15 := Nat.pow_le_pow_right (by decide) h15
  exact ⟨by omega, (BitVec.toNat_ofNat _ _).trans (Nat.mod_eq_of_lt (by omega))⟩

/-- The length of a symbol is its level. -/
theorem HufLevelsOk.len_eq_of_mem {l s : Nat} (hs : s ∈ hufLevelAt t.levels l) : ((hufOutputs t).cw.read s).len.toNat = l := by
  obtain ⟨-, h15⟩ := h.le_of_mem hs
  obtain ⟨i, hi, rfl⟩ := List.getElem_of_mem hs
  have hread := h.read_cw_at (l := l) (i := i) hi
  rw [List.getD_eq_getElem _ _ hi] at hread
  rw [hread]
  exact (BitVec.toNat_ofNat _ _).trans (Nat.mod_eq_of_lt (by omega))

/-- A symbol of positive length stands in the level of that length. -/
theorem HufLevelsOk.mem_of_len_ne_zero {s : Nat} (hs : ((hufOutputs t).cw.read s).len ≠ 0#4) :
    s ∈ hufLevelAt t.levels ((hufOutputs t).cw.read s).len.toNat := by
  by_cases hmem : s ∈ t.levels.flatten
  · obtain ⟨l, hl⟩ := mem_flatten_iff_exists_mem_hufLevelAt.1 hmem
    rwa [h.len_eq_of_mem hl]
  · rw [h.read_cw_of_not_mem hmem] at hs
    exact absurd rfl hs

/-- A symbol of positive length has a place in the level of that length, and its code is the code of the place. -/
theorem HufLevelsOk.exists_place {s : Nat} (hs : ((hufOutputs t).cw.read s).len ≠ 0#4) :
    ∃ i < hufSize t.levels ((hufOutputs t).cw.read s).len.toNat,
      s = (hufLevelAt t.levels ((hufOutputs t).cw.read s).len.toNat).getD i 0 ∧
      ((hufOutputs t).cw.read s).code.toNat = hufFirst (hufSize t.levels) ((hufOutputs t).cw.read s).len.toNat + i := by
  have hmem := h.mem_of_len_ne_zero hs
  obtain ⟨-, h15⟩ := h.le_of_mem hmem
  generalize ((hufOutputs t).cw.read s).len.toNat = l at hmem h15 ⊢
  obtain ⟨i, hi, rfl⟩ := List.getElem_of_mem hmem
  have hread := h.read_cw_at (l := l) (i := i) hi
  obtain ⟨-, hcode⟩ := h.code_lt h15 hi
  rw [List.getD_eq_getElem _ _ hi] at hread
  exact ⟨i, hi, (List.getD_eq_getElem _ _ hi).symm, by rw [hread, hcode]⟩

/-- A level holds the symbols of its length in ascending order. -/
theorem HufLevelsOk.hufLevelAt_eq_filter {l : Nat} (hl : 1 ≤ l) :
    hufLevelAt t.levels l = (List.range 288).filter fun s => decide (((hufOutputs t).cw.read s).len.toNat = l) := by
  have hrange : ((List.range 288).filter fun s => decide (((hufOutputs t).cw.read s).len.toNat = l)).Pairwise (· < ·) :=
    List.pairwise_lt_range.filter _
  refine List.Perm.eq_of_pairwise (fun _ _ _ _ h1 h2 => absurd h1 h2.asymm) (h.ascending l) hrange ?_
  refine (List.perm_ext_iff_of_nodup ((h.ascending l).imp ne_of_lt) (hrange.imp ne_of_lt)).2 fun s => ?_
  rw [List.mem_filter, List.mem_range, decide_eq_true_eq]
  constructor
  · intro hs
    exact ⟨h.symbols s (mem_flatten_iff_exists_mem_hufLevelAt.2 ⟨l, hs⟩), h.len_eq_of_mem hs⟩
  · rintro ⟨-, rfl⟩
    exact h.mem_of_len_ne_zero fun h0 => absurd hl (by rw [h0]; decide)

/-- The depth is the deepest level that holds a symbol (R130). -/
theorem HufLevelsOk.depth_spec :
    1 ≤ (hufOutputs t).depth.toNat ∧ hufSize t.levels (hufOutputs t).depth.toNat ≠ 0 ∧
      ∀ l, (hufOutputs t).depth.toNat < l → hufSize t.levels l = 0 := by
  obtain ⟨hle, hne, habove⟩ := hufDeepest_spec (0 :: t.levels.map List.length) t.levels.length
  have hcount : hufCount (0 :: t.levels.map List.length) = hufSize t.levels := by
    funext l
    cases l with
    | zero => rfl
    | succ l => exact List.getD_map t.levels [] List.length
  rw [hcount, h.length] at hne habove
  rw [h.length] at hle
  have hdepth : (hufOutputs t).depth.toNat = hufDeepest (0 :: t.levels.map List.length) 15 := by
    simp only [hufOutputs, h.length]
    exact (BitVec.toNat_ofNat _ _).trans (Nat.mod_eq_of_lt (by omega))
  rw [hdepth]
  have hbelow : ∀ l, hufDeepest (0 :: t.levels.map List.length) 15 < l → hufSize t.levels l = 0 := fun l hl =>
    (Nat.lt_or_ge 15 l).elim (h.full.below l) (habove l hl)
  have hpos : hufDeepest (0 :: t.levels.map List.length) 15 ≠ 0 := fun h0 => by
    have hkraft := h.full.kraft
    rw [hufKraftSum, Finset.sum_eq_zero] at hkraft
    · exact absurd hkraft (by decide)
    · rintro (- | l) -
      · simp [hufSize, hufLevelAt]
      · rw [hbelow (l + 1) (by omega), zero_mul]
  exact ⟨Nat.one_le_iff_ne_zero.2 hpos, hne hpos, hbelow⟩

end

end Sys2Proof.Machine
end

section
/-! PROOFS. The levels of `HufBuild` (41_huffman.md R123, R128, R130): each level is its share of the sorted symbols in ascending order, of the size the
limited counts give it; for every frequency array the levels hold distinct symbols and fill a binary tree. -/

namespace Sys2Proof.Machine

/-! The sorted symbols. -/

/-- `sorted` (R125) of this hardware. -/
def hufSorted (freq : Memory (BitVec 32)) : List (Nat × Nat) := hufSort (hufLive 288 freq)

/-- The symbols of `sorted`. -/
def hufSortedSyms (freq : Memory (BitVec 32)) : List Nat := (hufSorted freq).map Prod.fst

section
variable {freq : Memory (BitVec 32)}

theorem hufSorted_perm (freq : Memory (BitVec 32)) : (hufSorted freq).Perm (hufLive 288 freq) := List.perm_insertionSort _ _

theorem mem_hufSorted {e : Nat × Nat} : e ∈ hufSorted freq ↔ e.1 < 288 ∧ e.2 = (freq.read e.1).toNat ∧ 0 < e.2 :=
  (hufSorted_perm freq).mem_iff.trans mem_hufLive

theorem mem_hufSortedSyms {s : Nat} : s ∈ hufSortedSyms freq ↔ s < 288 ∧ freq.read s ≠ 0#32 := by
  rw [hufSortedSyms, ((hufSorted_perm freq).map Prod.fst).mem_iff, map_fst_hufLive]
  simp

theorem nodup_hufSortedSyms (freq : Memory (BitVec 32)) : (hufSortedSyms freq).Nodup := by
  rw [hufSortedSyms, ((hufSorted_perm freq).map Prod.fst).nodup_iff, map_fst_hufLive]
  exact List.nodup_range.filter _

theorem length_hufSorted_le (freq : Memory (BitVec 32)) : (hufSorted freq).length ≤ 288 := by
  rw [(hufSorted_perm freq).length_eq, hufLive]
  exact (List.length_filter_le _ _).trans (by simp)

/-- The counts of the limited tree of the sorted symbols. -/
def hufSortedCounts (freq : Memory (BitVec 32)) : Nat → Nat := hufLimited (hufTreeVec (hufSorted freq))

section
variable (h : 2 ≤ (hufSorted freq).length)
include h

/-- The tree vector of two or more live symbols is one that R129 limits. -/
theorem hufCountable_hufTreeVec : HufCountable (hufTreeVec (hufSorted freq)) := by
  obtain ⟨-, hvec, hsum⟩ := hufTreeVec_spec (sorted := hufSorted freq) (by omega)
  obtain ⟨hroot, hdeep⟩ := hvec.root.resolve_left fun hone => by
    rw [hone, List.sum_singleton] at hsum
    omega
  exact ⟨hdeep, hroot, hsum ▸ length_hufSorted_le freq, hvec.deepest, hvec.full⟩

theorem hufFull_hufSortedCounts : HufFull (hufSortedCounts freq) 15 := by
  obtain ⟨-, -, hfull, -⟩ := (hufCountable_hufTreeVec h).limited_spec
  exact hfull

theorem hufBase_hufSortedCounts_sixteen : hufBase (hufSortedCounts freq) 16 = (hufSorted freq).length := by
  obtain ⟨-, -, -, hsum⟩ := (hufCountable_hufTreeVec h).limited_spec
  obtain ⟨-, -, hleaves⟩ := hufTreeVec_spec (sorted := hufSorted freq) (by omega)
  exact hsum.trans hleaves

theorem hufBase_hufSortedCounts_le (l : Nat) : hufBase (hufSortedCounts freq) l ≤ (hufSorted freq).length := by
  rw [← hufBase_hufSortedCounts_sixteen h]
  rcases Nat.le_total l 16 with hl | hl
  · exact hufBase_mono _ hl
  · exact (Finset.eventually_constant_sum (fun d hd => (hufFull_hufSortedCounts h).below d hd) hl).le

end

end

/-! Cutting a list into levels. -/

theorem getD_hufCut (cs l : List Nat) (j : Nat) : (hufCut cs l).getD j [] = (l.drop (cs.take j).sum).take (cs.getD j 0) := by
  induction cs generalizing l j with
  | nil => simp [hufCut]
  | cons c cs ih =>
    cases j with
    | zero => simp [hufCut]
    | succ j => rw [hufCut, List.getD_cons_succ, ih, List.take_succ_cons, List.sum_cons, List.getD_cons_succ, List.drop_drop]

theorem flatten_hufCut {cs l : List Nat} (h : cs.sum = l.length) : (hufCut cs l).flatten = l := by
  induction cs generalizing l with
  | nil => rw [List.sum_nil] at h; rw [hufCut, List.eq_nil_of_length_eq_zero h.symm, List.flatten_nil]
  | cons c cs ih =>
    rw [List.sum_cons] at h
    rw [hufCut, List.flatten_cons, ih (by rw [List.length_drop]; omega), List.take_append_drop]

/-- The counts above a level, as its base. -/
theorem sum_take_hufLevelCounts {vec : List Nat} (hroot : hufLimited vec 0 = 0) {l : Nat} (hl : l ≤ 15) :
    ((hufLevelCounts 15 vec).take l).sum = hufBase (hufLimited vec) (l + 1) := by
  rw [hufLevelCounts_eq, ← List.map_take, List.take_range, min_eq_left hl, list_sum_map_range, hufBase, Finset.sum_range_succ',
    hroot, add_zero]

theorem hufLevelAt_map_hufOrderLevel (levels : List (List Nat)) (l : Nat) :
    hufLevelAt (levels.map (hufOrderLevel .symbol)) l = hufOrderLevel .symbol (hufLevelAt levels l) := by
  cases l with
  | zero => rfl
  | succ l => exact List.getD_map levels [] (hufOrderLevel .symbol)

/-! The levels of two or more live symbols. -/

section
variable {freq : Memory (BitVec 32)} (h : 2 ≤ (hufSorted freq).length)
include h

theorem hufLevels_of_two_live : hufLevels 288 15 .symbol freq =
    { levels := (hufCut (hufLevelCounts 15 (hufTreeVec (hufSorted freq))) (hufSortedSyms freq)).map (hufOrderLevel .symbol)
      limited := decide (15 < (hufTreeVec (hufSorted freq)).length - 1)
      degen := false } := by
  have hlive : ¬ (hufLive 288 freq).length ≤ 1 := by
    rw [← (hufSorted_perm freq).length_eq]
    omega
  rw [hufLevels, if_neg hlive]
  rfl

/-- Level `l`, before it is ordered, holds its share of the sorted symbols. -/
theorem hufLevelAt_hufCut (l : Nat) :
    hufLevelAt (hufCut (hufLevelCounts 15 (hufTreeVec (hufSorted freq))) (hufSortedSyms freq)) l =
      ((hufSortedSyms freq).drop (hufBase (hufSortedCounts freq) l)).take (hufSortedCounts freq l) := by
  obtain ⟨-, hroot, hfull, -⟩ := (hufCountable_hufTreeVec h).limited_spec
  cases l with
  | zero => simp [hufLevelAt, hufSortedCounts, hroot]
  | succ l =>
    rw [hufLevelAt, getD_hufCut]
    rcases Nat.lt_or_ge l 15 with hl | hl
    · rw [getD_hufLevelCounts _ hl, sum_take_hufLevelCounts hroot hl.le]
      rfl
    · have hempty : hufSortedCounts freq (l + 1) = 0 := hfull.below (l + 1) (by omega)
      rw [hempty, List.getD_eq_default _ _ (by simpa [hufLevelCounts] using hl), List.take_zero, List.take_zero]

theorem hufLevelAt_hufLevels_perm (l : Nat) : (hufLevelAt (hufLevels 288 15 .symbol freq).levels l).Perm
    (((hufSortedSyms freq).drop (hufBase (hufSortedCounts freq) l)).take (hufSortedCounts freq l)) := by
  rw [← hufLevelAt_hufCut h, hufLevels_of_two_live h, hufLevelAt_map_hufOrderLevel]
  exact hufOrderLevel_symbol_perm _

theorem hufSize_hufLevels : hufSize (hufLevels 288 15 .symbol freq).levels = hufSortedCounts freq := by
  funext l
  have hle := hufBase_hufSortedCounts_le h (l + 1)
  rw [hufBase_succ] at hle
  rw [hufSize, (hufLevelAt_hufLevels_perm h l).length_eq, List.length_take, List.length_drop, hufSortedSyms, List.length_map]
  omega

/-- The sorted symbol at a place of the level's share stands in the level (R130). -/
theorem mem_hufLevelAt_of_place {l j : Nat} (h1 : hufBase (hufSortedCounts freq) l ≤ j)
    (h2 : j < hufBase (hufSortedCounts freq) l + hufSortedCounts freq l) :
    ((hufSorted freq).getD j (0, 0)).1 ∈ hufLevelAt (hufLevels 288 15 .symbol freq).levels l := by
  have hle := hufBase_hufSortedCounts_le h (l + 1)
  rw [hufBase_succ] at hle
  rw [(hufLevelAt_hufLevels_perm h l).mem_iff, List.getD_eq_getElem _ _ (by omega), List.mem_iff_getElem]
  have hlen : (hufSortedSyms freq).length = (hufSorted freq).length := List.length_map _
  refine ⟨j - hufBase (hufSortedCounts freq) l, by rw [List.length_take, List.length_drop]; omega, ?_⟩
  rw [List.getElem_take, List.getElem_drop]
  simp only [hufSortedSyms, List.getElem_map, Nat.add_sub_cancel' h1]

theorem flatten_hufLevels_perm : (hufLevels 288 15 .symbol freq).levels.flatten.Perm (hufSortedSyms freq) := by
  have hsum : (hufLevelCounts 15 (hufTreeVec (hufSorted freq))).sum = (hufSortedSyms freq).length := by
    obtain ⟨-, -, hleaves⟩ := hufTreeVec_spec (sorted := hufSorted freq) (by omega)
    rw [(hufCountable_hufTreeVec h).sum_hufLevelCounts, hleaves, hufSortedSyms, List.length_map]
  rw [hufLevels_of_two_live h, ← List.flatMap_def]
  refine (List.Perm.flatMap_left _ fun level _ => hufOrderLevel_symbol_perm level).trans ?_
  rw [List.flatMap_id', flatten_hufCut hsum]

theorem hufLevelsOk_of_two_live : HufLevelsOk (hufLevels 288 15 .symbol freq).levels where
  length := length_hufLevels freq
  nodup := (flatten_hufLevels_perm h).nodup_iff.2 (nodup_hufSortedSyms freq)
  symbols := (hufLevels_bound freq).2
  ascending := fun l => by
    have hnodup : (hufLevelAt (hufLevels 288 15 .symbol freq).levels l).Nodup :=
      (hufLevelAt_hufLevels_perm h l).nodup_iff.2
        ((nodup_hufSortedSyms freq).sublist ((List.take_sublist _ _).trans (List.drop_sublist _ _)))
    have hle : (hufLevelAt (hufLevels 288 15 .symbol freq).levels l).Pairwise (· ≤ ·) := by
      rw [hufLevels_of_two_live h, hufLevelAt_map_hufOrderLevel]
      exact List.pairwise_insertionSort _ _
    exact (hle.and hnodup).imp fun ⟨hle, hne⟩ => lt_of_le_of_ne hle hne
  full := hufSize_hufLevels h ▸ hufFull_hufSortedCounts h

end

/-! The degenerate levels (R123), and all arrays. -/

theorem hufDegenEntries_eq_pair (live : List (Nat × Nat)) : ∃ x y, x < y ∧ hufDegenEntries live = [x, y] := by
  cases live with
  | nil => exact ⟨0, 1, by decide, rfl⟩
  | cons e live =>
    by_cases he : e.1 = 0
    · exact ⟨0, 1, by decide, by simp [hufDegenEntries, he]⟩
    · exact ⟨0, e.1, by omega, by simp [hufDegenEntries, he]⟩

theorem hufLevelAt_hufDegenLevels (x y l : Nat) : hufLevelAt (hufDegenLevels x y).levels l = if l = 1 then [x, y] else [] := by
  obtain - | - | l := l
  · rfl
  · rfl
  · rw [if_neg (by omega), hufLevelAt, hufDegenLevels, List.getD_cons_succ]
    by_cases hl : l < 14
    · exact List.getD_replicate _ hl
    · exact List.getD_eq_default _ _ (by rw [List.length_replicate]; omega)

theorem hufLevelsOk_hufDegenLevels {x y : Nat} (hxy : x < y) (hsym : ∀ s ∈ (hufDegenLevels x y).levels.flatten, s < 288) :
    HufLevelsOk (hufDegenLevels x y).levels where
  length := rfl
  nodup := by simp [hufDegenLevels, hxy.ne]
  symbols := hsym
  ascending := fun l => by
    rw [hufLevelAt_hufDegenLevels]
    split_ifs
    · exact List.pairwise_pair.2 hxy
    · exact .nil
  full := by
    have hsize : hufSize (hufDegenLevels x y).levels = fun l => if l = 1 then 2 else 0 := by
      funext l
      rw [hufSize, hufLevelAt_hufDegenLevels]
      split_ifs <;> rfl
    rw [hsize]
    exact ⟨fun l hl => if_neg (by omega), by decide⟩

theorem hufLevels_of_one_live {freq : Memory (BitVec 32)} (h : (hufSorted freq).length ≤ 1) :
    ∃ x y, x < y ∧ hufDegenEntries (hufLive 288 freq) = [x, y] ∧ hufLevels 288 15 .symbol freq = hufDegenLevels x y := by
  obtain ⟨x, y, hxy, hentries⟩ := hufDegenEntries_eq_pair (hufLive 288 freq)
  rw [(hufSorted_perm freq).length_eq] at h
  refine ⟨x, y, hxy, hentries, ?_⟩
  rw [hufLevels, if_pos h, hentries]
  rfl

theorem hufLevelsOk (freq : Memory (BitVec 32)) : HufLevelsOk (hufLevels 288 15 .symbol freq).levels := by
  rcases Nat.lt_or_ge 1 (hufSorted freq).length with h | h
  · exact hufLevelsOk_of_two_live h
  · have hsym := (hufLevels_bound freq).2
    obtain ⟨x, y, hxy, -, heq⟩ := hufLevels_of_one_live h
    rw [heq] at hsym ⊢
    exact hufLevelsOk_hufDegenLevels hxy hsym

end Sys2Proof.Machine
end

section
/-! PROOFS. The code of `HufBuild` for every frequency array (41_huffman.md R128 to R132, R138): it is canonical, free of prefixes, follows the
frequencies and is determined by its lengths. -/

namespace Sys2Proof.Machine

/-! Canonical codes. -/

section
variable {freq : Memory (BitVec 32)}

theorem hufBuild_limited_of_two_live (h : 2 ≤ (hufSorted freq).length) :
    (hufBuild freq).limited = decide (15 < (hufTreeVec (hufSorted freq)).length - 1) := by
  rw [hufBuild_eq_hufOutputs, hufLevels_of_two_live h]
  rfl

theorem toNat_lcnt_hufBuild (freq : Memory (BitVec 32)) (l : Nat) :
    ((hufBuild freq).lcnt.read l).toNat = hufSize (hufLevels 288 15 .symbol freq).levels l :=
  (hufLevelsOk freq).toNat_lcnt l

theorem toNat_lbase_hufBuild (freq : Memory (BitVec 32)) {l : Nat} (h1 : 1 ≤ l) (h15 : l ≤ 15) :
    ((hufBuild freq).lbase.read l).toNat = hufBase (hufSize (hufLevels 288 15 .symbol freq).levels) l :=
  (hufLevelsOk freq).toNat_lbase h1 h15

/-- With two or more live symbols the counts are the limited ones, and the sorted symbol at a place has the length of the level the place is in. -/
theorem hufBuild_counts_and_lengths (h : 2 ≤ (hufSorted freq).length) :
    (∀ l, 1 ≤ l → l ≤ 15 →
      ((hufBuild freq).lcnt.read l).toNat = (hufLevelCounts 15 (hufTreeVec (hufSorted freq))).getD (l - 1) 0) ∧
    ∀ l j, 1 ≤ l → l ≤ 15 → ((hufBuild freq).lbase.read l).toNat ≤ j →
      j < ((hufBuild freq).lbase.read l).toNat + ((hufBuild freq).lcnt.read l).toNat →
      ((hufBuild freq).cw.read ((hufSorted freq).getD j (0, 0)).1).len.toNat = l := by
  refine ⟨fun l h1 h15 => ?_, fun l j h1 h15 hge hlt => ?_⟩
  · rw [toNat_lcnt_hufBuild, hufSize_hufLevels h, getD_hufLevelCounts _ (by omega), Nat.sub_add_cancel h1]
    rfl
  · rw [toNat_lbase_hufBuild freq h1 h15, hufSize_hufLevels h] at hge hlt
    rw [toNat_lcnt_hufBuild, hufSize_hufLevels h] at hlt
    exact (hufLevelsOk freq).len_eq_of_mem (mem_hufLevelAt_of_place h hge hlt)

/-- A symbol that stands nowhere in `SYMS` is in no level. -/
theorem not_mem_levels_of_not_mem_syms {s : Nat}
    (hs : ∀ i, i < (hufBuild freq).total.toNat → ((hufBuild freq).syms.read i).toNat ≠ s) :
    s ∉ (hufLevels 288 15 .symbol freq).levels.flatten := by
  have h := hufLevelsOk freq
  intro hmem
  obtain ⟨i, hi, rfl⟩ := List.getElem_of_mem hmem
  have htotal : (hufBuild freq).total.toNat = (hufLevels 288 15 .symbol freq).levels.flatten.length :=
    h.toNat_total.trans h.hufBase_sixteen
  refine hs i (htotal ▸ hi) ((h.toNat_syms hi).trans ?_)
  rw [List.getD_eq_getElem _ _ hi]

/-- Settles O31: the outputs read off from the levels, whose sizes are the limited counts of the sorted symbols. -/
theorem hufCodesAreCanonical : Obligations.HufCodesAreCanonical := by
  rintro freq _ rfl
  have h := hufLevelsOk freq
  refine ⟨?_, BitVec.eq_of_toNat_eq (toNat_lbase_hufBuild freq le_rfl (by decide)), fun l h1 h15 => ?_, ?_, ?_, ⟨hufFirst (hufSize (hufLevels 288 15 .symbol freq).levels), rfl, fun l _ => ?_,
    fun l i h1 h15 hi => ?_⟩, fun l i j h1 h15 hij hj => ?_, fun s hs => ?_⟩
  · rintro _ _ rfl rfl htwo
    have hlimited := hufBuild_limited_of_two_live htwo
    obtain ⟨hcounts, hlengths⟩ := hufBuild_counts_and_lengths htwo
    exact ⟨by rw [hlimited]; exact decide_eq_true_iff, hcounts, hlengths⟩
  · rw [toNat_lbase_hufBuild freq (by omega) (by omega), toNat_lbase_hufBuild freq h1 h15.le, toNat_lcnt_hufBuild, hufBase_succ]
  · rw [toNat_lbase_hufBuild freq (by decide) (by decide), toNat_lcnt_hufBuild, ← hufBase_succ]
    exact h.toNat_total
  · obtain ⟨hpos, hne, hbelow⟩ := h.depth_spec
    refine ⟨hpos, fun h0 => hne ?_, fun l hl => BitVec.eq_of_toNat_eq ?_⟩
    · rw [← toNat_lcnt_hufBuild]
      exact congrArg BitVec.toNat h0
    · rw [toNat_lcnt_hufBuild]
      exact hbelow l hl
  · rw [toNat_lcnt_hufBuild]
    rfl
  · rw [toNat_lcnt_hufBuild] at hi
    obtain ⟨hlt, -⟩ := h.code_lt h15 hi
    refine ⟨hlt, ?_⟩
    rw [toNat_lbase_hufBuild freq h1 h15]
    exact (congrArg _ (h.toNat_syms_at h15 hi)).trans (h.read_cw_at hi)
  · rw [toNat_lcnt_hufBuild] at hj
    rw [toNat_lbase_hufBuild freq h1 h15]
    refine (h.toNat_syms_at h15 (hij.trans hj)).trans_lt (lt_of_lt_of_eq ?_ (h.toNat_syms_at h15 hj).symm)
    rw [List.getD_eq_getElem _ _ (hij.trans hj), List.getD_eq_getElem _ _ hj]
    exact List.pairwise_iff_getElem.1 (h.ascending l) i j _ _ hij
  · exact h.read_cw_of_not_mem (not_mem_levels_of_not_mem_syms hs)

/-! No codeword begins another. -/

/-- Settles O32: at equal lengths the places differ; a longer code, cut to the shorter length, comes after all codes of that length. -/
theorem hufCodeIsPrefixFree : Obligations.HufCodeIsPrefixFree := by
  intro freq s u hne hs hu hle
  have h := hufLevelsOk freq
  rw [hufBuild_eq_hufOutputs] at hs hu hle ⊢
  obtain ⟨i, hi, hsi, hscode⟩ := h.exists_place hs
  obtain ⟨j, -, huj, hucode⟩ := h.exists_place hu
  rw [hscode, hucode]
  rcases Nat.lt_or_eq_of_le hle with hlt | heq
  · refine (lt_of_lt_of_le (Nat.add_lt_add_left hi _) ?_).ne'
    rw [Nat.le_div_iff_mul_le (by positivity)]
    exact (hufFirst_add_mul_le _ hlt).trans (Nat.le_add_right _ _)
  · rw [← heq, Nat.sub_self, pow_zero, Nat.div_one]
    intro hcode
    obtain rfl : j = i := Nat.add_left_cancel hcode
    rw [← heq] at huj
    exact hne (hsi.trans huj.symm)

/-! The code from its lengths. -/

/-- Settles O34: the lengths give the levels, and the levels give the codes. -/
theorem hufCodesFollowFromLengths : Obligations.HufCodesFollowFromLengths := by
  intro freq freq' hlen
  have hlevels : (hufLevels 288 15 .symbol freq).levels = (hufLevels 288 15 .symbol freq').levels := by
    refine List.ext_getElem ((hufLevelsOk freq).length.trans (hufLevelsOk freq').length.symm) fun l h1 h2 => ?_
    rw [← List.getD_eq_getElem _ [] h1, ← List.getD_eq_getElem _ [] h2]
    refine ((hufLevelsOk freq).hufLevelAt_eq_filter (Nat.succ_pos l)).trans
      (Eq.trans ?_ ((hufLevelsOk freq').hufLevelAt_eq_filter (Nat.succ_pos l)).symm)
    exact List.filter_congr fun s hs => by rw [← hufBuild_eq_hufOutputs, ← hufBuild_eq_hufOutputs, hlen s (List.mem_range.1 hs)]
  rw [hufBuild_eq_hufOutputs, hufBuild_eq_hufOutputs]
  simp only [hufOutputs, hlevels]

/-! Lengths and frequencies. -/

theorem two_le_length_hufSorted {s u : Nat} (hs : s < 288) (hu : u < 288) (hne : s ≠ u) (hls : freq.read s ≠ 0#32)
    (hlu : freq.read u ≠ 0#32) : 2 ≤ (hufSorted freq).length := by
  rw [(hufSorted_perm freq).length_eq]
  exact one_lt_length_hufLive hs hu hne hls hlu

/-- A single live symbol is an entry of the degenerate table. -/
theorem mem_hufDegenEntries {live : List (Nat × Nat)} {e : Nat × Nat} (hlen : live.length ≤ 1) (he : e ∈ live) :
    e.1 ∈ hufDegenEntries live := by
  obtain - | ⟨a, - | ⟨b, live⟩⟩ := live
  · exact absurd he List.not_mem_nil
  · obtain rfl := List.mem_singleton.1 he
    by_cases h0 : e.1 = 0 <;> simp [hufDegenEntries, h0]
  · simp at hlen

/-- Every live symbol stands in a level. -/
theorem mem_levels_of_live {s : Nat} (hs : s < 288) (hlive : freq.read s ≠ 0#32) :
    s ∈ (hufLevels 288 15 .symbol freq).levels.flatten := by
  rcases Nat.lt_or_ge 1 (hufSorted freq).length with h | h
  · exact (flatten_hufLevels_perm h).mem_iff.2 (mem_hufSortedSyms.2 ⟨hs, hlive⟩)
  · obtain ⟨x, y, -, hentries, heq⟩ := hufLevels_of_one_live h
    have hmem : (s, (freq.read s).toNat) ∈ hufLive 288 freq :=
      mem_hufLive.2 ⟨hs, rfl, Nat.pos_of_ne_zero fun h0 => hlive (BitVec.eq_of_toNat_eq h0)⟩
    have hentry := mem_hufDegenEntries ((hufSorted_perm freq).length_eq ▸ h) hmem
    rw [hentries] at hentry
    rw [heq]
    simpa [hufDegenLevels] using hentry

theorem len_ne_zero_of_live {s : Nat} (hs : s < 288) (hlive : freq.read s ≠ 0#32) : ((hufBuild freq).cw.read s).len ≠ 0#4 := by
  have h := hufLevelsOk freq
  obtain ⟨l, hl⟩ := mem_flatten_iff_exists_mem_hufLevelAt.1 (mem_levels_of_live hs hlive)
  obtain ⟨hpos, -⟩ := h.le_of_mem hl
  intro h0
  have hlen : ((hufBuild freq).cw.read s).len.toNat = l := h.len_eq_of_mem hl
  rw [h0] at hlen
  exact absurd hpos (by rw [← hlen]; decide)

/-- The code lengths of the sorted symbols. -/
def hufSortedLens (freq : Memory (BitVec 32)) : List Nat := (hufSorted freq).map fun e => ((hufBuild freq).cw.read e.1).len.toNat

theorem pairwise_hufSortsBefore (freq : Memory (BitVec 32)) : (hufSorted freq).Pairwise hufSortsBefore :=
  pairwise_hufSort (pairwise_fst_lt_hufLive 288 freq)

/-- The lengths rise along the sorted symbols (R130). -/
theorem pairwise_len_hufSorted (h : 2 ≤ (hufSorted freq).length) : (hufSorted freq).Pairwise fun x y =>
    ((hufBuild freq).cw.read x.1).len.toNat ≤ ((hufBuild freq).cw.read y.1).len.toNat := by
  have hok := hufLevelsOk freq
  have hplace {j : Nat} (hj : j < (hufSorted freq).length) :
      ∃ l, hufBase (hufSortedCounts freq) l ≤ j ∧ j < hufBase (hufSortedCounts freq) (l + 1) ∧
        ((hufBuild freq).cw.read (hufSorted freq)[j].1).len.toNat = l := by
    obtain ⟨l, -, hge, hlt⟩ := exists_level_of_lt_hufBase (hufBase_hufSortedCounts_sixteen h ▸ hj)
    have hmem := mem_hufLevelAt_of_place h hge hlt
    rw [List.getD_eq_getElem _ _ hj] at hmem
    exact ⟨l, hge, hufBase_succ _ l ▸ hlt, hok.len_eq_of_mem hmem⟩
  refine List.pairwise_iff_getElem.2 fun j j' hj hj' hjj => ?_
  obtain ⟨l, hge, -, hl⟩ := hplace hj
  obtain ⟨l', -, hlt', hl'⟩ := hplace hj'
  rw [hl, hl']
  by_contra! hlt
  have := hufBase_mono (hufSortedCounts freq) (show l' + 1 ≤ l from hlt)
  omega

/-- Of two live symbols the one sorted first has no longer codeword. -/
theorem len_le_of_hufSortsBefore {x y : Nat × Nat} (hx : x ∈ hufSorted freq) (hy : y ∈ hufSorted freq) (hxy : hufSortsBefore x y) :
    ((hufBuild freq).cw.read x.1).len.toNat ≤ ((hufBuild freq).cw.read y.1).len.toNat := by
  obtain ⟨j, hj, rfl⟩ := List.getElem_of_mem hx
  obtain ⟨j', hj', rfl⟩ := List.getElem_of_mem hy
  rcases Nat.lt_trichotomy j j' with hlt | rfl | hgt
  · exact List.pairwise_iff_getElem.1 (pairwise_len_hufSorted (by omega)) j j' hj hj' hlt
  · exact le_rfl
  · have hback := List.pairwise_iff_getElem.1 (pairwise_hufSortsBefore freq) j' j hj' hj hgt
    unfold hufSortsBefore at hxy hback
    omega

/-- Settles O33: the levels hold all live symbols and, with two of them, no other; the lengths rise along the sorted symbols. -/
theorem hufLengthsFollowFrequency : Obligations.HufLengthsFollowFrequency := by
  refine fun freq => ⟨fun s => len_ne_zero_of_live, fun s u v hs hu hne hls hlu hv => ?_, fun s u hs hu hlu hsu => ?_⟩
  · have hnot : v ∉ (hufLevels 288 15 .symbol freq).levels.flatten := by
      rw [(flatten_hufLevels_perm (two_le_length_hufSorted hs hu hne hls hlu)).mem_iff, mem_hufSortedSyms]
      rintro ⟨hlt, hlive⟩
      exact hv.elim (fun hge => absurd hlt hge.not_gt) hlive
    exact (hufLevelsOk freq).read_cw_of_not_mem hnot
  · have hupos : 0 < (freq.read u).toNat := Nat.pos_of_ne_zero fun h0 => hlu (BitVec.eq_of_toNat_eq h0)
    have hbefore : hufSortsBefore (s, (freq.read s).toNat) (u, (freq.read u).toNat) :=
      hsu.imp_right fun ⟨heq, hlt⟩ => ⟨congrArg BitVec.toNat heq, hlt⟩
    have hspos : 0 < (freq.read s).toNat := by
      unfold hufSortsBefore at hbefore
      dsimp only at hbefore
      omega
    exact len_le_of_hufSortsBefore (x := (s, (freq.read s).toNat)) (y := (u, (freq.read u).toNat)) (mem_hufSorted.2 ⟨hs, rfl, hspos⟩) (mem_hufSorted.2 ⟨hu, rfl, hupos⟩) hbefore

end

end Sys2Proof.Machine
end

section
/-! PROOFS. The code is complete, and where it is not limited its weighted length is the least (41_huffman.md R138 (a), (g)): the weighted sums over the
symbols as costs of weights and lengths, with the laws of the tree of least cost. -/

namespace Sys2Proof.Machine

section
variable {freq : Memory (BitVec 32)}

/-- The sum of `LCNT[l] * 2^(15 - l)` (R138 (a)). -/
theorem sum_lcnt_hufBuild (freq : Memory (BitVec 32)) :
    ((List.range 15).map fun i => ((hufBuild freq).lcnt.read (i + 1)).toNat * 2 ^ (14 - i)).sum = 2 ^ 15 := by
  simp only [toNat_lcnt_hufBuild]
  exact (hufLevelsOk freq).full.sum_levels rfl

/-! The lengths of the sorted symbols. -/

/-- The sorted symbols of length `l` are as many as level `l` holds. -/
theorem count_hufSortedLens (h : 2 ≤ (hufSorted freq).length) (l : Nat) :
    (hufSortedLens freq).count l = hufSortedCounts freq l := by
  have hok := hufLevelsOk freq
  have hcount : (hufSortedLens freq).count l =
      ((hufLevels 288 15 .symbol freq).levels.flatten.filter fun s => ((hufBuild freq).cw.read s).len.toNat == l).length := by
    have hmap : hufSortedLens freq = (hufSortedSyms freq).map fun s => ((hufBuild freq).cw.read s).len.toNat := by
      rw [hufSortedLens, hufSortedSyms, List.map_map]
      rfl
    rw [hmap, ← (((flatten_hufLevels_perm h).map _).count_eq l), List.count, List.countP_map, List.countP_eq_length_filter]
    rfl
  rw [hcount, ← hufSize_hufLevels h]
  refine List.Perm.length_eq ((List.perm_ext_iff_of_nodup (hok.nodup.filter _) ((hok.ascending l).imp ne_of_lt)).2 fun s => ?_)
  rw [List.mem_filter, beq_iff_eq, mem_flatten_iff_exists_mem_hufLevelAt]
  constructor
  · rintro ⟨⟨l', hl'⟩, rfl⟩
    exact (hok.len_eq_of_mem hl').symm ▸ hl'
  · exact fun hs => ⟨⟨l, hs⟩, hok.len_eq_of_mem hs⟩

/-- A tree no deeper than 15 is not limited: its counts are those of the vector (R129). -/
theorem hufLimited_of_le {vec : List Nat} (h : vec.length - 1 ≤ 15) (l : Nat) : hufLimited vec l = vec.getD l 0 := by
  have hloop : ∀ k, hufLimitLoop 15 k (vec.length - 1) vec = vec := fun k => by
    cases k with
    | zero => rfl
    | succ k => rw [hufLimitLoop, if_neg h.not_gt]
  rw [hufLimited, hloop]
  rfl

/-! Weighted sums over the symbols as costs. -/

theorem sum_map_filter {α : Type} (l : List α) (p : α → Bool) (f : α → Nat) (h : ∀ x ∈ l, p x = false → f x = 0) :
    ((l.filter p).map f).sum = (l.map f).sum := by
  induction l with
  | nil => rfl
  | cons a l ih =>
    obtain ⟨ha, hl⟩ := List.forall_mem_cons.1 h
    cases hp : p a with
    | true => rw [List.filter_cons_of_pos hp, List.map_cons, List.map_cons, List.sum_cons, List.sum_cons, ih hl]
    | false => rw [List.filter_cons_of_neg (by simp [hp]), ih hl, List.map_cons, List.sum_cons, ha hp, Nat.zero_add]

/-- Symbols that are not live add nothing to a sum weighted with the frequencies. -/
theorem sum_freq_mul (freq : Memory (BitVec 32)) (f : Nat → Nat) :
    ((List.range 288).map fun s => (freq.read s).toNat * f s).sum = ((hufSorted freq).map fun e => e.2 * f e.1).sum := by
  rw [((hufSorted_perm freq).map _).sum_eq, hufLive, sum_map_filter _ _ _ (fun e _ he => ?_), List.map_map]
  · rfl
  · rw [Nat.eq_zero_of_not_pos (of_decide_eq_false he), Nat.zero_mul]

/-- The cost of lengths given to the weights of the sorted symbols. -/
theorem hufCost_hufSorted (freq : Memory (BitVec 32)) (f : Nat → Nat) :
    hufCost (((hufSorted freq).map fun e => (e.2, f e.1) : List (Nat × Nat)) : HufPairs) =
      ((hufSorted freq).map fun e => e.2 * f e.1).sum := by
  rw [hufCost, Multiset.map_coe, Multiset.sum_coe, List.map_map]
  rfl

/-- Words given to the live symbols, none the beginning of another, have Kraft sum at most 1. -/
theorem hufKraft_hufSorted_words_le {word : Nat → List Bool}
    (hword : ∀ s u, s < 288 → u < 288 → s ≠ u → freq.read s ≠ 0#32 → freq.read u ≠ 0#32 → ¬ word s <+: word u) :
    hufKraft (((hufSorted freq).map fun e => (e.2, (word e.1).length) : List (Nat × Nat)) : HufPairs) ≤ 1 := by
  have hwords := hufKraft_words_le ((hufSortedSyms freq).map fun s => (word s).length).sum ((hufSortedSyms freq).map word)
    (fun w hw => by
      obtain ⟨s, hs, rfl⟩ := List.mem_map.1 hw
      exact List.le_sum_of_mem (List.mem_map_of_mem hs))
    (List.pairwise_map.2 ((nodup_hufSortedSyms freq).imp_of_mem fun hs hu hne => by
      obtain ⟨hs, hls⟩ := mem_hufSortedSyms.1 hs
      obtain ⟨hu, hlu⟩ := mem_hufSortedSyms.1 hu
      exact ⟨hword _ _ hs hu hne hls hlu, hword _ _ hu hs hne.symm hlu hls⟩))
  rw [hufSortedSyms, List.map_map, List.map_map] at hwords
  rw [hufKraft, Multiset.map_coe, Multiset.sum_coe, List.map_map]
  exact hwords

theorem map_weight_hufLeaves (sorted : List (Nat × Nat)) : (hufLeaves sorted).map HufNode.weight = sorted.map Prod.snd := by
  rw [hufLeaves, List.map_map, ← List.zipIdx_map_fst 0 sorted, List.map_map, List.zipIdx_map_fst]
  rfl

/-- The lengths of an unlimited code cost no more than any of Kraft sum at most 1. -/
theorem hufCost_hufSortedLens_le (h : 2 ≤ (hufSorted freq).length) (hlimited : (hufBuild freq).limited = false) (p : HufPairs)
    (hp : p.map Prod.fst = ((hufSorted freq).map Prod.snd : List Nat)) (hk : hufKraft p ≤ 1) :
    hufCost (((hufSorted freq).map fun e => (e.2, ((hufBuild freq).cw.read e.1).len.toNat) : List (Nat × Nat)) : HufPairs) ≤
      hufCost p := by
  obtain ⟨htree, -, -⟩ := hufTreeVec_spec (sorted := hufSorted freq) (by omega)
  rw [hufBuild_limited_of_two_live h, decide_eq_false_iff_not, not_lt] at hlimited
  have hdesc : ((hufSorted freq).map Prod.snd).Pairwise fun x y => y ≤ x :=
    List.pairwise_map.2 ((pairwise_hufSortsBefore freq).imp fun hxy => by
      unfold hufSortsBefore at hxy
      omega)
  have hleast := htree.sorted_minimal (ls := hufSortedLens freq) (fun n => vec_of_mem_hufLeaves)
    (by rw [map_weight_hufLeaves]; exact hdesc) (List.pairwise_map.2 (pairwise_len_hufSorted h))
    (fun l => by rw [count_hufSortedLens h, hufSortedCounts, hufLimited_of_le hlimited]) p
    (by rw [hp, map_weight_hufLeaves]) hk
  rw [map_weight_hufLeaves, hufSortedLens, List.zip_map'] at hleast
  exact hleast

/-- Settles O30: the sizes of the levels fill a binary tree; an unlimited code has the depths of the tree, which costs least. -/
theorem hufCodeIsCompleteAndMinimal : Obligations.HufCodeIsCompleteAndMinimal := by
  refine ⟨sum_lcnt_hufBuild, fun freq word hlive hlimited hword => ?_⟩
  have h : 2 ≤ (hufSorted freq).length := (hufSorted_perm freq).length_eq ▸ hlive
  rw [sum_freq_mul freq fun s => ((hufBuild freq).cw.read s).len.toNat, sum_freq_mul freq fun s => (word s).length,
    ← hufCost_hufSorted freq fun s => ((hufBuild freq).cw.read s).len.toNat, ← hufCost_hufSorted freq fun s => (word s).length]
  refine hufCost_hufSortedLens_le h hlimited _ ?_ (hufKraft_hufSorted_words_le hword)
  rw [Multiset.map_coe, List.map_map]
  rfl

end

end Sys2Proof.Machine
end
